-- ==== Sys2Proof/Word.lean ====
section
/-!
DEFINITION. The word types of the block (spec/45_common_semantics.md rule R320, spec/00_scope.md rule R9).
Byte order, slicing and every other helper a test could prove wrong stand in Machine/Bytes.lean.
-/

namespace Sys2Proof

/-- A byte of the wire or of an operation script: 8 bits (rules R9, R320 (e)). -/
abbrev Byte := BitVec 8

/-- A 16-bit pattern: pulse widths in microseconds (rule R320 (b)), the CRC (R87), TELEM readings (R92). -/
abbrev Word16 := BitVec 16

/-- A 32-bit pattern: the operand of T.ADV (rule R102). -/
abbrev Word32 := BitVec 32

/-- The 32-bit pattern of an IEEE 754 binary32 value; a NormalizedAxis is held and carried as one
(rules R11, R324). -/
abbrev F32 := BitVec 32

end Sys2Proof
end

