-- ==== Sys2Proof/Config.lean ====
section
/-!
DEFINITION. The parameter record of the block (spec/00_scope.md rules R7, R8).
Every constant that the source names without a value is a field here, with its default and its
constraint. The record is an argument of every rule: the model is the block for EVERY record that meets the
constraints, not for the defaults alone (spec/92_eei_decisions.md D3).
-/

namespace Sys2Proof

/-- The parameters of rule R7. `N_RC_CH`, `N_PWM_CH` and `CMD_PAYLOAD_LEN` are fixed by the rule and stand below
as constants; `MAX_FRAME_SIZE` and `TELEM_PAYLOAD_LEN` are derived. -/
structure Params where
  /-- TIME_BITS: width of `now` and of every timestamp. -/
  timeBits : Nat
  /-- RC_PULSE_MIN_US: smallest accepted captured width. -/
  rcPulseMinUs : Nat
  /-- RC_PULSE_MAX_US: largest accepted captured width. -/
  rcPulseMaxUs : Nat
  /-- RC_TIMEOUT_MS: signal-loss timeout, milliseconds. -/
  rcTimeoutMs : Nat
  /-- MIN_US: the pulse width of axis -1. -/
  minUs : Nat
  /-- NEUTRAL_US, also written PWM_NEUTRAL_US (spec/90_conflicts.md C1): the pulse width of axis 0. -/
  neutralUs : Nat
  /-- MAX_US: the pulse width of axis +1. -/
  maxUs : Nat
  /-- PWM_PERIOD_US: carrier period. -/
  pwmPeriodUs : Nat
  preamble0 : Byte
  preamble1 : Byte
  protoVersion : Byte
  mtCommand : Byte
  mtTelem : Byte
  mtPing : Byte
  mtPong : Byte
  /-- MAX_PAYLOAD_LEN: largest accepted declared payload length. -/
  maxPayloadLen : Nat
  rxBufCap : Nat
  txFifoCap : Nat
  crcPoly : Word16
  crcInit : Word16
  crcRefIn : Bool
  crcRefOut : Bool
  crcXorOut : Word16
  /-- TELEM_STATUS_BYTES: width of the TELEM status bit field, bytes. -/
  telemStatusBytes : Nat
  /-- CNT_BITS: width of each diagnostic counter. -/
  cntBits : Nat
  deriving DecidableEq, Repr

/-- N_RC_CH (rule R7, fixed). -/
abbrev nRcCh : Nat := 2
/-- N_PWM_CH (rule R7, fixed). -/
abbrev nPwmCh : Nat := 2
/-- CMD_PAYLOAD_LEN (rule R7, fixed): two binary32 values. -/
abbrev cmdPayloadLen : Nat := 8

namespace Params

/-- MAX_FRAME_SIZE = MAX_PAYLOAD_LEN + 8 (rule R7). -/
def maxFrameSize (P : Params) : Nat := P.maxPayloadLen + 8

/-- TELEM_PAYLOAD_LEN = 22 + TELEM_STATUS_BYTES (rule R7). -/
def telemPayloadLen (P : Params) : Nat := 22 + P.telemStatusBytes

/-- 2^TIME_BITS: the modulus of all time arithmetic (rule R10). -/
def timeMod (P : Params) : Nat := 2 ^ P.timeBits

/-- 2^CNT_BITS: the modulus of the diagnostic counters (rule R36). -/
def cntMod (P : Params) : Nat := 2 ^ P.cntBits

/-- RC_TIMEOUT_MS * 1000: the timeout in microseconds, the unit it is compared in (rules R126 (b), R321). -/
def rcTimeoutUs (P : Params) : Nat := P.rcTimeoutMs * 1000

/-- The default column of rule R7. -/
def default : Params where
  timeBits := 64
  rcPulseMinUs := 900
  rcPulseMaxUs := 2100
  rcTimeoutMs := 100
  minUs := 1000
  neutralUs := 1500
  maxUs := 2000
  pwmPeriodUs := 20000
  preamble0 := 0xAA
  preamble1 := 0x55
  protoVersion := 0x01
  mtCommand := 0x01
  mtTelem := 0x02
  mtPing := 0x03
  mtPong := 0x04
  maxPayloadLen := 64
  rxBufCap := 256
  txFifoCap := 256
  crcPoly := 0x1021
  crcInit := 0xFFFF
  crcRefIn := false
  crcRefOut := false
  crcXorOut := 0x0000
  telemStatusBytes := 1
  cntBits := 32

/-- The constraints on the clock and the counters (rule R7: TIME_BITS, CNT_BITS, RC_TIMEOUT_MS). -/
abbrev ClockOk (P : Params) : Prop :=
  32 ≤ P.timeBits ∧ 1 ≤ P.cntBits ∧ 1 ≤ P.rcTimeoutMs ∧ P.rcTimeoutMs * 1000 < 2 ^ P.timeBits

/-- The constraints on the RC acceptance window (rule R7). -/
abbrev WindowOk (P : Params) : Prop :=
  1 ≤ P.rcPulseMinUs ∧ P.rcPulseMinUs ≤ P.rcPulseMaxUs ∧ P.rcPulseMaxUs ≤ 65535

/-- The constraints on the axis mapping and the carrier (rule R7). NEUTRAL_US need not be the midpoint
(rule R8, spec/90_conflicts.md C3). -/
abbrev PwmOk (P : Params) : Prop :=
  P.minUs < P.neutralUs ∧ P.neutralUs < P.maxUs ∧ P.maxUs < P.pwmPeriodUs ∧ P.maxUs ≤ 65535

/-- The message-type codes are pairwise distinct (rule R7). -/
abbrev TypesOk (P : Params) : Prop :=
  P.mtCommand ≠ P.mtTelem ∧ P.mtCommand ≠ P.mtPing ∧ P.mtCommand ≠ P.mtPong ∧
    P.mtTelem ≠ P.mtPing ∧ P.mtTelem ≠ P.mtPong ∧ P.mtPing ≠ P.mtPong

/-- The constraints on lengths and capacities (rule R7). -/
abbrev LengthsOk (P : Params) : Prop :=
  23 ≤ P.maxPayloadLen ∧ P.maxPayloadLen ≤ 65527 ∧ P.maxPayloadLen + 8 ≤ P.rxBufCap ∧
    P.maxPayloadLen + 8 ≤ P.txFifoCap ∧ (P.telemStatusBytes = 1 ∨ P.telemStatusBytes = 2) ∧
    22 + P.telemStatusBytes ≤ P.maxPayloadLen

/-- All constraints of rule R7. A record that breaks one is refused (rule R8). -/
abbrev Valid (P : Params) : Prop :=
  P.ClockOk ∧ P.WindowOk ∧ P.PwmOk ∧ P.TypesOk ∧ P.LengthsOk

end Params

end Sys2Proof
end

