-- ==== Sys2Proof/Machine/Bytes.lean ====
section
/-!
DEFINITION. Bytes: byte order, slices and reads of a byte sequence (spec/00_scope.md rules R9, R12;
spec/20_memory.md rules R61, R62).
-/

namespace Sys2Proof.Machine

/-- `u16le(v)`: low byte first (rule R9). -/
def u16le (v : Word16) : List Byte := [v.extractLsb' 0 8, v.extractLsb' 8 8]

/-- `u32le(v)`: low byte first (rule R9). -/
def u32le (v : Word32) : List Byte :=
  [v.extractLsb' 0 8, v.extractLsb' 8 8, v.extractLsb' 16 8, v.extractLsb' 24 8]

/-- `le16(b0, b1)` as a 16-bit pattern: `b0` is the low byte (rule R9). -/
def le16 (b0 b1 : Byte) : Word16 := b1 ++ b0

/-- `le32(b0..b3)` as a 32-bit pattern (rule R9). -/
def le32 (b0 b1 b2 b3 : Byte) : Word32 := (b3 ++ b2) ++ (b1 ++ b0)

/-- `s[i]` of a byte sequence (rule R9). Every use stands behind a length test (rule R327 (b)). -/
def byteAt (B : List Byte) (i : Nat) : Byte := B.getD i 0

/-- `MemRead(buf, i, n)`: the `n` bytes from offset `i` (rule R12). -/
def slice (B : List Byte) (i n : Nat) : List Byte := (B.drop i).take n

/-- The 16-bit field at byte offset `i`, little-endian. -/
def word16At (B : List Byte) (i : Nat) : Word16 := le16 (byteAt B i) (byteAt B (i + 1))

/-- The 32-bit field at byte offset `i`, little-endian. -/
def word32At (B : List Byte) (i : Nat) : Word32 :=
  le32 (byteAt B i) (byteAt B (i + 1)) (byteAt B (i + 2)) (byteAt B (i + 3))

/-- `i16(v)`: a 16-bit pattern read as two's complement (rule R9). Used by whoever decodes a TELEM payload (rule R327). -/
def i16 (v : Word16) : Int := v.toInt

end Sys2Proof.Machine
end

