-- ==== Sys2Proof/Syntax.lean ====
section
/-!
DEFINITION. The syntax of the block: operand types, the contents of the payloads and ONE constructor per row of
spec/opcode_table.json (spec/30_encoding.md rules R100 to R108, spec/45_common_semantics.md rule R329).
-/

namespace Sys2Proof

/-- A channel of PulseCapture or of ActuationDriver. Channel 0 is throttle (input) and ESC (output), channel 1
steering (input) and servo (output) (rules R7, R120, R190). -/
inductive Chan where
  | ch0
  | ch1
  deriving DecidableEq, Repr

/-- The contents of a TELEM payload (rule R92). `status` is as wide as the widest TELEM_STATUS_BYTES; with one status
byte only its low 8 bits exist (`WellFormed`). The six `imu` patterns are two's complement (rule R92), carried and
never computed with (rule R321). -/
structure Telem where
  seq : Word16
  status : Word16
  imu0 : Word16
  imu1 : Word16
  imu2 : Word16
  imu3 : Word16
  imu4 : Word16
  imu5 : Word16
  throttle : F32
  steering : F32
  deriving DecidableEq, Repr

/-- One constructor per row of spec/opcode_table.json. The first four are frames of the serial line, which are data and
not operations (rule R329): as an entry of the input they stand for their bytes arriving (assumption 2). A frame
keeps its CRC field as it was on the line, right or wrong. -/
inductive Instr where
  /-- FRAME.COMMAND (rule R90). -/
  | frameCommand (throttle steering : F32) (crc : Word16)
  /-- FRAME.TELEM (rule R92). -/
  | frameTelem (m : Telem) (crc : Word16)
  /-- FRAME.PING (rule R91). -/
  | framePing (payload : List Byte) (crc : Word16)
  /-- FRAME.PONG (rule R91). -/
  | framePong (payload : List Byte) (crc : Word16)
  /-- T.ADV d (rule R205). -/
  | tAdv (d : Word32)
  /-- PC.RISE ch (rule R121). -/
  | pcRise (ch : Chan)
  /-- PC.FALL ch (rule R122). -/
  | pcFall (ch : Chan)
  /-- PC.READ ch, any byte (rule R126). -/
  | pcRead (ch : Byte)
  /-- PC.POLL (rule R128). -/
  | pcPoll
  /-- PC.ACTIVE (rule R129). -/
  | pcActive
  /-- CL.RXBYTE b (rule R152). -/
  | clRxByte (b : Byte)
  /-- CL.POLL (rule R156). -/
  | clPoll
  /-- CL.SEND t, p (rule R165). -/
  | clSend (t : Byte) (p : List Byte)
  /-- CL.TXBYTE (rule R168). -/
  | clTxByte
  /-- CL.STATS (rule R172). -/
  | clStats
  /-- AD.INIT (rule R192). -/
  | adInit
  /-- AD.SETPW ch, us (rule R194). -/
  | adSetPw (ch : Byte) (us : Word16)
  /-- AD.SETAXIS ch, a (rule R196). -/
  | adSetAxis (ch : Byte) (a : F32)
  /-- AD.NEUTRAL (rule R198). -/
  | adNeutral
  /-- SYS.RESET (rule R207). -/
  | sysReset
  deriving DecidableEq, Repr

/-- The two encodings of spec/30_encoding.md: operation scripts (rule R100) and wire frames (rule R80). -/
inductive Stream where
  | script
  | wire
  deriving DecidableEq, Repr

/-- The agents of rule R6. -/
inductive Agent where
  | time
  | edge (ch : Chan)
  | serialRx
  | serialTx
  | host
  | reset
  deriving DecidableEq, Repr

/-- Why a byte sequence spells no instruction (rules R103, R108). -/
inductive DecodeError where
  /-- An opcode byte that is not in rule R101. -/
  | unknownOpcode (b : Byte)
  /-- A script that ends inside an operation, or a frame that ends before its last byte. -/
  | truncated
  /-- PC.RISE or PC.FALL with ch >= N_RC_CH: there is no such edge agent. -/
  | noSuchEdge (ch : Byte)
  /-- Six header bytes that select no FRAME row of the table (rule R108). -/
  | noFrameRow
  deriving DecidableEq, Repr

end Sys2Proof
end

