-- ==== Sys2Proof/Machine/FrameFormat.lean ====
section
/-!
DEFINITION. The frame of the serial line: CRC, payload layouts, layout of a whole frame, `Encode` and the predicate of an
accepted frame (spec/30_encoding.md rules R80 to R98).
-/

namespace Sys2Proof.Machine

/-- One shift of the CRC register (rule R87, the inner loop). -/
def crcShift (poly crc : Word16) : Word16 :=
  if crc.msb then (crc <<< 1) ^^^ poly else crc <<< 1

/-- One byte into the CRC register: the byte into the high half, then eight shifts (rule R87). -/
def crcByte (P : Params) (crc : Word16) (b : Byte) : Word16 :=
  let b' := if P.crcRefIn then b.reverse else b
  (crcShift P.crcPoly)^[8] (crc ^^^ (b'.setWidth 16 <<< 8))

/-- `Crc16(data)` (rule R87). -/
def crc16 (P : Params) (data : List Byte) : Word16 :=
  let crc := data.foldl (crcByte P) P.crcInit
  (if P.crcRefOut then crc.reverse else crc) ^^^ P.crcXorOut

/-- The four defined message types (rule R83). -/
def knownType (P : Params) (t : Byte) : Bool :=
  t == P.mtCommand || t == P.mtTelem || t == P.mtPing || t == P.mtPong

/-- The length a type fixes: COMMAND has 8 payload bytes, TELEM TELEM_PAYLOAD_LEN, PING and PONG any number
(rules R90 to R92, R96). -/
def typeLenOk (P : Params) (t : Byte) (n : Nat) : Bool :=
  (t != P.mtCommand || n == cmdPayloadLen) && (t != P.mtTelem || n == P.telemPayloadLen)

/-- The bytes the CRC covers: version, type, length, payload (rule R86). -/
def frameBody (P : Params) (t : Byte) (p : List Byte) : List Byte :=
  [P.protoVersion, t] ++ u16le (BitVec.ofNat 16 p.length) ++ p

/-- A frame with a given CRC field, laid out as rule R80 says. -/
def frameBytes (P : Params) (t : Byte) (p : List Byte) (crc : Word16) : List Byte :=
  [P.preamble0, P.preamble1] ++ frameBody P t p ++ u16le crc

/-- `Encode(t, p)` (rule R95). -/
def encodeFrame (P : Params) (t : Byte) (p : List Byte) : List Byte :=
  frameBytes P t p (crc16 P (frameBody P t p))

/-- `WellFormed(f)`: the byte sequence `f` is a frame this block accepts (rule R96). -/
def frameAccepted (P : Params) (f : List Byte) : Bool :=
  let L := (word16At f 4).toNat
  8 ≤ f.length && byteAt f 0 == P.preamble0 && byteAt f 1 == P.preamble1 && L ≤ P.maxPayloadLen &&
    f.length == 8 + L && word16At f (6 + L) == crc16 P (slice f 2 (4 + L)) &&
    byteAt f 2 == P.protoVersion && knownType P (byteAt f 3) && typeLenOk P (byteAt f 3) L

/-- `PackCommand(t, s)` (rule R90). -/
def packCommand (throttle steering : F32) : List Byte := u32le throttle ++ u32le steering

/-- `UnpackCommand(p)`, defined for eight bytes (rule R90). The patterns pass unchanged. -/
def unpackCommand (p : List Byte) : Option (F32 × F32) :=
  if p.length = cmdPayloadLen then some (word32At p 0, word32At p 4) else none

/-- The status field of a TELEM payload, TELEM_STATUS_BYTES wide (rule R92). -/
def packStatus (P : Params) (v : Word16) : List Byte :=
  if P.telemStatusBytes = 1 then [v.extractLsb' 0 8] else u16le v

/-- `PackTelem` (rule R92): the fields in the order listed, no padding, little-endian. -/
def packTelem (P : Params) (m : Telem) : List Byte :=
  u16le m.seq ++ packStatus P m.status ++ u16le m.imu0 ++ u16le m.imu1 ++ u16le m.imu2 ++ u16le m.imu3 ++
    u16le m.imu4 ++ u16le m.imu5 ++ u32le m.throttle ++ u32le m.steering

/-- `UnpackTelem` (rule R92), defined for TELEM_PAYLOAD_LEN bytes. With two status bytes every later offset grows by 1. -/
def unpackTelem (P : Params) (p : List Byte) : Option Telem :=
  if p.length = P.telemPayloadLen then
    let k := P.telemStatusBytes - 1
    some
      { seq := word16At p 0
        status := if P.telemStatusBytes = 1 then (byteAt p 2).setWidth 16 else word16At p 2
        imu0 := word16At p (3 + k)
        imu1 := word16At p (5 + k)
        imu2 := word16At p (7 + k)
        imu3 := word16At p (9 + k)
        imu4 := word16At p (11 + k)
        imu5 := word16At p (13 + k)
        throttle := word32At p (15 + k)
        steering := word32At p (19 + k) }
  else none

/-- Status bit 0: RC active (rule R93). -/
def statusRcActive (v : Word16) : Bool := v.getLsbD 0
/-- Status bit 1: network active (rule R93). -/
def statusNetworkActive (v : Word16) : Bool := v.getLsbD 1
/-- Status bit 2: failsafe active (rule R93). -/
def statusFailsafeActive (v : Word16) : Bool := v.getLsbD 2
/-- Status bit 3: sensor degraded (rule R93). -/
def statusSensorDegraded (v : Word16) : Bool := v.getLsbD 3

/-- The status field a sender builds: bits 4 and up are reserved and sent as 0 (rule R93). -/
def mkStatus (rc net failsafe degraded : Bool) : Word16 :=
  BitVec.ofNat 16 (rc.toNat + 2 * net.toNat + 4 * failsafe.toNat + 8 * degraded.toNat)

end Sys2Proof.Machine
end

