-- ==== Sys2Proof/WellFormed.lean ====
section
/-!
DEFINITION. Which instructions have an encoding: every length fits its 16-bit field (rules R84, R102), and the TELEM
status fits the status field of the parameter record (rule R92). Every other operand is in range by its type.
-/

namespace Sys2Proof

/-- A payload whose length fits the 16-bit length field of a frame or of CL.SEND (rules R84, R102). -/
def lengthFits (p : List Byte) : Bool := p.length < 65536

/-- With TELEM_STATUS_BYTES = 1 the status field has 8 bits (rule R92). -/
def statusFits (P : Params) (m : Telem) : Bool :=
  P.telemStatusBytes != 1 || m.status.toNat < 256

/-- The instruction `i` has an encoding under the parameter record `P`. -/
def WellFormed (P : Params) (i : Instr) : Bool :=
  match i with
  | .frameCommand _ _ _ => true
  | .frameTelem m _ => statusFits P m
  | .framePing p _ => lengthFits p
  | .framePong p _ => lengthFits p
  | .tAdv _ => true
  | .pcRise _ => true
  | .pcFall _ => true
  | .pcRead _ => true
  | .pcPoll => true
  | .pcActive => true
  | .clRxByte _ => true
  | .clPoll => true
  | .clSend _ p => lengthFits p
  | .clTxByte => true
  | .clStats => true
  | .adInit => true
  | .adSetPw _ _ => true
  | .adSetAxis _ _ => true
  | .adNeutral => true
  | .sysReset => true

end Sys2Proof
end

