-- ==== Sys2Proof/Decode.lean ====
section
/-!
DEFINITION. The decoder and the encoder of the two encodings of spec/30_encoding.md: operation scripts (rules R100 to R103)
and frames of the serial line (rules R80, R108). The decoder is total on any bytes and rejects by name.
-/

namespace Sys2Proof

open Machine (u16le u32le le16 le32 word16At word32At frameBytes packCommand packTelem unpackTelem)

/-- The agent an instruction belongs to (rules R6, R101). A frame of the line is the bytes SERIAL-RX delivers (R150). -/
def Instr.agent (i : Instr) : Agent :=
  match i with
  | .frameCommand _ _ _ => .serialRx
  | .frameTelem _ _ => .serialRx
  | .framePing _ _ => .serialRx
  | .framePong _ _ => .serialRx
  | .tAdv _ => .time
  | .pcRise ch => .edge ch
  | .pcFall ch => .edge ch
  | .pcRead _ => .host
  | .pcPoll => .host
  | .pcActive => .host
  | .clRxByte _ => .serialRx
  | .clPoll => .host
  | .clSend _ _ => .host
  | .clTxByte => .serialTx
  | .clStats => .host
  | .adInit => .host
  | .adSetPw _ _ => .host
  | .adSetAxis _ _ => .host
  | .adNeutral => .host
  | .sysReset => .reset

/-- Which encoding spells the instruction: a frame row of the table or an operation row. -/
def Instr.stream (i : Instr) : Stream :=
  match i with
  | .frameCommand _ _ _ => .wire
  | .frameTelem _ _ => .wire
  | .framePing _ _ => .wire
  | .framePong _ _ => .wire
  | .tAdv _ => .script
  | .pcRise _ => .script
  | .pcFall _ => .script
  | .pcRead _ => .script
  | .pcPoll => .script
  | .pcActive => .script
  | .clRxByte _ => .script
  | .clPoll => .script
  | .clSend _ _ => .script
  | .clTxByte => .script
  | .clStats => .script
  | .adInit => .script
  | .adSetPw _ _ => .script
  | .adSetAxis _ _ => .script
  | .adNeutral => .script
  | .sysReset => .script

/-- The channel an operand byte names: 0 or 1 (rules R7, R102). -/
def Chan.ofByte (b : Byte) : Option Chan :=
  if b = 0 then some .ch0 else if b = 1 then some .ch1 else none

/-- The operand byte of a channel. -/
def Chan.toByte (c : Chan) : Byte :=
  match c with
  | .ch0 => 0
  | .ch1 => 1

/-- What a decoder answers: the instruction and the bytes after it, or the reason there is none. -/
abbrev Decoded := Except DecodeError (Instr × List Byte)

/-- Format OP1 with a plain byte operand (rule R100). -/
def decodeOp1 (mk : Byte → Instr) (bs : List Byte) : Decoded :=
  match bs with
  | a :: rest => .ok (mk a, rest)
  | _ => .error .truncated

/-- Format OP1 of the two edge operations: a channel without an edge agent spells no operation (rule R103). -/
def decodeEdge (mk : Chan → Instr) (bs : List Byte) : Decoded :=
  match bs with
  | a :: rest =>
    match Chan.ofByte a with
    | some c => .ok (mk c, rest)
    | none => .error (.noSuchEdge a)
  | _ => .error .truncated

/-- Format OPD: u32le(d) (rule R100). -/
def decodeOpD (bs : List Byte) : Decoded :=
  match bs with
  | b0 :: b1 :: b2 :: b3 :: rest => .ok (.tAdv (le32 b0 b1 b2 b3), rest)
  | _ => .error .truncated

/-- Format OPW: ch, u16le(us) (rule R100). -/
def decodeOpW (bs : List Byte) : Decoded :=
  match bs with
  | ch :: b0 :: b1 :: rest => .ok (.adSetPw ch (le16 b0 b1), rest)
  | _ => .error .truncated

/-- Format OPF: ch, u32le(bits(a)), the pattern taken as is (rules R100, R102). -/
def decodeOpF (bs : List Byte) : Decoded :=
  match bs with
  | ch :: b0 :: b1 :: b2 :: b3 :: rest => .ok (.adSetAxis ch (le32 b0 b1 b2 b3), rest)
  | _ => .error .truncated

/-- Format OPS: t, u16le(n), then exactly n payload bytes (rules R100, R102). -/
def decodeOpS (bs : List Byte) : Decoded :=
  match bs with
  | t :: n0 :: n1 :: rest =>
    let n := (le16 n0 n1).toNat
    if rest.length < n then .error .truncated else .ok (.clSend t (rest.take n), rest.drop n)
  | _ => .error .truncated

/-- One operation from the head of an operation script: the opcode map of rule R101. -/
def decodeOp (bs : List Byte) : Decoded :=
  match bs with
  | [] => .error .truncated
  | op :: rest =>
    if op = 0x00 then decodeOpD rest
    else if op = 0x10 then decodeEdge .pcRise rest
    else if op = 0x11 then decodeEdge .pcFall rest
    else if op = 0x12 then decodeOp1 .pcRead rest
    else if op = 0x13 then .ok (.pcPoll, rest)
    else if op = 0x14 then .ok (.pcActive, rest)
    else if op = 0x20 then decodeOp1 .clRxByte rest
    else if op = 0x21 then .ok (.clPoll, rest)
    else if op = 0x22 then decodeOpS rest
    else if op = 0x23 then .ok (.clTxByte, rest)
    else if op = 0x24 then .ok (.clStats, rest)
    else if op = 0x30 then .ok (.adInit, rest)
    else if op = 0x31 then decodeOpW rest
    else if op = 0x32 then decodeOpF rest
    else if op = 0x33 then .ok (.adNeutral, rest)
    else if op = 0xF0 then .ok (.sysReset, rest)
    else .error (.unknownOpcode op)

/-- The FRAME row that a type and a declared length select (rule R108): the length is part of the match where the type
fixes it, and not for PING and PONG. -/
def frameRow (P : Params) (t : Byte) (L : Nat) (p : List Byte) (crc : Word16) : Option Instr :=
  if t = P.mtCommand then
    if L = cmdPayloadLen then some (.frameCommand (word32At p 0) (word32At p 4) crc) else none
  else if t = P.mtTelem then (unpackTelem P p).map fun m => .frameTelem m crc
  else if t = P.mtPing then some (.framePing p crc)
  else if t = P.mtPong then some (.framePong p crc)
  else none

/-- One frame from the head of a byte sequence. The six header bytes select the row (rule R108); the CRC field is read and
NOT checked: a corrupt frame is a frame on the line too, and what the receiver makes of it is CL.POLL's rule (R158). -/
def decodeFrame (P : Params) (bs : List Byte) : Decoded :=
  match bs with
  | b0 :: b1 :: ver :: t :: l0 :: l1 :: rest =>
    if b0 = P.preamble0 ∧ b1 = P.preamble1 ∧ ver = P.protoVersion then
      let L := (le16 l0 l1).toNat
      if rest.length < L + 2 then .error .truncated
      else
        match frameRow P t L (rest.take L) (word16At rest L) with
        | some i => .ok (i, rest.drop (L + 2))
        | none => .error .noFrameRow
    else .error .noFrameRow
  | _ => .error .truncated

/-- The decoder: one instruction from the head of a byte sequence of the given encoding. -/
def decode (P : Params) (k : Stream) (bs : List Byte) : Decoded :=
  match k with
  | .script => decodeOp bs
  | .wire => decodeFrame P bs

/-- The encoder, written from the formats of rule R100, the map of rule R101 and the layout of rule R80. -/
def encode (P : Params) (i : Instr) : List Byte :=
  match i with
  | .frameCommand t s crc => frameBytes P P.mtCommand (packCommand t s) crc
  | .frameTelem m crc => frameBytes P P.mtTelem (packTelem P m) crc
  | .framePing p crc => frameBytes P P.mtPing p crc
  | .framePong p crc => frameBytes P P.mtPong p crc
  | .tAdv d => 0x00 :: u32le d
  | .pcRise ch => [0x10, ch.toByte]
  | .pcFall ch => [0x11, ch.toByte]
  | .pcRead ch => [0x12, ch]
  | .pcPoll => [0x13]
  | .pcActive => [0x14]
  | .clRxByte b => [0x20, b]
  | .clPoll => [0x21]
  | .clSend t p => [0x22, t] ++ u16le (BitVec.ofNat 16 p.length) ++ p
  | .clTxByte => [0x23]
  | .clStats => [0x24]
  | .adInit => [0x30]
  | .adSetPw ch us => [0x31, ch] ++ u16le us
  | .adSetAxis ch a => [0x32, ch] ++ u32le a
  | .adNeutral => [0x33]
  | .sysReset => [0xF0]

/-- The operations that a script spells, at most `fuel` of them; every operation has at least its opcode byte. -/
def decodeOps (fuel : Nat) (bs : List Byte) : Except DecodeError (List Instr) :=
  match fuel, bs with
  | _, [] => .ok []
  | 0, _ :: _ => .error .truncated
  | k + 1, b :: rest =>
    match decodeOp (b :: rest) with
    | .error e => .error e
    | .ok (i, tail) =>
      match decodeOps k tail with
      | .error e => .error e
      | .ok is => .ok (i :: is)

/-- A whole operation script (rule R100): the sequence of operations it spells, or the reason it is ill-formed (rule R103). -/
def decodeScript (bs : List Byte) : Except DecodeError (List Instr) := decodeOps bs.length bs

/-- The script of a sequence of operations (rule R100). -/
def encodeScript (P : Params) (is : List Instr) : List Byte := (is.map (encode P)).flatten

/-- The bytes of a table word, first byte in the low 8 bits. -/
def wordBytes (nbits w : Nat) : List Byte :=
  (List.range ((nbits + 7) / 8)).map fun k => BitVec.ofNat 8 (w / 256 ^ k)

/-- The encoding a table row belongs to: the FRAME rows have 48 bits, the operation rows the 8 of the opcode byte. -/
def tableStream (nbits : Nat) : Stream := if nbits = 48 then .wire else .script

/-- The zero bytes that stand after a row's bits: as many as the longest fixed operands need (rule R100), and the declared
payload and the CRC field of a FRAME row. -/
def tablePad (nbits : Nat) (bs : List Byte) : List Byte :=
  List.replicate (if nbits = 48 then (word16At bs 4).toNat + 2 else 8) 0

/-- The instruction spelled by a row's bytes with zeros after them. -/
def decodeTableBytes (P : Params) (nbits : Nat) (bs : List Byte) : Option Instr :=
  match decode P (tableStream nbits) (bs ++ tablePad nbits bs) with
  | .ok (i, _) => some i
  | .error _ => none

/-- The instruction the decoder reads from a row's word of spec/opcode_table.json under `P`, every bit above `nbits` zero.
A FRAME row has byte 0 in bits 47:40 (rule R108); a word that selects no row so is read with byte 0 in bits 7:0. -/
def decodeTableWordAt (P : Params) (nbits w : Nat) : Option Instr :=
  let bs := wordBytes nbits w
  if nbits = 48 then (decodeTableBytes P nbits bs.reverse).or (decodeTableBytes P nbits bs)
  else decodeTableBytes P nbits bs

/-- The instruction the decoder reads from a row's word of spec/opcode_table.json, whose numbers are those of the default
parameter record (rule R108). -/
def decodeTableWord (nbits w : Nat) : Option Instr := decodeTableWordAt Params.default nbits w

end Sys2Proof
end

