-- ==== Sys2Proof/Machine/Numeric.lean ====
section
/-!
DEFINITION. The numerics of the two mappings: binary32 patterns, `RN32`, `round_haz`, `clamp`, `PulseToAxis` and
`AxisToPulse` (spec/00_scope.md rules R10, R11; spec/40_pulse_capture.md rule R124; spec/42_actuation_driver.md rule R195;
spec/45_common_semantics.md rules R324, R325). Exact rationals are pairs of natural numbers, numerator and denominator, and
a sign; each function rounds once, at its end.
-/

namespace Sys2Proof.Machine

/-- `tsub(a, b) = (a - b) mod 2^TIME_BITS` (rule R10). -/
def tsub (P : Params) (a b : Nat) : Nat := (a + (P.timeMod - b % P.timeMod)) % P.timeMod

/-- `clamp(q, lo, hi)` on integers (rule R11). -/
def clampNat (q lo hi : Nat) : Nat := if q < lo then lo else if hi < q then hi else q

/-- The sign bit of a binary32. -/
def f32Neg (a : F32) : Bool := a.msb

/-- The biased exponent field of a binary32. -/
def f32Exp (a : F32) : Nat := (a.extractLsb' 23 8).toNat

/-- The fraction field of a binary32. -/
def f32Frac (a : F32) : Nat := (a.extractLsb' 0 23).toNat

/-- A NaN: exponent bits all ones and a non-zero fraction, quiet or signalling, either sign (rule R325 (c)). -/
def f32IsNaN (a : F32) : Bool := f32Exp a == 255 && f32Frac a != 0

/-- Numerator of the exact magnitude of a non-NaN binary32, subnormals included. An infinity is given the magnitude 2^128,
above every finite one: only its place outside [-1, 1] matters, since `clamp` stands between it and every use (R195). DEDUCED (assumption 8). -/
def f32Num (a : F32) : Nat :=
  if f32Exp a = 0 then f32Frac a
  else if 150 ≤ f32Exp a then (2 ^ 23 + f32Frac a) * 2 ^ (f32Exp a - 150)
  else 2 ^ 23 + f32Frac a

/-- Denominator of the exact magnitude of a binary32. -/
def f32Den (a : F32) : Nat :=
  if f32Exp a = 0 then 2 ^ 149
  else if 150 ≤ f32Exp a then 1
  else 2 ^ (150 - f32Exp a)

/-- The exact rational value of a finite binary32 (rule R11). -/
def f32ToRat (a : F32) : ℚ :=
  let m : ℚ := (f32Num a : ℚ) / (f32Den a : ℚ)
  if f32Neg a then -m else m

/-- The integer nearest to `n / d`, a tie going to the even one. -/
def roundTiesEven (n d : Nat) : Nat :=
  let q := n / d
  let r := n % d
  if 2 * r < d then q else if d < 2 * r then q + 1 else q + q % 2

/-- `round_haz(n / d)`: the integer nearest to `n / d`, a tie going up (rule R11). -/
def roundHaz (n d : Nat) : Nat := (2 * n + d) / (2 * d)

/-- The least `k` with `n * 2^k >= d`, for `0 < n <= d`: the binary exponent of `n / d` is `-k`. -/
def negExp (n d : Nat) : Nat :=
  let k := d.log2 - n.log2
  if n * 2 ^ k < d then k + 1 else k

/-- `RN32` of the rational `n / d` (negated when `neg`), for `n <= d`: the nearest binary32, ties to even; `RN32(0) = +0`
(rule R11). The significand is scaled by 2^(23 + k) with k the binary exponent, at most 126 (below are the subnormals);
adding it to the exponent field lets a carry out of the significand raise the exponent.
DESIGN CHOICE (assumption 15): a negated non-zero value that rounds to zero gives -0, as IEEE 754 does; the rule states the zero's sign
for 0 alone. `pulseToAxis` never comes there (rule R325 (a)). -/
def rn32 (neg : Bool) (n d : Nat) : F32 :=
  if n = 0 then 0
  else
    let k := min (negExp n d) 126
    let m := roundTiesEven (n * 2 ^ (23 + k)) d
    BitVec.ofNat 32 ((if neg then 2 ^ 31 else 0) + (126 - k) * 2 ^ 23 + m)

/-- `PulseToAxis(w)` (rule R124): two segments, clamped to [-1, 1], rounded once. -/
def pulseToAxis (P : Params) (w : Nat) : F32 :=
  if w ≤ P.neutralUs then
    rn32 true (min (P.neutralUs - w) (P.neutralUs - P.minUs)) (P.neutralUs - P.minUs)
  else
    rn32 false (min (w - P.neutralUs) (P.maxUs - P.neutralUs)) (P.maxUs - P.neutralUs)

/-- Numerator of the magnitude of `clamp(a, -1, 1)`, over the denominator of `a` (rule R195). -/
def clampedNum (a : F32) : Nat := min (f32Num a) (f32Den a)

/-- `AxisToPulse(a)` (rule R195): NaN to neutral, clamp, exact product with the span of the side, one rounding half away
from zero. -/
def axisToPulse (P : Params) (a : F32) : Nat :=
  if f32IsNaN a then P.neutralUs
  else if f32Neg a then
    P.neutralUs - roundHaz (clampedNum a * (P.neutralUs - P.minUs)) (f32Den a)
  else
    P.neutralUs + roundHaz (clampedNum a * (P.maxUs - P.neutralUs)) (f32Den a)

end Sys2Proof.Machine
end

