-- ==== Sys2Proof/Machine/State.lean ====
section
/-!
DEFINITION. The state of the block (spec/10_state.md rules R20 to R55), as plain data, and its value after reset.
Values of TIME_BITS or CNT_BITS are natural numbers below their modulus (DESIGN CHOICE, assumption 11); the histories are kept
here too (assumption 3). The last three fields are not in the spec's tuple: the parameter record, which the rules take as an argument (R7), the
result of the last operation (R12) and what the environment issues next (R6, R100).
-/

namespace Sys2Proof.Machine

/-- One value per channel: the arrays `x[ch]`, ch in {0, 1}, of rule R20. -/
structure PerCh (α : Type) where
  ch0 : α
  ch1 : α
  deriving DecidableEq, Repr

/-- The shared record of an RC channel (rule R27), written and read as a whole (rule R66). -/
structure RcRecord where
  /-- `width_us[ch]` (rule R24). -/
  widthUs : Word16
  /-- `accept_ts[ch]` (rule R25). -/
  acceptTs : Nat
  /-- `valid[ch]` (rule R26). -/
  valid : Bool
  deriving DecidableEq, Repr

/-- The five diagnostic counters (rule R36), each counting modulo 2^CNT_BITS. -/
structure Counters where
  ok : Nat
  oversize : Nat
  crc : Nat
  format : Nat
  overrun : Nat
  deriving DecidableEq, Repr

/-- An entry of `pwm_trace` (rule R13): the period that started at `start` and its two pulse widths. -/
structure PwmPeriod where
  start : Nat
  width0 : Word16
  width1 : Word16
  deriving DecidableEq, Repr

/-- The source of a CommandSample (rule R14). -/
inductive Source where
  | rc
  | network
  deriving DecidableEq, Repr

/-- CommandSample (rules R14, R128). -/
structure Sample where
  throttle : F32
  steering : F32
  timestamp : Nat
  source : Source
  deriving DecidableEq, Repr

/-- `Frame(t, p)`: a frame shown to the host (rule R160). -/
structure Frame where
  type : Byte
  payload : List Byte
  deriving DecidableEq, Repr

/-- The status codes of rule R262. -/
inductive Status where
  | ok
  | badChannel
  | notInit
  | tooLong
  | badType
  | badLen
  | txFull
  deriving DecidableEq, Repr

/-- What an operation returns to the agent that issued it (rules R12, R101, R260, R263). -/
inductive Result where
  /-- The operation returns nothing. -/
  | noResult
  /-- PC.READ: NoSignal (`none`) or Axis. -/
  | axis (a : Option F32)
  /-- PC.POLL: None or a Sample. -/
  | sample (s : Option Sample)
  /-- PC.ACTIVE. -/
  | active (b : Bool)
  /-- CL.POLL: None or a Frame. -/
  | frame (f : Option Frame)
  /-- CL.SEND and AD.*. -/
  | status (c : Status)
  /-- CL.STATS. -/
  | stats (c : Counters)
  deriving DecidableEq, Repr

/-- A piece of what the environment issues: a whole operation script (rule R100), or frames that SERIAL-RX will deliver byte by
byte (assumption 2). -/
inductive Chunk where
  | script (bytes : List Byte)
  | wire (bytes : List Byte)
  deriving DecidableEq, Repr

/-- The reasons a step stops with a fault: none. "The block raises no exception, trap, fault or panic, ever" (rule R260);
rule R282 gives the model no fault. -/
inductive Fault where
  deriving DecidableEq, Repr

/-- The reasons a step is refused (rule R282). -/
inductive Refusal where
  /-- Raised by `exec` for an instruction without a meaning; no arm does. Safe: the machine stops. -/
  | notModelled (mnemonic : String)
  /-- Raised by `fetch` where a script is ill-formed anywhere (rules R103, R282). Safe: none of its operations runs. -/
  | illFormedScript (e : DecodeError)
  /-- Raised by `fetch` where bytes given as a frame of the table are none (assumption 2). Safe: no byte arrives. -/
  | illFormedFrame (e : DecodeError)
  /-- Raised by `fetch` where the parameter record breaks a constraint of rule R7 (rule R8). Safe: nothing runs. -/
  | badParameters
  /-- Raised by `fetch` where the environment issues nothing more: an execution ends where its script ends (rule R282).
  Safe: nothing runs. -/
  | endOfInput
  deriving DecidableEq, Repr

/-- The state of the block. -/
structure State where
  /-- `now` (rule R21), below 2^TIME_BITS. -/
  now : Nat
  /-- `rise_ts[ch]` (rule R22). -/
  riseTs : PerCh Nat
  /-- `armed[ch]` (rule R23). -/
  armed : PerCh Bool
  /-- The shared records `(width_us[ch], accept_ts[ch], valid[ch])` (rules R24 to R27). -/
  record : PerCh RcRecord
  /-- `rx_buf`, oldest byte first (rule R40). -/
  rxBuf : List Byte
  /-- `tx_fifo`, oldest byte first (rule R41). -/
  txFifo : List Byte
  /-- `cnt_ok`, `cnt_oversize`, `cnt_crc`, `cnt_format`, `cnt_overrun` (rule R36). -/
  cnt : Counters
  /-- `pwm_enabled` (rule R45). -/
  pwmEnabled : Bool
  /-- `period_start` (rule R46). -/
  periodStart : Nat
  /-- `pw_shadow[ch]` (rule R47). -/
  pwShadow : PerCh Word16
  /-- `pw_active[ch]` (rule R47). -/
  pwActive : PerCh Word16
  /-- `tx_line`, an observation history, oldest first (rule R13). -/
  txLine : List Byte
  /-- `pwm_trace`, an observation history, oldest first (rule R13). -/
  pwmTrace : List PwmPeriod
  /-- The parameter record (rules R7, R35): no operation writes it (assumption 4). -/
  params : Params
  /-- The result of the last operation (assumption 5). -/
  result : Result
  /-- What the environment issues next, first chunk first (assumption 1). -/
  input : List Chunk
  deriving DecidableEq, Repr

/-- All counters 0 (rule R55). -/
def Counters.zero : Counters := ⟨0, 0, 0, 0, 0⟩

/-- The state after reset of an instance with the parameter record `P` (rule R55), histories empty and no input. -/
def State.resetOf (P : Params) : State where
  now := 0
  riseTs := ⟨0, 0⟩
  armed := ⟨false, false⟩
  record := ⟨⟨0, 0, false⟩, ⟨0, 0, false⟩⟩
  rxBuf := []
  txFifo := []
  cnt := Counters.zero
  pwmEnabled := false
  periodStart := 0
  pwShadow := ⟨BitVec.ofNat 16 P.neutralUs, BitVec.ofNat 16 P.neutralUs⟩
  pwActive := ⟨BitVec.ofNat 16 P.neutralUs, BitVec.ofNat 16 P.neutralUs⟩
  txLine := []
  pwmTrace := []
  params := P
  result := .noResult
  input := []

/-- The machine right after reset, with the default parameter record (rules R7, R55). -/
def State.reset : State := State.resetOf Params.default

end Sys2Proof.Machine
end

