-- ==== Sys2Proof/Machine/Ops.lean ====
section
/-!
DEFINITION. The named operations over the state: reads and writes of the per-channel arrays, the buffers, the counters and the
pulse registers; one received byte; one carrier period; and the scan of the receive buffer.
The block raises no exception (spec/60_exceptions.md rule R260), so there is no operation that takes one and none that returns
from one.
-/

namespace Sys2Proof.Machine

/-- `s[ch]` (rule R12). -/
def PerCh.get {α : Type} (x : PerCh α) (c : Chan) : α :=
  match c with
  | .ch0 => x.ch0
  | .ch1 => x.ch1

/-- `s[ch] <- v` (rule R12). -/
def PerCh.set {α : Type} (x : PerCh α) (c : Chan) (v : α) : PerCh α :=
  match c with
  | .ch0 => { x with ch0 := v }
  | .ch1 => { x with ch1 := v }

/-- The same value on both channels. -/
def PerCh.both {α : Type} (v : α) : PerCh α := ⟨v, v⟩

/-- A script put before everything else the environment issues (assumptions 1, 2). -/
def State.issueFirst (s : State) (script : List Byte) : State := { s with input := .script script :: s.input }

/-- `return v` (rule R12): the step ends, giving its result to the agent that issued it. -/
def State.ret (s : State) (r : Result) : State := { s with result := r }

/-- A write of `now` (rule R21). -/
def State.setNow (s : State) (t : Nat) : State := { s with now := t }

/-- A write of `rise_ts[ch]` (rule R22). -/
def State.setRise (s : State) (c : Chan) (t : Nat) : State := { s with riseTs := s.riseTs.set c t }

/-- A write of the shared record of a channel, all three parts together (rules R27, R66). -/
def State.setRecord (s : State) (c : Chan) (r : RcRecord) : State := { s with record := s.record.set c r }

/-- A write of `rx_buf` (rule R40). -/
def State.setRx (s : State) (b : List Byte) : State := { s with rxBuf := b }

/-- A write of `tx_fifo` (rule R41). -/
def State.setTx (s : State) (b : List Byte) : State := { s with txFifo := b }

/-- A write of the counters (rule R36). -/
def State.setCnt (s : State) (c : Counters) : State := { s with cnt := c }

/-- A write of both shadow pulse widths (rule R47). -/
def State.setShadow (s : State) (p : PerCh Word16) : State := { s with pwShadow := p }

/-- `append(tx_line, b)` (rules R13, R168). -/
def State.emit (s : State) (b : Byte) : State := { s with txLine := s.txLine ++ [b] }

/-- A carrier period starts now with the given widths: `period_start`, `pw_active` and the entry of `pwm_trace` (rules R13,
R192, R205). -/
def State.startPeriod (s : State) (p : PerCh Word16) : State :=
  { s with
    periodStart := s.now
    pwActive := p
    pwmTrace := s.pwmTrace ++ [⟨s.now, p.ch0, p.ch1⟩] }

/-- NEUTRAL_US on both channels (rules R192, R198). -/
def neutralWidths (P : Params) : PerCh Word16 := PerCh.both (BitVec.ofNat 16 P.neutralUs)

/-- One more on a counter, modulo 2^CNT_BITS (rule R36). -/
def bump (P : Params) (n : Nat) : Nat := (n + 1) % P.cntMod

/-- `cnt_ok <- cnt_ok + 1` (rule R160). -/
def Counters.countOk (P : Params) (c : Counters) : Counters := { c with ok := bump P c.ok }
/-- Cause 1 OVERSIZE (rules R157, R264). -/
def Counters.countOversize (P : Params) (c : Counters) : Counters := { c with oversize := bump P c.oversize }
/-- Cause 2 CRC (rules R158, R264). -/
def Counters.countCrc (P : Params) (c : Counters) : Counters := { c with crc := bump P c.crc }
/-- Cause 3 FORMAT (rules R159, R264). -/
def Counters.countFormat (P : Params) (c : Counters) : Counters := { c with format := bump P c.format }
/-- Cause 4 OVERRUN (rules R152, R264). -/
def Counters.countOverrun (P : Params) (c : Counters) : Counters := { c with overrun := bump P c.overrun }

/-- One byte arrives (rule R152): appended at the tail, or lost and counted when `rx_buf` is full. -/
def rxByte (s : State) (b : Byte) : State :=
  if s.rxBuf.length < s.params.rxBufCap then s.setRx (s.rxBuf ++ [b])
  else s.setCnt (s.cnt.countOverrun s.params)

/-- The bytes of a sequence arrive one after another (rules R69 (d), R106 CL.RXBYTES). -/
def rxBytes (s : State) (bs : List Byte) : State := bs.foldl rxByte s

/-- `now` moves by `d` microseconds with no period boundary (rule R205, last line). -/
def addTime (s : State) (d : Nat) : State := s.setNow ((s.now + d) % s.params.timeMod)

/-- The carrier phase `tsub(now, period_start)` (rule R32). -/
def phase (s : State) : Nat := tsub s.params s.now s.periodStart

/-- `PWM_PERIOD_US - tsub(now, period_start)`: the time to the next boundary (rule R205). DEDUCED: 0 in states no run reaches
(assumption 6). -/
def toBoundary (s : State) : Nat := s.params.pwmPeriodUs - phase s

/-- A period boundary: `now` reaches it and the active widths take the shadow values (rule R205). -/
def crossBoundary (s : State) : State :=
  let t := addTime s (toBoundary s)
  t.startPeriod t.pwShadow

/-- The loop of rule R205, at most `fuel` passes: the state at the last boundary passed, and the time remaining. -/
def runPeriods (fuel remaining : Nat) (s : State) : State × Nat :=
  match fuel with
  | 0 => (s, remaining)
  | k + 1 =>
    if s.pwmEnabled && toBoundary s ≤ remaining then
      runPeriods k (remaining - toBoundary s) (crossBoundary s)
    else (s, remaining)

/-- `d` microseconds pass (rule R205). The loop makes at most d div PWM_PERIOD_US + 1 passes (rule R326). -/
def advance (s : State) (d : Nat) : State :=
  let r := runPeriods (d / s.params.pwmPeriodUs + 1) d s
  addTime r.1 r.2

/-- `Fresh(ch)` (rule R127). -/
def fresh (s : State) (c : Chan) : Bool :=
  (s.record.get c).valid && tsub s.params s.now (s.record.get c).acceptTs < s.params.rcTimeoutUs

/-- The reading of a channel: NoSignal, or the axis of its width (rule R126), from one snapshot of its record. -/
def readChannel (s : State) (c : Chan) : Option F32 :=
  if fresh s c then some (pulseToAxis s.params (s.record.get c).widthUs.toNat) else none

/-- What one pass of the parser finds at the head of the buffer (rule R156). -/
inductive Scan where
  /-- Too few bytes to decide: the call returns None. -/
  | wait
  /-- A preamble mismatch: one byte is dropped, nothing is counted. -/
  | mismatch
  /-- The declared length exceeds MAX_PAYLOAD_LEN (rule R157). -/
  | oversize
  /-- The stored CRC differs (rule R158). -/
  | badCrc
  /-- A CRC-valid frame of `n` bytes that is unusable (rule R159). -/
  | unusable (n : Nat)
  /-- A frame of `n` bytes to expose (rule R160). -/
  | exposed (n : Nat) (f : Frame)
  deriving DecidableEq, Repr

/-- One pass of the parser over the buffer `B`, the tests in the order of rule R156. -/
def scan (P : Params) (B : List Byte) : Scan :=
  if B.length < 1 then .wait
  else if byteAt B 0 ≠ P.preamble0 then .mismatch
  else if B.length < 2 then .wait
  else if byteAt B 1 ≠ P.preamble1 then .mismatch
  else if B.length < 6 then .wait
  else
    let L := (word16At B 4).toNat
    if P.maxPayloadLen < L then .oversize
    else if B.length < 8 + L then .wait
    else if word16At B (6 + L) ≠ crc16 P (slice B 2 (4 + L)) then .badCrc
    else if byteAt B 2 = P.protoVersion ∧ knownType P (byteAt B 3) ∧ typeLenOk P (byteAt B 3) L then
      .exposed (8 + L) ⟨byteAt B 3, slice B 6 L⟩
    else .unusable (8 + L)

/-- What a call of the parser leaves: the buffer, the counters and the frame it returns. -/
structure Polled where
  buf : List Byte
  cnt : Counters
  frame : Option Frame
  deriving DecidableEq, Repr

/-- The loop of rule R156, at most `fuel` passes. -/
def pollLoop (P : Params) (fuel : Nat) (B : List Byte) (c : Counters) : Polled :=
  match fuel with
  | 0 => ⟨B, c, none⟩
  | k + 1 =>
    match scan P B with
    | .wait => ⟨B, c, none⟩
    | .mismatch => pollLoop P k (B.drop 1) c
    | .oversize => pollLoop P k (B.drop 1) (c.countOversize P)
    | .badCrc => pollLoop P k (B.drop 1) (c.countCrc P)
    | .unusable n => pollLoop P k (B.drop n) (c.countFormat P)
    | .exposed n f => ⟨B.drop n, c.countOk P, some f⟩

/-- A call of the parser: it ends after at most |rx_buf| + 1 passes (rule R161). -/
def poll (P : Params) (B : List Byte) (c : Counters) : Polled := pollLoop P (B.length + 1) B c

/-- The status code of rule R262. -/
def Status.code (c : Status) : Nat :=
  match c with
  | .ok => 0
  | .badChannel => 1
  | .notInit => 2
  | .tooLong => 3
  | .badType => 4
  | .badLen => 5
  | .txFull => 6

/-- Every register of rule R20 to its reset value of rule R55; the histories, the parameter record and the environment's
input stay. -/
def resetRegisters (s : State) : State :=
  { State.resetOf s.params with
    txLine := s.txLine
    pwmTrace := s.pwmTrace
    input := s.input }

end Sys2Proof.Machine
end

