-- ==== Sys2Proof/Machine/Flags.lean ====
section
/-!
DEFINITION. The three kinds of one-bit flags of the block (spec/10_state.md rule R33): `armed[ch]`, `valid[ch]` and
`pwm_enabled`. There are no condition codes: no arithmetic operation has carry, overflow, zero or sign flags.
-/

namespace Sys2Proof.Machine

/-- A write of `armed[ch]` (rule R23): set by PC.RISE, cleared by PC.FALL. -/
def State.setArmed (s : State) (c : Chan) (b : Bool) : State := { s with armed := s.armed.set c b }

/-- Whether a rising edge of the channel waits for its fall (rule R23). -/
def isArmed (s : State) (c : Chan) : Bool := s.armed.get c

/-- Whether any width of the channel has been accepted since reset (rule R26). -/
def isValid (s : State) (c : Chan) : Bool := (s.record.get c).valid

/-- `pwm_enabled <- 1` (rule R45): AD.INIT is the only operation that sets it, SYS.RESET the only one that clears it. -/
def State.enablePwm (s : State) : State := { s with pwmEnabled := true }

end Sys2Proof.Machine
end

