-- ==== Sys2Proof/Machine/Operands.lean ====
section
/-!
DEFINITION. The operand forms of the operations (spec/30_encoding.md rule R102): the channel byte of a host operation, the
width operand of the pulse registers, the payload operand of CL.SEND, and the two checked writes the AD operations share.
-/

namespace Sys2Proof.Machine

/-- The channel a host operation's byte names, out of range when none (rules R126 (d), R194). -/
def channelOf (b : Byte) : Option Chan := Chan.ofByte b

/-- The operand `us`, clamped to [MIN_US, MAX_US] and not truncated (rules R194, R322). -/
def pulseOperand (P : Params) (us : Nat) : Word16 := BitVec.ofNat 16 (clampNat us P.minUs P.maxUs)

/-- The write of AD.SETPW and AD.SETAXIS: channel first, then initialisation, then the clamped write of the shadow
(rules R194, R262). -/
def writePulse (s : State) (ch : Byte) (us : Nat) : State :=
  match channelOf ch with
  | none => s.ret (.status .badChannel)
  | some c =>
    if s.pwmEnabled then
      (s.setShadow (s.pwShadow.set c (pulseOperand s.params us))).ret (.status .ok)
    else s.ret (.status .notInit)

/-- The checks of CL.SEND in the order of rule R165; the first that fails decides the status (rule R262). -/
def sendStatus (P : Params) (queued : Nat) (t : Byte) (n : Nat) : Status :=
  if !knownType P t then .badType
  else if P.maxPayloadLen < n then .tooLong
  else if !typeLenOk P t n then .badLen
  else if P.txFifoCap < queued + 8 + n then .txFull
  else .ok

end Sys2Proof.Machine
end

