-- ==== Sys2Proof/Machine/ActuationDriver.lean ====
section
/-!
DEFINITION. ActuationDriver: AD.INIT, AD.SETPW, AD.SETAXIS, AD.NEUTRAL, and the waveform on the pins
(spec/42_actuation_driver.md).
-/

namespace Sys2Proof.Machine

/-- AD.INIT (rule R192): neutral shadows; the first time, the carrier starts now with neutral on both pins. A second call
does not restart it. -/
def execAdInit (s : State) : Host.Outcome State Fault Refusal :=
  let t := s.setShadow (neutralWidths s.params)
  if s.pwmEnabled then .next (t.ret (.status .ok))
  else .next ((t.enablePwm.startPeriod (neutralWidths s.params)).ret (.status .ok))

/-- AD.SETPW ch, us (rule R194). -/
def execAdSetPw (ch : Byte) (us : Word16) (s : State) : Host.Outcome State Fault Refusal :=
  .next (writePulse s ch us.toNat)

/-- AD.SETAXIS ch, a (rule R196): AD.SETPW of AxisToPulse(a), same statuses, same effect. -/
def execAdSetAxis (ch : Byte) (a : F32) (s : State) : Host.Outcome State Fault Refusal :=
  .next (writePulse s ch (axisToPulse s.params a))

/-- AD.NEUTRAL (rule R198): NEUTRAL_US into both shadows, no operand, no mapping, no clamp. -/
def execAdNeutral (s : State) : Host.Outcome State Fault Refusal :=
  if s.pwmEnabled then .next ((s.setShadow (neutralWidths s.params)).ret (.status .ok))
  else .next (s.ret (.status .notInit))

/-- The level of output pin `c` at the instant `t` of the current period (rule R199): high exactly while the phase is below
the active width; low while not enabled. -/
def pinHigh (s : State) (c : Chan) (t : Nat) : Bool :=
  s.pwmEnabled && tsub s.params t s.periodStart < (s.pwActive.get c).toNat

/-- The duty cycle of pin `c` in the current period, an exact ratio (rule R199). -/
def duty (s : State) (c : Chan) : ℚ := ((s.pwActive.get c).toNat : ℚ) / (s.params.pwmPeriodUs : ℚ)

end Sys2Proof.Machine
end

