-- ==== Sys2Proof/Machine/CommandLink.lean ====
section
/-!
DEFINITION. CommandLink: CL.RXBYTE, CL.POLL, CL.SEND, CL.TXBYTE, CL.STATS (spec/41_command_link.md).
-/

namespace Sys2Proof.Machine

/-- CL.RXBYTE b (rule R152). -/
def execClRxByte (b : Byte) (s : State) : Host.Outcome State Fault Refusal :=
  .next ((rxByte s b).ret .noResult)

/-- CL.POLL (rules R156 to R161): the parser runs over the accumulated bytes and returns at most one frame; it writes
`rx_buf` and the counters, nothing else. -/
def execClPoll (s : State) : Host.Outcome State Fault Refusal :=
  let r := poll s.params s.rxBuf s.cnt
  .next (((s.setRx r.buf).setCnt r.cnt).ret (.frame r.frame))

/-- CL.SEND t, p (rule R165): the whole frame is queued, or nothing changes and the status says why. -/
def execClSend (t : Byte) (p : List Byte) (s : State) : Host.Outcome State Fault Refusal :=
  match sendStatus s.params s.txFifo.length t p.length with
  | .ok => .next ((s.setTx (s.txFifo ++ encodeFrame s.params t p)).ret (.status .ok))
  | c => .next (s.ret (.status c))

/-- CL.TXBYTE (rule R168): the head of `tx_fifo` goes to the line; nothing happens when it is empty. -/
def execClTxByte (s : State) : Host.Outcome State Fault Refusal :=
  match s.txFifo with
  | [] => .next (s.ret .noResult)
  | b :: rest => .next (((s.setTx rest).emit b).ret .noResult)

/-- CL.STATS (rule R172): the counters are returned and not cleared. -/
def execClStats (s : State) : Host.Outcome State Fault Refusal :=
  .next (s.ret (.stats s.cnt))

end Sys2Proof.Machine
end

