-- ==== Sys2Proof/Machine/Frames.lean ====
section
/-!
DEFINITION. The four FRAME rows of the opcode table. A frame is data of the serial line, not an operation (spec/45_common_semantics.md
rule R329): no step but the sixteen operations exists. Given as an entry of the input, a frame is the bytes that SERIAL-RX delivers
(rules R150, R106 CL.RXBYTES; DESIGN CHOICE, assumption 2): the step that takes it IS the CL.RXBYTE of its first byte (rule R152), and
one CL.RXBYTE for each of the others is what the environment issues next. What the receiver makes of the bytes is CL.POLL's rule (R156).
-/

namespace Sys2Proof.Machine

/-- The first of the bytes arrives now, the others stand before the rest of the input, one CL.RXBYTE each. -/
def deliver (s : State) (bytes : List Byte) : State :=
  match bytes with
  | [] => s.ret .noResult
  | b :: rest => (rxByte (s.issueFirst (encodeScript s.params (rest.map .clRxByte))) b).ret .noResult

/-- FRAME.COMMAND (rules R80, R90): 16 bytes. -/
def execFrameCommand (throttle steering : F32) (crc : Word16) (s : State) : Host.Outcome State Fault Refusal :=
  .next (deliver s (encode s.params (.frameCommand throttle steering crc)))

/-- FRAME.TELEM (rules R80, R92): 8 + TELEM_PAYLOAD_LEN bytes. -/
def execFrameTelem (m : Telem) (crc : Word16) (s : State) : Host.Outcome State Fault Refusal :=
  .next (deliver s (encode s.params (.frameTelem m crc)))

/-- FRAME.PING (rules R80, R91): 8 + L bytes. -/
def execFramePing (payload : List Byte) (crc : Word16) (s : State) : Host.Outcome State Fault Refusal :=
  .next (deliver s (encode s.params (.framePing payload crc)))

/-- FRAME.PONG (rules R80, R91): 8 + L bytes. -/
def execFramePong (payload : List Byte) (crc : Word16) (s : State) : Host.Outcome State Fault Refusal :=
  .next (deliver s (encode s.params (.framePong payload crc)))

end Sys2Proof.Machine
end

