-- ==== Sys2Proof/Machine/PulseCapture.lean ====
section
/-!
DEFINITION. PulseCapture: PC.RISE, PC.FALL, PC.READ, PC.POLL, PC.ACTIVE (spec/40_pulse_capture.md).
-/

namespace Sys2Proof.Machine

/-- PC.RISE ch (rule R121): the timestamp of the rise is recorded, over an earlier one if there was no fall between. -/
def execPcRise (c : Chan) (s : State) : Host.Outcome State Fault Refusal :=
  .next (((s.setRise c s.now).setArmed c true).ret .noResult)

/-- The captured width `tsub(now, rise_ts[ch])`, TIME_BITS wide (rule R123). -/
def capturedWidth (s : State) (c : Chan) : Nat := tsub s.params s.now (s.riseTs.get c)

/-- The acceptance window, both bounds inclusive, tested on the full width before it is narrowed (rule R122 (a), (f)). -/
def inWindow (P : Params) (w : Nat) : Bool := P.rcPulseMinUs ≤ w && w ≤ P.rcPulseMaxUs

/-- PC.FALL ch (rule R122): nothing when not armed; else the flag is consumed and an accepted width is recorded with its
acceptance time, narrowed to 16 bits after the window test (rule R322). A rejected one leaves the record as it was. -/
def execPcFall (c : Chan) (s : State) : Host.Outcome State Fault Refusal :=
  if isArmed s c then
    let w := capturedWidth s c
    let t := s.setArmed c false
    if inWindow s.params w then
      .next ((t.setRecord c ⟨BitVec.ofNat 16 w, s.now, true⟩).ret .noResult)
    else .next (t.ret .noResult)
  else .next (s.ret .noResult)

/-- PC.READ ch (rule R126): NoSignal for a channel that does not exist, one without an accepted width and a stale one. -/
def execPcRead (ch : Byte) (s : State) : Host.Outcome State Fault Refusal :=
  match channelOf ch with
  | none => .next (s.ret (.axis none))
  | some c => .next (s.ret (.axis (readChannel s c)))

/-- The RC sample of a poll (rule R128): both channels read at the same `now`. -/
def pollSample (s : State) : Option Sample :=
  match readChannel s .ch0, readChannel s .ch1 with
  | some x, some y => some ⟨x, y, s.now, .rc⟩
  | _, _ => none

/-- PC.POLL (rule R128). -/
def execPcPoll (s : State) : Host.Outcome State Fault Refusal :=
  .next (s.ret (.sample (pollSample s)))

/-- PC.ACTIVE (rule R129). -/
def execPcActive (s : State) : Host.Outcome State Fault Refusal :=
  .next (s.ret (.active (fresh s .ch0 && fresh s .ch1)))

end Sys2Proof.Machine
end

