-- ==== Sys2Proof/Machine/System.lean ====
section
/-!
DEFINITION. SYS.RESET (spec/42_actuation_driver.md rule R207, spec/10_state.md rule R55).
-/

namespace Sys2Proof.Machine

/-- SYS.RESET (rule R207): every piece of state of rule R20 to its reset value; bytes waiting in the buffers are lost, both
pins go low, the histories keep what they recorded. -/
def execSysReset (s : State) : Host.Outcome State Fault Refusal := .next (resetRegisters s)

end Sys2Proof.Machine
end

