-- ==== Sys2Proof/Machine/Time.lean ====
section
/-!
DEFINITION. Time: T.ADV (spec/42_actuation_driver.md rule R205).
-/

namespace Sys2Proof.Machine

/-- T.ADV d (rule R205): `d` microseconds pass, zero-extended to TIME_BITS (rule R322); every period boundary reached loads
the active widths from the shadows and starts an entry of `pwm_trace`. -/
def execTAdv (d : Word32) (s : State) : Host.Outcome State Fault Refusal :=
  .next ((advance s d.toNat).ret .noResult)

end Sys2Proof.Machine
end

