-- ==== Sys2Proof/Machine/Dispatch.lean ====
section
/-!
DEFINITION. One arm per constructor of Instr: each is one direct call of its meaning.
-/

namespace Sys2Proof.Machine

def exec (i : Instr) (s : State) : Host.Outcome State Fault Refusal :=
  match i with
  | .frameCommand t st crc => Sys2Proof.Machine.execFrameCommand t st crc s
  | .frameTelem m crc => Sys2Proof.Machine.execFrameTelem m crc s
  | .framePing p crc => Sys2Proof.Machine.execFramePing p crc s
  | .framePong p crc => Sys2Proof.Machine.execFramePong p crc s
  | .tAdv d => Sys2Proof.Machine.execTAdv d s
  | .pcRise c => Sys2Proof.Machine.execPcRise c s
  | .pcFall c => Sys2Proof.Machine.execPcFall c s
  | .pcRead ch => Sys2Proof.Machine.execPcRead ch s
  | .pcPoll => Sys2Proof.Machine.execPcPoll s
  | .pcActive => Sys2Proof.Machine.execPcActive s
  | .clRxByte b => Sys2Proof.Machine.execClRxByte b s
  | .clPoll => Sys2Proof.Machine.execClPoll s
  | .clSend t p => Sys2Proof.Machine.execClSend t p s
  | .clTxByte => Sys2Proof.Machine.execClTxByte s
  | .clStats => Sys2Proof.Machine.execClStats s
  | .adInit => Sys2Proof.Machine.execAdInit s
  | .adSetPw ch us => Sys2Proof.Machine.execAdSetPw ch us s
  | .adSetAxis ch a => Sys2Proof.Machine.execAdSetAxis ch a s
  | .adNeutral => Sys2Proof.Machine.execAdNeutral s
  | .sysReset => Sys2Proof.Machine.execSysReset s

end Sys2Proof.Machine
end

