-- ==== Sys2Proof/Machine/Fetch.lean ====
section
/-!
DEFINITION. Taking the next instruction from the environment's input (DESIGN CHOICE, assumption 1). The block has no program counter and
fetches nothing (spec/10_state.md rule R31); an operation script is the sequence of operations that happened
(spec/30_encoding.md rule R100, spec/45_common_semantics.md rule R326), and `input` holds what is still to happen. Each script chunk
is one operation script: it is decoded whole before its first operation runs (rules R103, R282; assumption 12).
-/

namespace Sys2Proof.Machine

/-- The rest of a chunk of script goes back to the front of the input; an empty rest leaves nothing. -/
def pushScript (rest : List Byte) (input : List Chunk) : List Chunk :=
  if rest = [] then input else .script rest :: input

/-- The rest of a chunk of frames goes back to the front of the input. -/
def pushWire (rest : List Byte) (input : List Chunk) : List Chunk :=
  if rest = [] then input else .wire rest :: input

/-- The next instruction of the input and the input after it. A script that is ill-formed anywhere is refused before its next
operation. A chunk with no byte left spells nothing and is passed over. -/
def nextInstr (P : Params) (input : List Chunk) : Except Refusal (Instr × List Chunk) :=
  match input with
  | [] => .error .endOfInput
  | .script [] :: later => nextInstr P later
  | .wire [] :: later => nextInstr P later
  | .script (b :: bs) :: later =>
    match decodeScript (b :: bs), decodeOp (b :: bs) with
    | .error e, _ => .error (.illFormedScript e)
    | .ok _, .error e => .error (.illFormedScript e)
    | .ok _, .ok (i, rest) => .ok (i, pushScript rest later)
  | .wire (b :: bs) :: later =>
    match decodeFrame P (b :: bs) with
    | .ok (i, rest) => .ok (i, pushWire rest later)
    | .error e => .error (.illFormedFrame e)

/-- The next instruction, and the state with it taken from the input. A parameter record that breaks a constraint is refused
before anything runs (rules R8, R282). -/
def fetch (s : State) : Except Refusal (Instr × State) :=
  if s.params.Valid then
    match nextInstr s.params s.input with
    | .ok (i, later) => .ok (i, { s with input := later })
    | .error r => .error r
  else .error .badParameters

/-- The input with one instruction put before it, in the instruction's own encoding. -/
def feed (P : Params) (i : Instr) (input : List Chunk) : List Chunk :=
  match i.stream with
  | .script => .script (encode P i) :: input
  | .wire => .wire (encode P i) :: input

end Sys2Proof.Machine
end

