-- ==== Sys2Proof/Machine/Step.lean ====
section
/-!
DEFINITION. One step of the block: the next operation of the input, run as one atomic step (spec/00_scope.md rule R6).
-/

namespace Sys2Proof.Machine

/-- One atomic step. It answers a refusal only where `fetch` finds no instruction (rule R282). -/
def step (s : State) : Host.Outcome State Fault Refusal :=
  match fetch s with
  | .ok (i, t) => exec i t
  | .error r => .refused r

/-- `s` with the instruction of a table word put where `step` takes its next instruction: in front of the input, in its own
encoding. The instruction's bytes are exactly those the decoder reads from the word with zeros above `nbits`. Nothing else
changes; a word that spells nothing is put there as it is. -/
def State.withFetchWord (s : State) (nbits w : Nat) : State :=
  match decodeTableWordAt s.params nbits w with
  | some i => { s with input := feed s.params i s.input }
  | none => { s with input := .script (wordBytes nbits w) :: s.input }

end Sys2Proof.Machine
end

