-- ==== Sys2Proof/Machine/Pseudo.lean ====
section
/-!
DEFINITION. The pseudo-operations of spec/30_encoding.md rule R106, each as its expansion, and the run of a list of operations.
-/

namespace Sys2Proof.Machine

/-- An advance of `d` microseconds: one T.ADV, or several when `d` does not fit its 32 bits (rule R102). -/
def advOps (d : Nat) : List Instr :=
  if d < 2 ^ 32 then [.tAdv (BitVec.ofNat 32 d)]
  else
    List.replicate (d / (2 ^ 32 - 1)) (.tAdv (BitVec.ofNat 32 (2 ^ 32 - 1))) ++
      [.tAdv (BitVec.ofNat 32 (d % (2 ^ 32 - 1)))]

/-- `T.ADVMS m`. -/
def advMsOps (m : Nat) : List Instr := advOps (1000 * m)

/-- `PC.PULSE ch, w`. -/
def pulseOps (c : Chan) (w : Nat) : List Instr := [.pcRise c] ++ advOps w ++ [.pcFall c]

/-- `CL.RXBYTES [b0, b1, ...]`. -/
def rxBytesOps (bs : List Byte) : List Instr := bs.map .clRxByte

/-- `CL.SENDCMD thr, str`. -/
def sendCommandOps (P : Params) (throttle steering : F32) : List Instr :=
  [.clSend P.mtCommand (packCommand throttle steering)]

/-- `CL.SENDTELEM seq, status, i0, ..., i5, thr, str`. -/
def sendTelemOps (P : Params) (m : Telem) : List Instr := [.clSend P.mtTelem (packTelem P m)]

/-- `CL.PING`. -/
def pingOps (P : Params) : List Instr := [.clSend P.mtPing []]

/-- `CL.PONG`. -/
def pongOps (P : Params) : List Instr := [.clSend P.mtPong []]

/-- `CL.DRAIN`: CL.TXBYTE until `tx_fifo` is empty. -/
def drainOps (s : State) : List Instr := List.replicate s.txFifo.length .clTxByte

/-- A list of operations, one atomic step each, in order. -/
def execAll (is : List Instr) (s : State) : Host.Outcome State Fault Refusal :=
  match is with
  | [] => .next s
  | i :: rest =>
    match exec i s with
    | .next t => execAll rest t
    | .fault f => .fault f
    | .refused r => .refused r

end Sys2Proof.Machine
end

