-- ==== Sys2Proof/Machine/Control.lean ====
section
/-!
DEFINITION. The host's control software as spec/43_host_software.md describes it: NetworkCommandSource, Arbiter, FailsafeMonitor,
SlewLimiter, TelemetryEmitter, ControlLoop. It is outside the block (spec/00_scope.md rule R5 (a)); no step of the block reads
it, and none of its variables is in State. It is here because the block's operations are issued by it: each function takes
results of HOST operations and answers new host variables and the operations to issue.
-/

namespace Sys2Proof.Machine

/-- The host's parameters (rule R221): all OPEN, arguments of the functions below. Times in milliseconds, rates in units per
second. No rule bounds a rate; what `slew` does with a negative one is assumption 18. -/
structure HostParams where
  networkCmdTimeoutMs : Nat
  failsafeTimeoutMs : Nat
  pwmUpdateIntervalMs : Nat
  rcPollIntervalMs : Nat
  imuReadIntervalMs : Nat
  failsafeCheckIntervalMs : Nat
  telemSendIntervalMs : Nat
  loopYieldMs : Nat
  throttleSlewRate : ℚ
  steeringSlewRate : ℚ
  deriving DecidableEq, Repr

/-- The network slot (rule R224): the newest COMMAND and its receipt time, a value of `now` (assumption 23). -/
structure NetSlot where
  throttle : F32
  steering : F32
  receivedAt : Nat
  deriving DecidableEq, Repr

/-- Six raw readings of the sensor (rule R236): exact values, before the product with 1000. -/
structure RawImu where
  raw0 : ℚ
  raw1 : ℚ
  raw2 : ℚ
  raw3 : ℚ
  raw4 : ℚ
  raw5 : ℚ
  deriving DecidableEq, Repr

/-- An entry of the host's log (rule R236: a sensor fault is logged once). -/
inductive LogEntry where
  | sensorFault
  deriving DecidableEq, Repr

/-- The six scaled readings of a sensor snapshot (rule R236). -/
structure Imu where
  imu0 : Word16
  imu1 : Word16
  imu2 : Word16
  imu3 : Word16
  imu4 : Word16
  imu5 : Word16
  deriving DecidableEq, Repr

/-- The host's variables (rule R222). `applied` is held exact: the number format of the slew computation is the host's own
(rule R230, assumption 9). Times are values of `now` (assumption 23). -/
structure HostVars where
  commandedThrottle : F32
  commandedSteering : F32
  appliedThrottle : ℚ
  appliedSteering : ℚ
  failsafeActive : Bool
  lastActiveAt : Nat
  slot : Option NetSlot
  seq : Word16
  imu : Imu
  sensorDegraded : Bool
  log : List LogEntry
  deriving DecidableEq, Repr

/-- The suggested initial variables (rule R222): all neutral, not in failsafe, empty slot, sequence 0. DESIGN CHOICE (assumption
16), where the rule suggests nothing: a snapshot of zeros before any good reading, not degraded, an empty log. -/
def HostVars.initial (start : Nat) : HostVars where
  commandedThrottle := 0
  commandedSteering := 0
  appliedThrottle := 0
  appliedSteering := 0
  failsafeActive := false
  lastActiveAt := start
  slot := none
  seq := 0
  imu := ⟨0, 0, 0, 0, 0, 0⟩
  sensorDegraded := false
  log := []

/-- The host's millisecond clock: `now div 1000` (rules R21, R237). -/
def hostClockMs (t : Nat) : Nat := t / 1000

/-- The milliseconds the host's clock has counted from the time `since` to `now`. The microseconds between them are `tsub` of rule
R10, on which all time comparisons stand, so a wrap of `now` does not disturb it (DEDUCED, assumption 23). -/
def elapsedMs (P : Params) (now since : Nat) : Nat := hostClockMs (since + tsub P now since) - hostClockMs since

/-- A NormalizedAxis is clamped to [-1, 1] on write (rules R14, R224). -/
def clampAxis (a : F32) : F32 :=
  if f32Den a < f32Num a then (if f32Neg a then 0xBF800000 else 0x3F800000) else a

/-- Receipt of a COMMAND (rule R224): the slot is overwritten; a COMMAND that carries a NaN is ignored, as the rule suggests. -/
def receiveCommand (p : List Byte) (now : Nat) (v : HostVars) : HostVars :=
  match unpackCommand p with
  | some (t, s) =>
    if f32IsNaN t || f32IsNaN s then v else { v with slot := some ⟨clampAxis t, clampAxis s, now⟩ }
  | none => v

/-- The slot holds a sample younger than NETWORK_CMD_TIMEOUT_MS; the comparison is strict (rule R225). -/
def slotFresh (P : Params) (H : HostParams) (v : HostVars) (now : Nat) : Bool :=
  match v.slot with
  | some n => decide (elapsedMs P now n.receivedAt < H.networkCmdTimeoutMs)
  | none => false

/-- The network source is active (rule R225): its sample is fresh and RC is not active. -/
def networkActive (P : Params) (H : HostParams) (v : HostVars) (rcActive : Bool) (now : Nat) : Bool :=
  !rcActive && slotFresh P H v now

/-- The Arbiter (rule R226): RC, else a fresh network sample, else hold. An RC sample empties the slot. -/
def arbitrate (P : Params) (H : HostParams) (rc : Option Sample) (now : Nat) (v : HostVars) : HostVars :=
  match rc with
  | some x => { v with commandedThrottle := x.throttle, commandedSteering := x.steering, slot := none }
  | none =>
    match v.slot with
    | some n =>
      if slotFresh P H v now then { v with commandedThrottle := n.throttle, commandedSteering := n.steering } else v
    | none => v

/-- The FailsafeMonitor (rule R228): the elapsed time is compared with "at least" (spec/90_conflicts.md C5). -/
def failsafeCheck (P : Params) (H : HostParams) (anyActive : Bool) (now : Nat) (v : HostVars) : HostVars :=
  if anyActive then { v with failsafeActive := false, lastActiveAt := now }
  else if H.failsafeTimeoutMs ≤ elapsedMs P now v.lastActiveAt then { v with failsafeActive := true }
  else v

/-- The SlewLimiter (rules R230, R231). At the target it stays whatever the rate, as rule R231 says; DEDUCED (assumption 18) for a
negative rate, where rule R230 names no case for it. -/
def slew (rate : ℚ) (ms : Nat) (target current : ℚ) : ℚ :=
  let move := rate * ms / 1000
  if |target - current| ≤ move then target
  else if current < target then current + move
  else if target < current then current - move
  else target

/-- The binary32 of an axis: clamped to [-1, 1], as a NormalizedAxis is on every write (rule R14), then RN32 (rule R11). DEDUCED
(assumption 21) for the applied axes, which leave [-1, 1] only with a negative slew rate. -/
def axisOfRat (q : ℚ) : F32 :=
  let c := max (-1) (min 1 q)
  rn32 (c < 0) c.num.natAbs c.den

/-- The target of an actuation update (rules R228, R233): exactly neutral in failsafe, before the slew limiter. -/
def targetOf (v : HostVars) : ℚ × ℚ :=
  if v.failsafeActive then (0, 0) else (f32ToRat v.commandedThrottle, f32ToRat v.commandedSteering)

/-- An actuation update (rule R233): the applied axes move toward the target and are written to both channels. -/
def actuate (H : HostParams) (ms : Nat) (v : HostVars) : HostVars × List Instr :=
  let a0 := slew H.throttleSlewRate ms (targetOf v).1 v.appliedThrottle
  let a1 := slew H.steeringSlewRate ms (targetOf v).2 v.appliedSteering
  ({ v with appliedThrottle := a0, appliedSteering := a1 },
    [.adSetAxis 0 (axisOfRat a0), .adSetAxis 1 (axisOfRat a1)])

/-- A sensor reading times 1000 in 16 bits (rule R236): rounded to nearest and saturated, as the rule suggests
(DESIGN CHOICE: ties away from zero, assumption 14). -/
def scaleReading (q : ℚ) : Word16 :=
  let n : Int := roundHaz (q.num.natAbs * 1000) q.den
  let v := if q < 0 then -n else n
  BitVec.ofInt 16 (max (-32768) (min 32767 v))

/-- The snapshot of six raw readings (rule R236): each times 1000 in 16 bits. -/
def scaleImu (r : RawImu) : Imu :=
  ⟨scaleReading r.raw0, scaleReading r.raw1, scaleReading r.raw2, scaleReading r.raw3, scaleReading r.raw4,
    scaleReading r.raw5⟩

/-- A fault enters the log once (rule R236). DESIGN CHOICE (assumption 14): once in a run, however many reads fail. -/
def logOnce (e : LogEntry) (log : List LogEntry) : List LogEntry := if e ∈ log then log else log ++ [e]

/-- A sensor read (rule R236): a good reading is scaled into the snapshot; on a fault the last good values stay, the degraded bit
is set and the fault is logged once. -/
def sensorRead (reading : Option RawImu) (v : HostVars) : HostVars :=
  match reading with
  | some r => { v with imu := scaleImu r, sensorDegraded := false }
  | none => { v with sensorDegraded := true, log := logOnce .sensorFault v.log }

/-- The TELEM of a telemetry tick (rules R235, R92, R93). -/
def telemOf (rcActive netActive : Bool) (v : HostVars) : Telem where
  seq := v.seq
  status := mkStatus rcActive netActive v.failsafeActive v.sensorDegraded
  imu0 := v.imu.imu0
  imu1 := v.imu.imu1
  imu2 := v.imu.imu2
  imu3 := v.imu.imu3
  imu4 := v.imu.imu4
  imu5 := v.imu.imu5
  throttle := axisOfRat v.appliedThrottle
  steering := axisOfRat v.appliedSteering

/-- The operation of a telemetry tick (rule R235). -/
def telemetryOps (P : Params) (rcActive netActive : Bool) (v : HostVars) : List Instr :=
  sendTelemOps P (telemOf rcActive netActive v)

/-- After the CL.SEND of a telemetry tick: the sequence counts the TELEM frames sent; a refused one is lost (rule R235). -/
def telemetrySent (c : Status) (v : HostVars) : HostVars :=
  match c with
  | .ok => { v with seq := v.seq + 1 }
  | _ => v

/-- What the host does with a frame that CL.POLL returned (rules R224, R238, R240): a COMMAND goes to the slot, a PING is
answered by an empty PONG. DESIGN CHOICE (assumption 20): a PONG and a TELEM change nothing, no evidence of a live gateway being
kept, and this host never sends a PING of its own. -/
def onFrame (P : Params) (f : Frame) (now : Nat) (v : HostVars) : HostVars × List Instr :=
  if f.type = P.mtCommand then (receiveCommand f.payload now v, [])
  else if f.type = P.mtPing then (v, pongOps P)
  else (v, [])

/-- The interval-gated steps of the control loop (rule R237). -/
inductive ControlStep where
  | actuation
  | rcPoll
  | sensor
  | failsafe
  | telemetry
  deriving DecidableEq, Repr

/-- The interval of a step (rules R221, R237). -/
def ControlStep.intervalMs (H : HostParams) (k : ControlStep) : Nat :=
  match k with
  | .actuation => H.pwmUpdateIntervalMs
  | .rcPoll => H.rcPollIntervalMs
  | .sensor => H.imuReadIntervalMs
  | .failsafe => H.failsafeCheckIntervalMs
  | .telemetry => H.telemSendIntervalMs

/-- A step runs in a pass when its interval has elapsed since it last ran, at most once a pass (rule R237). -/
def stepDue (P : Params) (H : HostParams) (k : ControlStep) (last now : Nat) : Bool :=
  k.intervalMs H ≤ elapsedMs P now last

/-- What the host issues before its loop (rules R238, R296): AD.INIT, once. -/
def bootOps : List Instr := [.adInit]

/-- One operation of the host: the state after it, its result in `result`. -/
def issue (s : State) (i : Instr) : State :=
  match exec i s with
  | .next t => t
  | .fault _ => s
  | .refused _ => s

/-- Several operations of the host, in order. -/
def issueAll (s : State) (is : List Instr) : State := is.foldl issue s

/-- The command intake of a pass (rule R238): CL.POLL until it returns None, each frame handled as it comes. A call removes at
least the bytes of the frame it returns, so |rx_buf| + 1 calls are enough. -/
def intake (fuel : Nat) (s : State) (v : HostVars) : State × HostVars :=
  match fuel with
  | 0 => (s, v)
  | k + 1 =>
    let t := issue s .clPoll
    match t.result with
    | .frame (some f) =>
      let r := onFrame t.params f t.now v
      intake k (issueAll t r.2) r.1
    | _ => (t, v)

/-- When each interval-gated step last ran, a value of `now`. -/
structure LastRun where
  actuation : Nat
  rcPoll : Nat
  sensor : Nat
  failsafe : Nat
  telemetry : Nat
  deriving DecidableEq, Repr

/-- The time a step last ran. -/
def LastRun.get (l : LastRun) (k : ControlStep) : Nat :=
  match k with
  | .actuation => l.actuation
  | .rcPoll => l.rcPoll
  | .sensor => l.sensor
  | .failsafe => l.failsafe
  | .telemetry => l.telemetry

/-- A step ran at `t`. -/
def LastRun.set (l : LastRun) (k : ControlStep) (t : Nat) : LastRun :=
  match k with
  | .actuation => { l with actuation := t }
  | .rcPoll => { l with rcPoll := t }
  | .sensor => { l with sensor := t }
  | .failsafe => { l with failsafe := t }
  | .telemetry => { l with telemetry := t }

/-- The block, the host's variables and its schedule. -/
structure Vehicle where
  block : State
  vars : HostVars
  last : LastRun
  deriving DecidableEq, Repr

/-- Whether RC is active, as PC.ACTIVE answers (rule R129). -/
def rcActiveOf (s : State) : Bool :=
  match (issue s .pcActive).result with
  | .active b => b
  | _ => false

/-- The RC sample, as PC.POLL answers (rule R128). -/
def rcSampleOf (s : State) : Option Sample :=
  match (issue s .pcPoll).result with
  | .sample x => x
  | _ => none

/-- The status an operation returned. -/
def statusOf (s : State) : Status :=
  match s.result with
  | .status c => c
  | _ => .ok

/-- One interval-gated step (rules R226, R228, R233, R235, R236). `reading` is what the sensor gives, `none` on a fault.
DESIGN CHOICE (assumption 17): the cycles of rule R228 are the failsafe checks, which alone see whether a source is active. -/
def runStep (H : HostParams) (reading : Option RawImu) (x : Vehicle) (k : ControlStep) : Vehicle :=
  let P := x.block.params
  let now := x.block.now
  let rc := rcActiveOf x.block
  let net := networkActive P H x.vars rc now
  let last := x.last.set k now
  match k with
  | .rcPoll => ⟨issue x.block .pcPoll, arbitrate P H (rcSampleOf x.block) now x.vars, last⟩
  | .sensor => ⟨x.block, sensorRead reading x.vars, last⟩
  | .failsafe => ⟨issue x.block .pcActive, failsafeCheck P H (rc || net) now x.vars, last⟩
  | .actuation =>
    let r := actuate H (elapsedMs P now x.last.actuation) x.vars
    ⟨issueAll x.block r.2, r.1, last⟩
  | .telemetry =>
    let t := issueAll x.block (telemetryOps P rc net x.vars)
    ⟨t, telemetrySent (statusOf t) x.vars, last⟩

/-- The order of the steps of a pass. DESIGN CHOICE (assumption 10): one that respects the dependencies of rule R237, which gives
no other. FailsafeMonitor before the Arbiter (in `rcPoll`), the Arbiter before ActuationDriver, sensor, failsafe and actuation before
telemetry. -/
def passOrder : List ControlStep := [.sensor, .failsafe, .rcPoll, .actuation, .telemetry]

/-- One pass of the control loop (rules R237, R238): the command intake, then at most one run of each step that is due.
DESIGN CHOICE (assumption 19): no step of another agent falls inside a pass; they fall into the pause between two passes. -/
def controlPass (H : HostParams) (reading : Option RawImu) (x : Vehicle) : Vehicle :=
  let r := intake (x.block.rxBuf.length + 1) x.block x.vars
  passOrder.foldl
    (fun y k => if stepDue y.block.params H k (y.last.get k) y.block.now then runStep H reading y k else y)
    { x with block := r.1, vars := r.2 }

/-- The start of the host (rules R238, R296): AD.INIT before any other AD operation, the initial variables, and every step last run
now. A failed sensor initialisation is a sensor fault of rule R236, seen here, before the first pass (DESIGN CHOICE,
assumption 16). -/
def startHost (imuInitOk : Bool) (s : State) : Vehicle :=
  let now := s.now
  let v := HostVars.initial now
  ⟨issueAll s bootOps, if imuInitOk then v else sensorRead none v, ⟨now, now, now, now, now⟩⟩

/-- What the world gives one round of the loop: what the sensor reads in the pass, what the agents other than HOST do while the
host pauses after it, and whether the sensor initialises where the host starts again in that pause. -/
structure Round where
  reading : Option RawImu
  meanwhile : List Instr
  imuInitOk : Bool
  deriving DecidableEq, Repr

/-- One step of the world in a pause (assumption 19). A HOST operation is the loop's own (rule R220) and does not count. A frame is
the CL.RXBYTE of each of its bytes (rule R106 CL.RXBYTES), all in this pause. DESIGN CHOICE (assumption 22): after SYS.RESET the host
starts again, in the order of rule R296. -/
def worldStep (imuInitOk : Bool) (x : Vehicle) (i : Instr) : Vehicle :=
  if i.agent = .host then x
  else if i = .sysReset then startHost imuInitOk (issue x.block i)
  else if i.stream = .wire then { x with block := issueAll x.block (rxBytesOps (encode x.block.params i)) }
  else { x with block := issue x.block i }

/-- The pause of a pass (rule R237): the world's steps, then the loop's yield of `loopYieldMs` (assumption 19). -/
def loopYield (H : HostParams) (r : Round) (x : Vehicle) : Vehicle :=
  let y := r.meanwhile.foldl (worldStep r.imuInitOk) x
  { y with block := issueAll y.block (advMsOps H.loopYieldMs) }

/-- The loop of the host (rule R237): a pass and a pause for each round. -/
def controlLoop (H : HostParams) (rounds : List Round) (x : Vehicle) : Vehicle :=
  rounds.foldl (fun y r => loopYield H r (controlPass H r.reading y)) x

/-- The host's program from its start (rules R237, R238): boot, then the loop. -/
def runHost (H : HostParams) (imuInitOk : Bool) (rounds : List Round) (s : State) : Vehicle :=
  controlLoop H rounds (startHost imuInitOk s)

end Sys2Proof.Machine
end

