-- ==== Sys2Proof/Safety.lean ====
section
/-!
DEFINITION. What the spec says holds of every state of a run: the invariant of the registers, what has gone out on the pins and on
the line, the shape of the receive buffer after a call of the parser returns None, and correct rounding.
-/

namespace Sys2Proof.Machine

/-- A property of both channels. -/
abbrev OnBoth (p : Chan → Prop) : Prop := p .ch0 ∧ p .ch1

/-- Time values are below 2^TIME_BITS (rule R320 (a)). -/
abbrev TimesInRange (s : State) : Prop :=
  s.now < s.params.timeMod ∧ s.periodStart < s.params.timeMod ∧
    OnBoth fun c => s.riseTs.get c < s.params.timeMod ∧ (s.record.get c).acceptTs < s.params.timeMod

/-- Counters are below 2^CNT_BITS (rule R36). -/
abbrev CountersInRange (s : State) : Prop :=
  s.cnt.ok < s.params.cntMod ∧ s.cnt.oversize < s.params.cntMod ∧ s.cnt.crc < s.params.cntMod ∧
    s.cnt.format < s.params.cntMod ∧ s.cnt.overrun < s.params.cntMod

/-- The buffers hold at most their capacity (rules R40, R41). -/
abbrev BuffersInRange (s : State) : Prop :=
  s.rxBuf.length ≤ s.params.rxBufCap ∧ s.txFifo.length ≤ s.params.txFifoCap

/-- An accepted width is inside [RC_PULSE_MIN_US, RC_PULSE_MAX_US] once `valid` (rule R24). -/
abbrev RecordsInWindow (s : State) : Prop :=
  OnBoth fun c => (s.record.get c).valid = true →
    s.params.rcPulseMinUs ≤ (s.record.get c).widthUs.toNat ∧ (s.record.get c).widthUs.toNat ≤ s.params.rcPulseMaxUs

/-- A pulse width inside [MIN_US, MAX_US]. -/
abbrev PulseInRange (P : Params) (w : Word16) : Prop := P.minUs ≤ w.toNat ∧ w.toNat ≤ P.maxUs

/-- While enabled, every pulse register is inside [MIN_US, MAX_US] (rule R47). -/
abbrev PulsesInRange (s : State) : Prop :=
  s.pwmEnabled = true →
    OnBoth fun c => PulseInRange s.params (s.pwShadow.get c) ∧ PulseInRange s.params (s.pwActive.get c)

/-- While enabled, the carrier phase is below PWM_PERIOD_US (rules R32, R205). -/
abbrev PhaseInRange (s : State) : Prop := s.pwmEnabled = true → phase s < s.params.pwmPeriodUs

/-- The invariant of the block. -/
abbrev Inv (s : State) : Prop :=
  s.params.Valid ∧ TimesInRange s ∧ CountersInRange s ∧ BuffersInRange s ∧ RecordsInWindow s ∧ PulsesInRange s ∧
    PhaseInRange s

/-- Every pulse ever put on a pin is inside [MIN_US, MAX_US]: the safety of the outputs (rules R47, R199, R282). -/
abbrev TraceSafe (s : State) : Prop :=
  ∀ e ∈ s.pwmTrace, PulseInRange s.params e.width0 ∧ PulseInRange s.params e.width1

/-- CL.SEND would accept this frame if `tx_fifo` had room (rule R165). -/
abbrev Sendable (P : Params) (t : Byte) (p : List Byte) : Prop :=
  knownType P t = true ∧ p.length ≤ P.maxPayloadLen ∧ typeLenOk P t p.length = true

/-- The bytes of whole encoded frames, one after another. -/
def framesBytes (P : Params) (fs : List Frame) : List Byte :=
  (fs.map fun f => encodeFrame P f.type f.payload).flatten

/-- `tx_fifo` is what is left of one sendable frame, then whole sendable frames: frames never interleave and no partial frame
is queued (rules R41, R69 (c), R165, R168). -/
def Framed (P : Params) (fifo : List Byte) : Prop :=
  ∃ (first : Frame) (sent : Nat) (fs : List Frame),
    Sendable P first.type first.payload ∧ (∀ f ∈ fs, Sendable P f.type f.payload) ∧
      fifo = (encodeFrame P first.type first.payload).drop sent ++ framesBytes P fs

/-- The state after the bytes of a sequence have arrived on the serial line one by one (rule R152): what fits is appended, the rest
is lost and counted. -/
def afterArrival (s : State) (bytes : List Byte) : State :=
  let room := s.params.rxBufCap - s.rxBuf.length
  { s with
    rxBuf := s.rxBuf ++ bytes.take room
    cnt := { s.cnt with overrun := (s.cnt.overrun + (bytes.length - room)) % s.params.cntMod }
    result := .noResult }

/-- `B` is empty or a proper prefix of a possible frame, as rule R161 words it: it begins with as much of the preamble as it
holds, and with six bytes or more its declared length is within the bound and it holds fewer than 8 + L bytes. -/
abbrev WaitsForMore (P : Params) (B : List Byte) : Prop :=
  (1 ≤ B.length → byteAt B 0 = P.preamble0) ∧ (2 ≤ B.length → byteAt B 1 = P.preamble1) ∧
    (6 ≤ B.length → (word16At B 4).toNat ≤ P.maxPayloadLen ∧ B.length < 8 + (word16At B 4).toNat)

/-- `b` is a finite binary32 nearest to the exact rational `q`, and one with an even significand where two are equally near
(rule R11, RN32). -/
abbrev NearestEven (b : F32) (q : ℚ) : Prop :=
  f32Exp b < 255 ∧ ∀ c : F32, f32Exp c < 255 →
    |f32ToRat b - q| ≤ |f32ToRat c - q| ∧
      (|f32ToRat b - q| = |f32ToRat c - q| → f32ToRat c ≠ f32ToRat b → b.getLsbD 0 = false)

end Sys2Proof.Machine
end

