-- ==== Sys2Proof/Certificates/Slice0/Obligations.lean ====
section
/-!
DEFINITION. The statements for the provers. Each docstring names the rule of spec/ it formalises.
A record update `{ s with ... }` as the next state says the whole frame: every field that is not named is unchanged.
-/

open Sys2Proof Sys2Proof.Machine

/-! ### Encodings and the step -/

/-- Rules R80, R100 to R102, R108: decoding an encoded instruction gives it back, with every operand at every value and with any
bytes after it, under every valid parameter record. -/
def Obligations.DecodeGivesBackEncodedInstruction : Prop :=
  ∀ (P : Params) (i : Instr) (rest : List Byte),
    P.Valid → WellFormed P i = true → decode P i.stream (encode P i ++ rest) = .ok (i, rest)

/-- Rules R101, R80: words written out from the spec (programs P1, P3, P4 and vector V31 of 95_test_vectors.md) decode to the
instructions they stand for. -/
def Obligations.SpecWordsDecode : Prop :=
  decodeOp [0x00, 0x95, 0x06, 0x00, 0x00] = .ok (.tAdv 1685, []) ∧
    decodeOp [0x10, 0x01] = .ok (.pcRise .ch1, []) ∧
    decodeOp [0x12, 0x05] = .ok (.pcRead 5, []) ∧
    decodeOp [0x22, 0x03, 0x02, 0x00, 0xDE, 0xAD] = .ok (.clSend 3 [0xDE, 0xAD], []) ∧
    decodeOp [0x31, 0x01, 0xC4, 0x09] = .ok (.adSetPw 1 2500, []) ∧
    decodeOp [0x32, 0x00, 0xA4, 0x70, 0xBD, 0x3E] = .ok (.adSetAxis 0 0x3EBD70A4, []) ∧
    decodeOp [0xF0] = .ok (.sysReset, []) ∧
    decodeFrame Params.default [0xAA, 0x55, 0x01, 0x03, 0x02, 0x00, 0xDE, 0xAD, 0x65, 0x1A] =
      .ok (.framePing [0xDE, 0xAD] 0x1A65, [])

/-- Rule R100: a script of any length decodes to the operations it was written from. -/
def Obligations.DecodeScriptGivesBackOperations : Prop :=
  ∀ (P : Params) (is : List Instr), (∀ i ∈ is, i.stream = .script ∧ WellFormed P i = true) →
    decodeScript (encodeScript P is) = .ok is

/-- Rule R103: an unknown opcode, an edge operation on a channel without an edge agent, and a script that ends inside an
operation spell no operation; and a script that goes wrong anywhere is ill-formed as a whole. -/
def Obligations.IllFormedScriptsSpellNoOperation : Prop :=
  (∀ (b : Byte) (rest : List Byte),
      b ∉ ([0x00, 0x10, 0x11, 0x12, 0x13, 0x14, 0x20, 0x21, 0x22, 0x23, 0x24, 0x30, 0x31, 0x32, 0x33, 0xF0] : List Byte) →
        decodeOp (b :: rest) = .error (.unknownOpcode b)) ∧
    (∀ (op ch : Byte) (rest : List Byte), (op = 0x10 ∨ op = 0x11) → 2 ≤ ch.toNat →
        decodeOp (op :: ch :: rest) = .error (.noSuchEdge ch)) ∧
    (∀ (P : Params) (i : Instr) (k : Nat), i.stream = .script → WellFormed P i = true → k < (encode P i).length →
      decodeOp ((encode P i).take k) = .error .truncated) ∧
    ∀ (P : Params) (is : List Instr) (tail : List Byte) (e : DecodeError),
      (∀ i ∈ is, i.stream = .script ∧ WellFormed P i = true) → tail ≠ [] → decodeOp tail = .error e →
        decodeScript (encodeScript P is ++ tail) = .error e

/-- Rules R6, R100: where the front of the input is a well-formed script, or begins with a frame, the step is the meaning of its first
instruction on the state with that instruction's bytes taken from the input. That the input is a field of the state is the
model's choice (assumptions 1, 2). -/
def Obligations.StepRunsDecodedInstruction : Prop :=
  ∀ (s : State) (b : Byte) (bs rest : List Byte) (later : List Chunk) (i : Instr), s.params.Valid →
    (∀ is, s.input = .script (b :: bs) :: later → decodeOp (b :: bs) = .ok (i, rest) → decodeScript rest = .ok is →
        step s = exec i { s with input := if rest = [] then later else .script rest :: later }) ∧
      (s.input = .wire (b :: bs) :: later → decodeFrame s.params (b :: bs) = .ok (i, rest) →
        step s = exec i { s with input := if rest = [] then later else .wire rest :: later })

/-- Rules R6, R100, R80: the step on an input that begins with a well-formed instruction's encoding is that instruction's meaning,
with exactly its bytes taken from the input (a field of the model's own, assumptions 1, 2). -/
def Obligations.StepRunsEncodedInstruction : Prop :=
  ∀ (s : State) (i : Instr), s.params.Valid → WellFormed s.params i = true →
    step { s with
      input := (match i.stream with
        | .script => Chunk.script (encode s.params i)
        | .wire => Chunk.wire (encode s.params i)) :: s.input } = exec i s

/-- Rules R8, R103, R282: a parameter record that breaks a constraint is refused before anything runs, and a script that is
ill-formed anywhere before any of its operations runs. That a script is a chunk of the input, and the refusal of line bytes that are
no frame, are the model's (assumptions 1, 2, 4, 12). -/
def Obligations.StepRefusesBadRecordAndScript : Prop :=
  (∀ s : State, ¬ s.params.Valid → step s = .refused .badParameters) ∧
    ∀ (s : State) (b : Byte) (bs : List Byte) (later : List Chunk) (e : DecodeError), s.params.Valid →
      (s.input = .script (b :: bs) :: later → decodeScript (b :: bs) = .error e → step s = .refused (.illFormedScript e)) ∧
      (s.input = .wire (b :: bs) :: later → decodeFrame s.params (b :: bs) = .error e →
        step s = .refused (.illFormedFrame e))

/-- Rule R260: every operation is total; it answers a next state in every state and for every operand. The frames are in it as
CL.RXBYTE steps of SERIAL-RX (assumption 2). -/
def Obligations.EveryOperationIsTotal : Prop :=
  ∀ (i : Instr) (s : State), ∃ t, exec i s = .next t

/-! ### Time -/

/-- Rule R205, the pseudocode: with no boundary reached only `now` moves; at a boundary `now`, `period_start`, `pw_active` and
`pwm_trace` are written and the rest of the advance goes on from there. -/
def Obligations.AdvanceFollowsItsRule : Prop :=
  ∀ (s : State) (d : Word32),
    ((s.pwmEnabled = false ∨ d.toNat < s.params.pwmPeriodUs - tsub s.params s.now s.periodStart) →
        exec (.tAdv d) s = .next { s with now := (s.now + d.toNat) % s.params.timeMod, result := .noResult }) ∧
      ∀ (k t : Nat), s.pwmEnabled = true → tsub s.params s.now s.periodStart < s.params.pwmPeriodUs →
        k = s.params.pwmPeriodUs - tsub s.params s.now s.periodStart → k ≤ d.toNat →
        t = (s.now + k) % s.params.timeMod →
          exec (.tAdv d) s =
            exec (.tAdv (BitVec.ofNat 32 (d.toNat - k)))
              { s with
                now := t
                periodStart := t
                pwActive := s.pwShadow
                pwmTrace := s.pwmTrace ++ [⟨t, s.pwShadow.ch0, s.pwShadow.ch1⟩] }

/-- Rule R205 in closed form: an advance starts exactly (phase + d) div PWM_PERIOD_US periods, PWM_PERIOD_US apart, all with the
shadow widths, and moves `now` by d. -/
def Obligations.AdvanceStartsEveryPeriodPassed : Prop :=
  ∀ (s : State) (d : Word32) (n : Nat), s.pwmEnabled = true → 0 < s.params.pwmPeriodUs →
    s.periodStart < s.params.timeMod → tsub s.params s.now s.periodStart < s.params.pwmPeriodUs →
    n = (tsub s.params s.now s.periodStart + d.toNat) / s.params.pwmPeriodUs →
      exec (.tAdv d) s = .next
        { s with
          now := (s.now + d.toNat) % s.params.timeMod
          periodStart := (s.periodStart + n * s.params.pwmPeriodUs) % s.params.timeMod
          pwActive := if n = 0 then s.pwActive else s.pwShadow
          pwmTrace := s.pwmTrace ++ (List.range n).map fun k =>
            ⟨(s.periodStart + (k + 1) * s.params.pwmPeriodUs) % s.params.timeMod, s.pwShadow.ch0, s.pwShadow.ch1⟩
          result := .noResult }

/-- Rule R205, corner case: splitting an advance is the same as the whole advance. The premise that a period is not longer than
the counter's range is the model's reading (assumption 7); every record with the default period meets it. -/
def Obligations.SplitAdvanceEqualsWhole : Prop :=
  ∀ (s t : State) (a b : Word32), 0 < s.params.pwmPeriodUs → s.params.pwmPeriodUs ≤ s.params.timeMod →
    (s.pwmEnabled = true → tsub s.params s.now s.periodStart < s.params.pwmPeriodUs) →
    a.toNat + b.toNat < 2 ^ 32 → exec (.tAdv a) s = .next t → exec (.tAdv b) t = exec (.tAdv (a + b)) s

/-! ### PulseCapture -/

/-- Rule R121. -/
def Obligations.RiseRecordsTimestamp : Prop :=
  ∀ (c : Chan) (s : State), ∃ t, exec (.pcRise c) s = .next t ∧ t.riseTs.get c = s.now ∧ t.armed.get c = true ∧
    (∀ d, d ≠ c → t.riseTs.get d = s.riseTs.get d ∧ t.armed.get d = s.armed.get d) ∧ t.result = .noResult ∧
    { t with riseTs := s.riseTs, armed := s.armed, result := s.result } = s

/-- Rules R122, R322: nothing when not armed; else the flag is consumed and a width inside the window is recorded, without loss of
bits, with its acceptance time. -/
def Obligations.FallRecordsWidthInsideWindow : Prop :=
  ∀ (c : Chan) (s : State) (w : Nat), s.params.rcPulseMaxUs ≤ 65535 → w = tsub s.params s.now (s.riseTs.get c) →
    (s.armed.get c = false → exec (.pcFall c) s = .next { s with result := .noResult }) ∧
      (s.armed.get c = true →
        (w < s.params.rcPulseMinUs ∨ s.params.rcPulseMaxUs < w) → ∃ t, exec (.pcFall c) s = .next t ∧
          t.armed.get c = false ∧ (∀ d, d ≠ c → t.armed.get d = s.armed.get d) ∧ t.result = .noResult ∧
          { t with armed := s.armed, result := s.result } = s) ∧
      (s.armed.get c = true → s.params.rcPulseMinUs ≤ w → w ≤ s.params.rcPulseMaxUs →
        ∃ t, exec (.pcFall c) s = .next t ∧ t.armed.get c = false ∧ (t.record.get c).widthUs.toNat = w ∧
          (t.record.get c).acceptTs = s.now ∧ (t.record.get c).valid = true ∧
          (∀ d, d ≠ c → t.armed.get d = s.armed.get d ∧ t.record.get d = s.record.get d) ∧ t.result = .noResult ∧
          { t with armed := s.armed, record := s.record, result := s.result } = s)

/-- Rule R126: PC.READ. -/
def Obligations.ReadGivesAxisOfFreshChannel : Prop :=
  ∀ (ch : Byte) (s : State),
    (2 ≤ ch.toNat → exec (.pcRead ch) s = .next { s with result := .axis none }) ∧
      ∀ c : Chan, ch = (match c with | .ch0 => 0 | .ch1 => 1) →
        exec (.pcRead ch) s = .next
          { s with
            result := .axis
              (if (s.record.get c).valid = true ∧
                  tsub s.params s.now (s.record.get c).acceptTs < s.params.rcTimeoutMs * 1000 then
                some (pulseToAxis s.params (s.record.get c).widthUs.toNat)
              else none) }

/-- Rule R128: PC.POLL answers a sample stamped with `now` exactly when both channels read an axis at the same step, and then that
of PC.READ on each; it changes nothing. -/
def Obligations.PollSamplesBothChannels : Prop :=
  ∀ (s t0 t1 : State) (r0 r1 : Option F32), exec (.pcRead 0) s = .next t0 → exec (.pcRead 1) s = .next t1 →
    t0.result = .axis r0 → t1.result = .axis r1 →
      exec .pcPoll s = .next
        { s with
          result := .sample
            (match r0, r1 with
              | some x, some y => some { throttle := x, steering := y, timestamp := s.now, source := .rc }
              | _, _ => none) }

/-- Rule R129: PC.ACTIVE is true exactly when both channels are fresh, and that is exactly when PC.POLL at the same step returns a
Sample. -/
def Obligations.ActiveExactlyWhenPollGivesSample : Prop :=
  ∀ s : State, ∃ (b : Bool) (r : Option Sample), exec .pcActive s = .next { s with result := .active b } ∧
    exec .pcPoll s = .next { s with result := .sample r } ∧ (b = true ↔ r.isSome = true) ∧
    (b = true ↔ ∀ c : Chan, (s.record.get c).valid = true ∧
      tsub s.params s.now (s.record.get c).acceptTs < s.params.rcTimeoutMs * 1000)

/-- Rules R121, R122, R126, R205 together (the pulse of rule R106, vector V11): a pulse of `w` microseconds inside the window is
read back as the axis of its width, with the carrier running or not. -/
def Obligations.PulseIsReadBackAsItsAxis : Prop :=
  ∀ (s : State) (c : Chan) (w : Word32), Inv s → s.params.rcPulseMinUs ≤ w.toNat → w.toNat ≤ s.params.rcPulseMaxUs →
    ∃ t, execAll [.pcRise c, .tAdv w, .pcFall c, .pcRead c.toByte] s = .next t ∧
      t.result = .axis (some (pulseToAxis s.params w.toNat))

/-! ### The mappings -/

/-- Rules R11, R325 (a): `rn32` is the binary32 nearest to n / d (0 <= n / d <= 1), negated when `neg`, a tie going to the even
significand, and RN32(0) = +0. -/
def Obligations.RoundingIsNearestTiesEven : Prop :=
  ∀ (neg : Bool) (n d : Nat), 0 < d → n ≤ d →
    NearestEven (rn32 neg n d) (if neg = true then -((n : ℚ) / d) else (n : ℚ) / d) ∧ rn32 neg 0 d = 0

/-- Rule R124: PulseToAxis is the exact ratio of the width's side of neutral, clamped to [-1, 1] and rounded once; at neutral it is
+0, never -0. -/
def Obligations.PulseToAxisRoundsTheExactRatio : Prop :=
  ∀ (P : Params) (w : Nat), P.Valid →
    NearestEven (pulseToAxis P w)
        (max (-1) (min 1
          (if w ≤ P.neutralUs then ((w : ℚ) - P.neutralUs) / ((P.neutralUs : ℚ) - P.minUs)
          else ((w : ℚ) - P.neutralUs) / ((P.maxUs : ℚ) - P.neutralUs)))) ∧
      pulseToAxis P P.neutralUs = 0x00000000

/-- Rule R125: for every width the axis is in [-1, 1], the mapping is monotonic non-decreasing, the neutral width gives +0, and
MIN_US and MAX_US give -1 and +1 exactly. -/
def Obligations.PulseToAxisIsMonotonicOntoUnitRange : Prop :=
  ∀ P : Params, P.Valid →
    (∀ w, -1 ≤ f32ToRat (pulseToAxis P w) ∧ f32ToRat (pulseToAxis P w) ≤ 1 ∧ f32Exp (pulseToAxis P w) < 255) ∧
      (∀ w v, w ≤ v → f32ToRat (pulseToAxis P w) ≤ f32ToRat (pulseToAxis P v)) ∧
      pulseToAxis P P.neutralUs = 0x00000000 ∧ pulseToAxis P P.minUs = 0xBF800000 ∧ pulseToAxis P P.maxUs = 0x3F800000

/-- Rule R195: AxisToPulse stays in [MIN_US, MAX_US], maps a NaN and both zeros to NEUTRAL_US, and every value from +1 up, infinity
included (assumption 8), to MAX_US, every value from -1 down to MIN_US. -/
def Obligations.AxisToPulseStaysInRange : Prop :=
  ∀ (P : Params) (a : F32), P.Valid →
    (P.minUs ≤ axisToPulse P a ∧ axisToPulse P a ≤ P.maxUs) ∧
      (f32IsNaN a = true → axisToPulse P a = P.neutralUs) ∧
      ((a = 0x00000000 ∨ a = 0x80000000) → axisToPulse P a = P.neutralUs) ∧
      (f32IsNaN a = false → f32Neg a = false → f32Den a ≤ f32Num a → axisToPulse P a = P.maxUs) ∧
      (f32IsNaN a = false → f32Neg a = true → f32Den a ≤ f32Num a → axisToPulse P a = P.minUs)

/-- Rules R195, R11, the rounding: inside [-1, 1] the result is the integer nearest to NEUTRAL_US + a * span of the side, exact
product, at most half a microsecond away; where the product lies exactly half way the result is the one further from NEUTRAL_US. -/
def Obligations.AxisToPulseRoundsToNearestMicrosecond : Prop :=
  ∀ (P : Params) (a : F32) (product : ℚ), P.Valid → f32IsNaN a = false → f32Num a ≤ f32Den a →
    product = f32ToRat a *
      (if f32Neg a = true then ((P.neutralUs - P.minUs : Nat) : ℚ) else ((P.maxUs - P.neutralUs : Nat) : ℚ)) →
      |(axisToPulse P a : ℚ) - (P.neutralUs + product)| ≤ 1 / 2 ∧
        (|(axisToPulse P a : ℚ) - (P.neutralUs + product)| = 1 / 2 →
          |(axisToPulse P a : ℚ) - P.neutralUs| = |product| + 1 / 2)

/-- Rule R197 (c): AxisToPulse is monotonic non-decreasing over the non-NaN values, an infinity having the magnitude 2^128 that the
model gives it (assumption 8). -/
def Obligations.AxisToPulseIsMonotonic : Prop :=
  ∀ (P : Params) (a b : F32), P.Valid → f32IsNaN a = false → f32IsNaN b = false → f32ToRat a ≤ f32ToRat b →
    axisToPulse P a ≤ axisToPulse P b

/-- Rule R197 (b): every width in [MIN_US, MAX_US] survives the round trip through binary32 exactly, provided both spans are below
2^22 microseconds. -/
def Obligations.WidthSurvivesRoundTripThroughAxis : Prop :=
  ∀ (P : Params) (w : Nat), P.Valid → P.neutralUs - P.minUs < 2 ^ 22 → P.maxUs - P.neutralUs < 2 ^ 22 →
    P.minUs ≤ w → w ≤ P.maxUs → axisToPulse P (pulseToAxis P w) = w

/-- Rule R197 (a), the round trip of the source's section 8: for every axis in [-1, 1] the way through the pulse and back is off by
at most half a microsecond of axis plus one binary32 rounding. -/
def Obligations.AxisSurvivesRoundTripWithinHalfMicrosecond : Prop :=
  ∀ (P : Params) (a : F32), P.Valid → f32IsNaN a = false → -1 ≤ f32ToRat a → f32ToRat a ≤ 1 →
    |f32ToRat (pulseToAxis P (axisToPulse P a)) - f32ToRat a| <
      (1 / 2) / (if 0 ≤ f32ToRat a then (P.maxUs : ℚ) - P.neutralUs else (P.neutralUs : ℚ) - P.minUs) + 6 / 10 ^ 8

/-! ### CommandLink -/

/-- Rule R152. -/
def Obligations.ReceivedByteIsKeptOrCounted : Prop :=
  ∀ (b : Byte) (s : State),
    (s.rxBuf.length < s.params.rxBufCap →
        exec (.clRxByte b) s = .next { s with rxBuf := s.rxBuf ++ [b], result := .noResult }) ∧
      (s.params.rxBufCap ≤ s.rxBuf.length →
        exec (.clRxByte b) s = .next
          { s with
            cnt := { s.cnt with overrun := (s.cnt.overrun + 1) % 2 ^ s.params.cntBits }
            result := .noResult })

/-- Rules R156 to R160: CL.POLL branch by branch in the order of the pseudocode. A branch that continues answers as CL.POLL on the
shortened buffer with its counter incremented. -/
def Obligations.PollFollowsTheParserLoop : Prop :=
  ∀ (s : State) (L : Nat), L = (word16At s.rxBuf 4).toNat →
    -- too few bytes: None, nothing changes
    ((s.rxBuf.length < 1 ∨ byteAt s.rxBuf 0 = s.params.preamble0 ∧ (s.rxBuf.length < 2 ∨
        byteAt s.rxBuf 1 = s.params.preamble1 ∧ (s.rxBuf.length < 6 ∨
          L ≤ s.params.maxPayloadLen ∧ s.rxBuf.length < 8 + L))) →
      exec .clPoll s = .next { s with result := .frame none }) ∧
    -- a preamble mismatch on either byte drops one byte
    ((1 ≤ s.rxBuf.length ∧ byteAt s.rxBuf 0 ≠ s.params.preamble0 ∨ 2 ≤ s.rxBuf.length ∧
        byteAt s.rxBuf 0 = s.params.preamble0 ∧ byteAt s.rxBuf 1 ≠ s.params.preamble1) →
      exec .clPoll s = exec .clPoll { s with rxBuf := s.rxBuf.drop 1 }) ∧
    -- from here the preamble matches and the header is complete
    (6 ≤ s.rxBuf.length → byteAt s.rxBuf 0 = s.params.preamble0 → byteAt s.rxBuf 1 = s.params.preamble1 →
      (s.params.maxPayloadLen < L →
        exec .clPoll s = exec .clPoll
          { s with
            rxBuf := s.rxBuf.drop 1
            cnt := { s.cnt with oversize := (s.cnt.oversize + 1) % 2 ^ s.params.cntBits } }) ∧
      (L ≤ s.params.maxPayloadLen → 8 + L ≤ s.rxBuf.length →
        (word16At s.rxBuf (6 + L) ≠ crc16 s.params (slice s.rxBuf 2 (4 + L)) →
          exec .clPoll s = exec .clPoll
            { s with
              rxBuf := s.rxBuf.drop 1
              cnt := { s.cnt with crc := (s.cnt.crc + 1) % 2 ^ s.params.cntBits } }) ∧
        (word16At s.rxBuf (6 + L) = crc16 s.params (slice s.rxBuf 2 (4 + L)) →
          ((byteAt s.rxBuf 2 ≠ s.params.protoVersion ∨
              byteAt s.rxBuf 3 ∉
                [s.params.mtCommand, s.params.mtTelem, s.params.mtPing, s.params.mtPong] ∨
              byteAt s.rxBuf 3 = s.params.mtCommand ∧ L ≠ 8 ∨
              byteAt s.rxBuf 3 = s.params.mtTelem ∧ L ≠ 22 + s.params.telemStatusBytes) →
            exec .clPoll s = exec .clPoll
              { s with
                rxBuf := s.rxBuf.drop (8 + L)
                cnt := { s.cnt with format := (s.cnt.format + 1) % 2 ^ s.params.cntBits } }) ∧
          ((byteAt s.rxBuf 2 = s.params.protoVersion ∧
              byteAt s.rxBuf 3 ∈
                [s.params.mtCommand, s.params.mtTelem, s.params.mtPing, s.params.mtPong] ∧
              (byteAt s.rxBuf 3 = s.params.mtCommand → L = 8) ∧
              (byteAt s.rxBuf 3 = s.params.mtTelem → L = 22 + s.params.telemStatusBytes)) →
            exec .clPoll s = .next
              { s with
                rxBuf := s.rxBuf.drop (8 + L)
                cnt := { s.cnt with ok := (s.cnt.ok + 1) % 2 ^ s.params.cntBits }
                result := .frame (some ⟨byteAt s.rxBuf 3, slice s.rxBuf 6 L⟩) }))))

/-- Rule R156, "State written": CL.POLL writes `rx_buf` and the four counters, nothing else; it removes bytes from the head only
and leaves the overrun counter. -/
def Obligations.PollWritesOnlyBufferAndCounters : Prop :=
  ∀ s : State, ∃ (t : State) (r : Option Frame), exec .clPoll s = .next t ∧ t.result = .frame r ∧
    t.rxBuf <:+ s.rxBuf ∧ t.cnt.overrun = s.cnt.overrun ∧
    t.cnt.ok = (if r.isSome = true then (s.cnt.ok + 1) % 2 ^ s.params.cntBits else s.cnt.ok) ∧
    { t with rxBuf := s.rxBuf, cnt := s.cnt, result := s.result } = s

/-- Rules R156, R158, R160, R96: a frame that CL.POLL returns is one that stood in the buffer whole and passes every check of the
predicate WellFormed; it and what stood before it have been removed. -/
def Obligations.PollExposesOnlyAcceptedFrames : Prop :=
  ∀ (s t : State) (f : Frame), s.params.Valid → exec .clPoll s = .next t → t.result = .frame (some f) →
    ∃ before frame : List Byte, s.rxBuf = before ++ frame ++ t.rxBuf ∧ frameAccepted s.params frame = true ∧
      f.type = byteAt frame 3 ∧ f.payload = slice frame 6 (frame.length - 8)

/-- Rule R161: after a None result the buffer is empty or a proper prefix of a possible frame, shorter than the largest frame, so
at least one more byte fits. -/
def Obligations.PollNoneLeavesPrefixOfAFrame : Prop :=
  ∀ (s t : State), s.params.Valid → exec .clPoll s = .next t → t.result = .frame none →
    WaitsForMore s.params t.rxBuf ∧ t.rxBuf.length < s.params.maxPayloadLen + 8 ∧
      t.rxBuf.length < s.params.rxBufCap

/-- Rule R165, the checks in their order. -/
def Obligations.SendQueuesWholeFrameOrNothing : Prop :=
  ∀ (t : Byte) (p : List Byte) (s : State),
    exec (.clSend t p) s = .next
      (if t ∉ [s.params.mtCommand, s.params.mtTelem, s.params.mtPing, s.params.mtPong] then
        { s with result := .status .badType }
      else if s.params.maxPayloadLen < p.length then { s with result := .status .tooLong }
      else if t = s.params.mtCommand ∧ p.length ≠ 8 ∨
          t = s.params.mtTelem ∧ p.length ≠ 22 + s.params.telemStatusBytes then
        { s with result := .status .badLen }
      else if s.params.txFifoCap < s.txFifo.length + 8 + p.length then { s with result := .status .txFull }
      else { s with txFifo := s.txFifo ++ encodeFrame s.params t p, result := .status .ok })

/-- Rule R168. -/
def Obligations.TransmitTakesHeadByte : Prop :=
  ∀ s : State,
    (s.txFifo = [] → exec .clTxByte s = .next { s with result := .noResult }) ∧
      ∀ (b : Byte) (rest : List Byte), s.txFifo = b :: rest →
        exec .clTxByte s = .next { s with txFifo := rest, txLine := s.txLine ++ [b], result := .noResult }

/-- Rule R172. -/
def Obligations.StatsReturnsTheFiveCounters : Prop :=
  ∀ s : State, ∃ c : Counters, exec .clStats s = .next { s with result := .stats c } ∧ c.ok = s.cnt.ok ∧
    c.oversize = s.cnt.oversize ∧ c.crc = s.cnt.crc ∧ c.format = s.cnt.format ∧ c.overrun = s.cnt.overrun

/-- Rule R87: the check values of the default CRC (vector V20). -/
def Obligations.CrcCheckValues : Prop :=
  crc16 Params.default [0x31, 0x32, 0x33, 0x34, 0x35, 0x36, 0x37, 0x38, 0x39] = 0x29B1 ∧
    crc16 Params.default [] = 0xFFFF ∧ crc16 Params.default [0x00] = 0xE1F0

/-- Rule R158: the default CRC differs for any two byte sequences that differ in one byte, so every single-bit error in the bytes it
covers is rejected. -/
def Obligations.CrcDetectsEveryChangedByte : Prop :=
  ∀ (before after : List Byte) (a b : Byte), a ≠ b →
    crc16 Params.default (before ++ a :: after) ≠ crc16 Params.default (before ++ b :: after)

/-- Rule R96, last sentence: every frame that CL.SEND queues is one the receiver accepts. -/
def Obligations.EncodedFramesAreAccepted : Prop :=
  ∀ (P : Params) (t : Byte) (p : List Byte), P.Valid → Sendable P t p → frameAccepted P (encodeFrame P t p) = true

/-- Rules R90, R92: packing and unpacking give back every bit of a payload. -/
def Obligations.PayloadsUnpackToWhatWasPacked : Prop :=
  (∀ t s : F32, (packCommand t s).length = 8 ∧ unpackCommand (packCommand t s) = some (t, s)) ∧
    ∀ (P : Params) (m : Telem), P.Valid → statusFits P m = true →
      (packTelem P m).length = 22 + P.telemStatusBytes ∧ unpackTelem P (packTelem P m) = some m

/-- Rules R95, R156, R160 (the source's protocol round trip, vector V3): a sendable frame at the head of the buffer is returned with
its type and payload bit for bit, and only it is removed. -/
def Obligations.PollReturnsEncodedFrame : Prop :=
  ∀ (s : State) (t : Byte) (p rest : List Byte), s.params.Valid → Sendable s.params t p →
    s.rxBuf = encodeFrame s.params t p ++ rest →
      exec .clPoll s = .next
        { s with
          rxBuf := rest
          cnt := { s.cnt with ok := (s.cnt.ok + 1) % 2 ^ s.params.cntBits }
          result := .frame (some ⟨t, p⟩) }

/-- Rules R165, R168, R152, R156: a frame sent, put on the line byte by byte, received byte by byte and polled arrives unchanged
(one block at both ends of the line). -/
def Obligations.SentFrameArrivesUnchanged : Prop :=
  ∀ (s : State) (t : Byte) (p : List Byte), s.params.Valid → Sendable s.params t p → s.txFifo = [] → s.rxBuf = [] →
    ∃ a b c d, exec (.clSend t p) s = .next a ∧ execAll (drainOps a) a = .next b ∧
      b.txLine = s.txLine ++ encodeFrame s.params t p ∧ b.txFifo = [] ∧
      execAll (rxBytesOps (encodeFrame s.params t p)) b = .next c ∧ exec .clPoll c = .next d ∧
      d.result = .frame (some ⟨t, p⟩) ∧ d.rxBuf = []

/-- Rule R162 (the source's resynchronisation scenario, vectors V4 and V35): two sendable frames with garbage between them that
holds no first preamble byte are both returned, and nothing is counted as dropped. -/
def Obligations.ParserResynchronisesAcrossGarbage : Prop :=
  ∀ (s : State) (t u : Byte) (p q garbage : List Byte), s.params.Valid → Sendable s.params t p →
    Sendable s.params u q → (∀ b ∈ garbage, b ≠ s.params.preamble0) →
    s.rxBuf = encodeFrame s.params t p ++ garbage ++ encodeFrame s.params u q →
      ∃ a b, exec .clPoll s = .next a ∧ exec .clPoll a = .next b ∧ a.result = .frame (some ⟨t, p⟩) ∧
        b.result = .frame (some ⟨u, q⟩) ∧ b.rxBuf = [] ∧
        b.cnt = { s.cnt with ok := (s.cnt.ok + 2) % 2 ^ s.params.cntBits }

/-- Rules R80, R90 to R92, R106, R152, R329: a frame of the line is delivered in the layout of rule R80 and of its payload, with its
own CRC field. The step that takes it is the CL.RXBYTE of its first byte, and one CL.RXBYTE for each other byte comes next; after as
many steps as it has bytes, what fits the buffer is appended in order and the bytes beyond its capacity are lost and counted. That a
frame as an entry of the input means this is the model's choice (assumption 2). -/
def Obligations.FramesArriveByteByByte : Prop :=
  ∀ (s : State) (i : Instr) (crc : Word16) (b : Byte) (rest : List Byte), s.params.Valid →
    s.rxBuf.length ≤ s.params.rxBufCap → s.cnt.overrun < 2 ^ s.params.cntBits →
    ((∃ throttle steering : F32, i = .frameCommand throttle steering crc ∧
        b :: rest = [s.params.preamble0, s.params.preamble1, s.params.protoVersion, s.params.mtCommand, 8, 0] ++
          u32le throttle ++ u32le steering ++ u16le crc) ∨
      (∃ m : Telem, i = .frameTelem m crc ∧
        b :: rest = [s.params.preamble0, s.params.preamble1, s.params.protoVersion, s.params.mtTelem,
            BitVec.ofNat 8 (22 + s.params.telemStatusBytes), 0] ++ u16le m.seq ++
          (if s.params.telemStatusBytes = 1 then [m.status.setWidth 8] else u16le m.status) ++
          u16le m.imu0 ++ u16le m.imu1 ++ u16le m.imu2 ++ u16le m.imu3 ++ u16le m.imu4 ++ u16le m.imu5 ++
          u32le m.throttle ++ u32le m.steering ++ u16le crc) ∨
      (∃ p : List Byte, i = .framePing p crc ∧
        b :: rest = [s.params.preamble0, s.params.preamble1, s.params.protoVersion, s.params.mtPing] ++
          u16le (BitVec.ofNat 16 p.length) ++ p ++ u16le crc) ∨
      (∃ p : List Byte, i = .framePong p crc ∧
        b :: rest = [s.params.preamble0, s.params.preamble1, s.params.protoVersion, s.params.mtPong] ++
          u16le (BitVec.ofNat 16 p.length) ++ p ++ u16le crc)) →
    exec i s = .next { afterArrival s [b] with
        input := .script (rest.flatMap fun c => [0x20, c]) :: s.input } ∧
      exec i s = exec (.clRxByte b) { s with input := .script (rest.flatMap fun c => [0x20, c]) :: s.input } ∧
      (WellFormed s.params i = true →
        Host.Core.run Sys2Proof.core (rest.length + 1) { s with input := .wire (b :: rest) :: s.input } =
          .next (afterArrival s (b :: rest)))

/-- Rules R90 to R92, R156, R160: a frame with the right CRC field that arrives at an empty buffer, one byte a step, is returned by
the next CL.POLL, with its type and payload. The frame as an entry of the input is the model's choice (assumption 2). -/
def Obligations.ArrivedFrameIsPolled : Prop :=
  ∀ (s : State) (i : Instr) (t : Byte) (p : List Byte), s.params.Valid → s.rxBuf = [] →
    s.cnt.overrun < 2 ^ s.params.cntBits → Sendable s.params t p → WellFormed s.params i = true →
    ((∃ x y c, i = .frameCommand x y c ∧ t = s.params.mtCommand ∧ p = packCommand x y ∧
        c = crc16 s.params (frameBody s.params t p)) ∨
      (∃ m c, i = .frameTelem m c ∧ t = s.params.mtTelem ∧ p = packTelem s.params m ∧
        c = crc16 s.params (frameBody s.params t p)) ∨
      (∃ c, i = .framePing p c ∧ t = s.params.mtPing ∧ c = crc16 s.params (frameBody s.params t p)) ∨
      (∃ c, i = .framePong p c ∧ t = s.params.mtPong ∧ c = crc16 s.params (frameBody s.params t p))) →
    ∃ a b : State, Host.Core.run Sys2Proof.core (8 + p.length) { s with input := .wire (encode s.params i) :: s.input } = .next a ∧
      exec .clPoll a = .next b ∧ b.result = .frame (some ⟨t, p⟩) ∧ b.rxBuf = [] ∧
      b.cnt = { s.cnt with ok := (s.cnt.ok + 1) % 2 ^ s.params.cntBits } ∧ b.input = s.input

/-! ### ActuationDriver -/

/-- Rule R192. -/
def Obligations.InitStartsCarrierOnceAtNeutral : Prop :=
  ∀ (s : State) (n : Word16), n = BitVec.ofNat 16 s.params.neutralUs →
    (s.pwmEnabled = false → exec .adInit s = .next
      { s with
        pwmEnabled := true
        periodStart := s.now
        pwShadow := ⟨n, n⟩
        pwActive := ⟨n, n⟩
        pwmTrace := s.pwmTrace ++ [⟨s.now, n, n⟩]
        result := .status .ok }) ∧
    (s.pwmEnabled = true → exec .adInit s = .next { s with pwShadow := ⟨n, n⟩, result := .status .ok })

/-- Rules R194, R322: channel first, then initialisation, then the clamped write of the shadow of that channel. -/
def Obligations.SetPulseWritesClampedShadow : Prop :=
  ∀ (ch : Byte) (us : Word16) (s : State), s.params.Valid →
    (2 ≤ ch.toNat → exec (.adSetPw ch us) s = .next { s with result := .status .badChannel }) ∧
      (ch.toNat < 2 → s.pwmEnabled = false → exec (.adSetPw ch us) s = .next { s with result := .status .notInit }) ∧
      ∀ c : Chan, ch = (match c with | .ch0 => 0 | .ch1 => 1) → s.pwmEnabled = true →
        ∃ t, exec (.adSetPw ch us) s = .next t ∧
          (t.pwShadow.get c).toNat =
            (if us.toNat < s.params.minUs then s.params.minUs
              else if s.params.maxUs < us.toNat then s.params.maxUs else us.toNat) ∧
          (∀ d, d ≠ c → t.pwShadow.get d = s.pwShadow.get d) ∧ t.result = .status .ok ∧
          { t with pwShadow := s.pwShadow, result := s.result } = s

/-- Rule R196: AD.SETAXIS is AD.SETPW of AxisToPulse of its operand, with the same statuses and the same effect. -/
def Obligations.SetAxisIsSetPulseOfMappedAxis : Prop :=
  ∀ (ch : Byte) (a : F32) (s : State), s.params.Valid →
    exec (.adSetAxis ch a) s = exec (.adSetPw ch (BitVec.ofNat 16 (axisToPulse s.params a))) s ∧
      ∃ t, exec (.adSetAxis ch a) s = .next t ∧
        ∀ c : Chan, ch = (match c with | .ch0 => 0 | .ch1 => 1) → s.pwmEnabled = true →
          (t.pwShadow.get c).toNat = axisToPulse s.params a ∧ t.result = .status .ok

/-- Rule R198. -/
def Obligations.NeutralWritesBothShadows : Prop :=
  ∀ (s : State) (n : Word16), n = BitVec.ofNat 16 s.params.neutralUs →
    (s.pwmEnabled = true → exec .adNeutral s = .next { s with pwShadow := ⟨n, n⟩, result := .status .ok }) ∧
      (s.pwmEnabled = false → exec .adNeutral s = .next { s with result := .status .notInit })

/-- Rule R199: in a whole period, pin `c` is high for exactly `pw_active[c]` microseconds, the first ones; while not enabled it is
low. The premise on the period's length is the model's reading (assumption 7). -/
def Obligations.PinIsHighForTheActiveWidth : Prop :=
  ∀ (s : State) (c : Chan),
    (s.pwmEnabled = false → ∀ t, pinHigh s c t = false) ∧
      (s.pwmEnabled = true → (s.pwActive.get c).toNat ≤ s.params.pwmPeriodUs →
        s.params.pwmPeriodUs ≤ s.params.timeMod → s.periodStart < s.params.timeMod →
          (∀ k, k < s.params.pwmPeriodUs →
            (pinHigh s c ((s.periodStart + k) % s.params.timeMod) = true ↔ k < (s.pwActive.get c).toNat)) ∧
          ((List.range s.params.pwmPeriodUs).countP fun k =>
            pinHigh s c ((s.periodStart + k) % s.params.timeMod)) = (s.pwActive.get c).toNat)

/-- Rules R194, R198, R205, R302: a width written inside a period is what both the next period's register and its trace entry
carry; the pulse in progress is not touched. -/
def Obligations.WriteReachesPinAtNextBoundary : Prop :=
  ∀ (s t : State) (i : Instr) (d : Word32), Inv s → i.agent = .host → s.pwmEnabled = true → exec i s = .next t →
    t.pwActive = s.pwActive ∧ t.periodStart = s.periodStart ∧ t.pwmTrace = s.pwmTrace ∧
      (d.toNat = s.params.pwmPeriodUs - tsub s.params s.now s.periodStart →
        ∃ u, exec (.tAdv d) t = .next u ∧ u.pwActive = t.pwShadow ∧
          u.pwmTrace = s.pwmTrace ++ [⟨(s.now + d.toNat) % s.params.timeMod, t.pwShadow.ch0, t.pwShadow.ch1⟩])

/-! ### Reset -/

/-- Rules R207, R55: every piece of state to its reset value; the histories keep what they recorded; nothing is returned. -/
def Obligations.ResetWritesEveryRegister : Prop :=
  ∀ (s : State) (n : Word16), n = BitVec.ofNat 16 s.params.neutralUs →
    ∃ t, exec .sysReset s = .next t ∧ t.now = 0 ∧ t.riseTs = ⟨0, 0⟩ ∧ t.armed = ⟨false, false⟩ ∧
      t.record = ⟨{ widthUs := 0, acceptTs := 0, valid := false }, { widthUs := 0, acceptTs := 0, valid := false }⟩ ∧
      t.rxBuf = [] ∧ t.txFifo = [] ∧ t.cnt = { ok := 0, oversize := 0, crc := 0, format := 0, overrun := 0 } ∧
      t.pwmEnabled = false ∧ t.periodStart = 0 ∧ t.pwShadow = ⟨n, n⟩ ∧ t.pwActive = ⟨n, n⟩ ∧
      t.txLine = s.txLine ∧ t.pwmTrace = s.pwmTrace ∧ t.result = .noResult

/-- Rules R292, R296, R198: what the outside sees after reset and before the host has done anything: pins low, no signal on any
channel, nothing active, no frame, nothing on the line, counters 0; and until AD.INIT every pulse write is refused. -/
def Obligations.NothingIsSeenAfterReset : Prop :=
  ∀ s t : State, exec .sysReset s = .next t →
    (∀ c u, pinHigh t c u = false) ∧ (∀ ch, exec (.pcRead ch) t = .next { t with result := .axis none }) ∧
      exec .pcActive t = .next { t with result := .active false } ∧
      exec .pcPoll t = .next { t with result := .sample none } ∧
      exec .clPoll t = .next { t with result := .frame none } ∧
      exec .clTxByte t = .next { t with result := .noResult } ∧
      exec .clStats t = .next { t with result := .stats ⟨0, 0, 0, 0, 0⟩ } ∧
      (∀ (ch : Byte) (us : Word16), ch.toNat < 2 →
        exec (.adSetPw ch us) t = .next { t with result := .status .notInit }) ∧
      (∀ (ch : Byte) (a : F32), ch.toNat < 2 →
        exec (.adSetAxis ch a) t = .next { t with result := .status .notInit }) ∧
      exec .adNeutral t = .next { t with result := .status .notInit }

/-! ### Rules of the whole machine -/

/-- Rules R20, R55, R8: under every valid parameter record the state after reset meets the invariant, no pulse has gone out, and
nothing is queued. That its histories are empty is the model's choice (assumption 3), as are the fields it has for the record and the
input (assumptions 1, 4). -/
def Obligations.ResetMeetsTheInvariant : Prop :=
  ∀ P : Params, P.Valid →
    Inv (State.resetOf P) ∧ TraceSafe (State.resetOf P) ∧ Framed P (State.resetOf P).txFifo ∧
      (State.resetOf P).params = P

/-- Rules R24, R32, R36, R40, R41, R47, R205, R320: every step from a state that meets the invariant gives a state that meets it:
time values and counters in their width, buffers in their capacity, accepted widths in the window, pulse registers in
[MIN_US, MAX_US] and the carrier phase below the period. -/
def Obligations.EveryStepKeepsTheInvariant : Prop :=
  ∀ s t : State, Inv s → step s = .next t → Inv t

/-- Rules R47, R199, R205, R282: from a state that meets the invariant and has put only safe pulses on the pins, every step again has
put only pulses inside [MIN_US, MAX_US] on the pins. -/
def Obligations.EveryPulseOnThePinsIsInRange : Prop :=
  ∀ s t : State, Inv s → TraceSafe s → step s = .next t → TraceSafe t

/-- Rules R41, R69 (c), R165, R168: `tx_fifo` always is the rest of one sendable frame and then whole sendable frames: no step ever
queues part of a frame or lets frames interleave. -/
def Obligations.EveryStepKeepsFramesWhole : Prop :=
  ∀ s t : State, s.params.Valid → Framed s.params s.txFifo → step s = .next t → Framed t.params t.txFifo

/-- Rules R20, R21, R35, R36, R45, R278: every piece of state is written only by its owner's operations and by SYS.RESET; the
parameter record by none. The record and the input are fields of the model's own (assumptions 1, 4); the input is written by the
frames alone, which put bytes before it (assumption 2). -/
def Obligations.EachPieceOfStateHasItsOwner : Prop :=
  ∀ (i : Instr) (s t : State), exec i s = .next t →
    t.params = s.params ∧ (i.stream = .script → t.input = s.input) ∧ s.input <:+ t.input ∧
      (i ≠ .sysReset →
        (i.agent ≠ .time → t.now = s.now) ∧
          (∀ c, i.agent ≠ .edge c → t.riseTs.get c = s.riseTs.get c ∧ t.armed.get c = s.armed.get c ∧
            t.record.get c = s.record.get c) ∧
          (i.agent ≠ .serialRx → i ≠ .clPoll → t.rxBuf = s.rxBuf) ∧
          (i ≠ .clPoll → t.cnt = { s.cnt with overrun := t.cnt.overrun }) ∧
          (i.agent ≠ .serialRx → t.cnt.overrun = s.cnt.overrun) ∧
          ((∀ u p, i ≠ .clSend u p) → i.agent ≠ .serialTx → t.txFifo = s.txFifo) ∧
          (i ≠ .adInit → (∀ ch us, i ≠ .adSetPw ch us) → (∀ ch a, i ≠ .adSetAxis ch a) → i ≠ .adNeutral →
            t.pwShadow = s.pwShadow) ∧
          (i ≠ .adInit → t.pwmEnabled = s.pwmEnabled) ∧
          (i.agent ≠ .time → i ≠ .adInit → t.periodStart = s.periodStart ∧ t.pwActive = s.pwActive))

/-- Rules R13, R55, R170: the histories are a record: no operation, reset included, takes anything back; bytes reach the line by
CL.TXBYTE alone, one at a time, and periods start by T.ADV and AD.INIT alone. -/
def Obligations.HistoriesOnlyGrow : Prop :=
  ∀ (i : Instr) (s t : State), exec i s = .next t →
    s.txLine <+: t.txLine ∧ s.pwmTrace <+: t.pwmTrace ∧ (i ≠ .clTxByte → t.txLine = s.txLine) ∧
      t.txLine.length ≤ s.txLine.length + 1 ∧ (i.agent ≠ .time → i ≠ .adInit → t.pwmTrace = s.pwmTrace)

/-- Rules R66, R69, R122, R126: no step between an accepted fall and a read of the same channel tears the record: an operation that
is not an edge of the channel or a reset leaves all three parts, and one that is an edge either leaves all three or writes
all three. -/
def Obligations.SharedRecordIsWrittenWhole : Prop :=
  ∀ (i : Instr) (s t : State) (c : Chan), s.params.Valid → exec i s = .next t → t.record.get c ≠ s.record.get c →
    i = .sysReset ∨ (i = .pcFall c ∧ s.armed.get c = true ∧ (t.record.get c).acceptTs = s.now ∧
      (t.record.get c).valid = true ∧ (t.record.get c).widthUs.toNat = tsub s.params s.now (s.riseTs.get c) ∧
      s.params.rcPulseMinUs ≤ (t.record.get c).widthUs.toNat ∧ (t.record.get c).widthUs.toNat ≤ s.params.rcPulseMaxUs)

/-! ### The host's control software, outside the block -/

/-- Rules R230, R231 (spec/43_host_software.md, outside the block): the slew limiter is idempotent at its target for every rate; for a
rate of 0 or more it never overshoots, shortens the distance by exactly rate * ms / 1000 where it is longer than that and ends it where
it is not; so repeated steps end exactly at the target. The exact number format and the premise on the rate are the model's
(assumptions 9, 18). -/
def Obligations.SlewLimiterConvergesWithoutOvershoot : Prop :=
  ∀ (rate : ℚ) (ms : Nat) (target current next : ℚ), next = slew rate ms target current →
    slew rate ms target target = target ∧
      (0 ≤ rate →
        (current ≤ target → current ≤ next ∧ next ≤ target) ∧ (target ≤ current → target ≤ next ∧ next ≤ current) ∧
        |next - current| ≤ rate * ms / 1000 ∧
        (current ≠ target → 0 < rate * ms / 1000 → |target - next| < |target - current|) ∧
        (|target - current| ≤ rate * ms / 1000 → next = target) ∧
        (rate * ms / 1000 < |target - current| → |target - next| = |target - current| - rate * ms / 1000) ∧
        ∀ n : Nat, |target - current| ≤ n * (rate * ms / 1000) → (slew rate ms target)^[n] current = target)

/-- Rules R10, R21, R225, R228, R237 (spec/43_host_software.md, outside the block): from a time `t` to one `d` microseconds later, d below
2^TIME_BITS and a wrap of `now` between them or not, the host's clock counts (t + d) div 1000 - t div 1000 milliseconds; the age of
the network slot, the failsafe's elapsed time and the interval of a step are tested on that. That the host keeps values of `now`, and
what its clock counts across a wrap, are the model's reading (assumption 23). -/
def Obligations.HostTimesAreTestedAcrossTheWrap : Prop :=
  ∀ (P : Params) (H : HostParams) (v : HostVars) (k : ControlStep) (t d now ms : Nat), d < P.timeMod →
    now = (t + d) % P.timeMod → ms = (t + d) / 1000 - t / 1000 →
      elapsedMs P now t = ms ∧ (stepDue P H k t now = true ↔ k.intervalMs H ≤ ms) ∧
        (∀ n, v.slot = some n → n.receivedAt = t → (slotFresh P H v now = true ↔ ms < H.networkCmdTimeoutMs)) ∧
        (v.slot = none → slotFresh P H v now = false) ∧
        (v.lastActiveAt = t → ((failsafeCheck P H false now v).failsafeActive = true ↔
          v.failsafeActive = true ∨ H.failsafeTimeoutMs ≤ ms))

/-- Rules R225, R226, R228 (spec/43_host_software.md, outside the block): while RC is active the commanded axes are RC's sample
whatever the network slot holds, and the slot is emptied; while failsafe is active the target is exactly neutral
(assumption 9). -/
def Obligations.RcOverridesNetworkAndFailsafeForcesNeutral : Prop :=
  ∀ (P : Params) (H : HostParams) (v w : HostVars) (x : Sample) (now : Nat), w = arbitrate P H (some x) now v →
    w.commandedThrottle = x.throttle ∧ w.commandedSteering = x.steering ∧ w.slot = none ∧
      networkActive P H v true now = false ∧
      (H.failsafeTimeoutMs ≤ elapsedMs P now v.lastActiveAt → targetOf (failsafeCheck P H false now v) = (0, 0)) ∧
      (failsafeCheck P H true now v).failsafeActive = false
end

