-- ==== Sys2Proof/Laws/PerInstr.lean ====
section
/-!
SUPPORT. The family Encoding of statements for all instructions: how long an encoding is (spec/30_encoding.md rules R80, R85, R100)
and which bytes select its row of the opcode table (rules R101, R108).
-/

namespace Sys2Proof.Laws.Encoding

open Sys2Proof Sys2Proof.Machine

/-- The bytes of an instruction's encoding, from its format (rules R85, R100). -/
def size (P : Params) (i : Instr) : Nat :=
  match i with
  | .frameCommand _ _ _ => 16
  | .frameTelem _ _ => 8 + P.telemPayloadLen
  | .framePing p _ => 8 + p.length
  | .framePong p _ => 8 + p.length
  | .tAdv _ => 5
  | .pcRise _ => 2
  | .pcFall _ => 2
  | .pcRead _ => 2
  | .pcPoll => 1
  | .pcActive => 1
  | .clRxByte _ => 2
  | .clPoll => 1
  | .clSend _ p => 4 + p.length
  | .clTxByte => 1
  | .clStats => 1
  | .adInit => 1
  | .adSetPw _ _ => 4
  | .adSetAxis _ _ => 6
  | .adNeutral => 1
  | .sysReset => 1

/-- The leading bytes that name the row: the opcode byte (rule R101), or preamble, version and type (rule R80). -/
def lead (P : Params) (i : Instr) : List Byte :=
  match i with
  | .frameCommand _ _ _ => [P.preamble0, P.preamble1, P.protoVersion, P.mtCommand]
  | .frameTelem _ _ => [P.preamble0, P.preamble1, P.protoVersion, P.mtTelem]
  | .framePing _ _ => [P.preamble0, P.preamble1, P.protoVersion, P.mtPing]
  | .framePong _ _ => [P.preamble0, P.preamble1, P.protoVersion, P.mtPong]
  | .tAdv _ => [0x00]
  | .pcRise _ => [0x10]
  | .pcFall _ => [0x11]
  | .pcRead _ => [0x12]
  | .pcPoll => [0x13]
  | .pcActive => [0x14]
  | .clRxByte _ => [0x20]
  | .clPoll => [0x21]
  | .clSend _ _ => [0x22]
  | .clTxByte => [0x23]
  | .clStats => [0x24]
  | .adInit => [0x30]
  | .adSetPw _ _ => [0x31]
  | .adSetAxis _ _ => [0x32]
  | .adNeutral => [0x33]
  | .sysReset => [0xF0]

/-- The encoding has the length of its format and begins with the bytes of its row. -/
def Statement (i : Instr) : Prop :=
  ∀ P : Params, P.Valid → (encode P i).length = size P i ∧ lead P i <+: encode P i

theorem packStatus_length {P : Params} (h : P.Valid) (v : Word16) :
    (packStatus P v).length = P.telemStatusBytes := by
  obtain ⟨_, _, _, _, _, _, _, _, hs, _⟩ := h
  unfold packStatus
  rcases hs with hs | hs <;> simp [hs, u16le]

theorem packTelem_length {P : Params} (h : P.Valid) (m : Telem) : (packTelem P m).length = P.telemPayloadLen := by
  simp [packTelem, packStatus_length h, u16le, u32le, Params.telemPayloadLen]
  omega

theorem frameBytes_length (P : Params) (t : Byte) (p : List Byte) (crc : Word16) :
    (frameBytes P t p crc).length = 8 + p.length := by
  simp [frameBytes, frameBody, u16le]
  omega

theorem frameBytes_lead (P : Params) (t : Byte) (p : List Byte) (crc : Word16) :
    [P.preamble0, P.preamble1, P.protoVersion, t] <+: frameBytes P t p crc := by
  simp [frameBytes, frameBody]

theorem frameCommand (throttle steering : F32) (crc : Word16) : Statement (.frameCommand throttle steering crc) :=
  fun P _ => ⟨by simp [encode, frameBytes_length, size, packCommand, u32le], frameBytes_lead P _ _ _⟩

theorem frameTelem (m : Telem) (crc : Word16) : Statement (.frameTelem m crc) :=
  fun P h => ⟨by simp [encode, frameBytes_length, size, packTelem_length h], frameBytes_lead P _ _ _⟩

theorem framePing (payload : List Byte) (crc : Word16) : Statement (.framePing payload crc) :=
  fun P _ => ⟨frameBytes_length P _ _ _, frameBytes_lead P _ _ _⟩

theorem framePong (payload : List Byte) (crc : Word16) : Statement (.framePong payload crc) :=
  fun P _ => ⟨frameBytes_length P _ _ _, frameBytes_lead P _ _ _⟩

theorem tAdv (d : Word32) : Statement (.tAdv d) := fun _ _ => ⟨rfl, by simp [encode, lead]⟩
theorem pcRise (ch : Chan) : Statement (.pcRise ch) := fun _ _ => ⟨rfl, by simp [encode, lead]⟩
theorem pcFall (ch : Chan) : Statement (.pcFall ch) := fun _ _ => ⟨rfl, by simp [encode, lead]⟩
theorem pcRead (ch : Byte) : Statement (.pcRead ch) := fun _ _ => ⟨rfl, by simp [encode, lead]⟩
theorem pcPoll : Statement .pcPoll := fun _ _ => ⟨rfl, by simp [encode, lead]⟩
theorem pcActive : Statement .pcActive := fun _ _ => ⟨rfl, by simp [encode, lead]⟩
theorem clRxByte (b : Byte) : Statement (.clRxByte b) := fun _ _ => ⟨rfl, by simp [encode, lead]⟩
theorem clPoll : Statement .clPoll := fun _ _ => ⟨rfl, by simp [encode, lead]⟩
theorem clSend (t : Byte) (p : List Byte) : Statement (.clSend t p) :=
  fun _ _ => ⟨by simp [encode, size, u16le]; omega, by simp [encode, lead]⟩
theorem clTxByte : Statement .clTxByte := fun _ _ => ⟨rfl, by simp [encode, lead]⟩
theorem clStats : Statement .clStats := fun _ _ => ⟨rfl, by simp [encode, lead]⟩
theorem adInit : Statement .adInit := fun _ _ => ⟨rfl, by simp [encode, lead]⟩
theorem adSetPw (ch : Byte) (us : Word16) : Statement (.adSetPw ch us) := fun _ _ => ⟨rfl, by simp [encode, lead]⟩
theorem adSetAxis (ch : Byte) (a : F32) : Statement (.adSetAxis ch a) := fun _ _ => ⟨rfl, by simp [encode, lead]⟩
theorem adNeutral : Statement .adNeutral := fun _ _ => ⟨rfl, by simp [encode, lead]⟩
theorem sysReset : Statement .sysReset := fun _ _ => ⟨rfl, by simp [encode, lead]⟩

end Sys2Proof.Laws.Encoding
end

