-- ==== Sys2Proof/Laws/Bytes.lean ====
section
/-!
SUPPORT. Laws of byte order and of the frame layout: what a field reads after it has been written, and where the fields of a
whole frame lie (spec/00_scope.md rule R9, spec/30_encoding.md rule R80).
-/

namespace Sys2Proof.Machine

/-- Rule R9: reading back a 16-bit value written low byte first. -/
@[simp] theorem le16_u16le (v : Word16) : le16 (v.extractLsb' 0 8) (v.extractLsb' 8 8) = v := by
  unfold le16
  ext i hi
  simp only [BitVec.getElem_append, BitVec.getElem_extractLsb']
  split
  · simp [BitVec.getLsbD_eq_getElem hi]
  · next h => rw [show 8 + (i - 8) = i by omega, BitVec.getLsbD_eq_getElem hi]

/-- Rule R9: reading back a 32-bit value written low byte first. -/
@[simp] theorem le32_u32le (v : Word32) :
    le32 (v.extractLsb' 0 8) (v.extractLsb' 8 8) (v.extractLsb' 16 8) (v.extractLsb' 24 8) = v := by
  unfold le32
  ext i hi
  simp only [BitVec.getElem_append, BitVec.getElem_extractLsb']
  split_ifs <;>
    first
    | (rw [show 0 + i = i by omega, BitVec.getLsbD_eq_getElem hi])
    | (rw [show 8 + (i - 8) = i by omega, BitVec.getLsbD_eq_getElem hi])
    | (rw [show 16 + (i - 16) = i by omega, BitVec.getLsbD_eq_getElem hi])
    | (rw [show 24 + (i - 16 - 8) = i by omega, BitVec.getLsbD_eq_getElem hi])

/-- Reading past the first part of a byte sequence. -/
theorem byteAt_append {A B : List Byte} {i n : Nat} (h : A.length = n) : byteAt (A ++ B) (n + i) = byteAt B i := by
  subst h
  unfold byteAt
  simp [List.getD_eq_getElem?_getD, List.getElem?_append_right]

/-- Reading inside the first part of a byte sequence. -/
theorem byteAt_append_left {A B : List Byte} {i : Nat} (h : i < A.length) : byteAt (A ++ B) i = byteAt A i := by
  unfold byteAt
  simp [List.getD_eq_getElem?_getD, List.getElem?_append_left h]

theorem word16At_append {A B : List Byte} {i n : Nat} (h : A.length = n) : word16At (A ++ B) (n + i) = word16At B i := by
  unfold word16At
  rw [byteAt_append h, Nat.add_assoc, byteAt_append h]

theorem word32At_append {A B : List Byte} {i n : Nat} (h : A.length = n) : word32At (A ++ B) (n + i) = word32At B i := by
  unfold word32At
  simp only [Nat.add_assoc, byteAt_append h]

@[simp] theorem word16At_u16le (v : Word16) (B : List Byte) : word16At (u16le v ++ B) 0 = v := le16_u16le v
@[simp] theorem word32At_u32le (v : Word32) (B : List Byte) : word32At (u32le v ++ B) 0 = v := le32_u32le v

/-- A length that fits its field is read back (rule R84). -/
theorem length_field {n : Nat} (h : n < 65536) : (BitVec.ofNat 16 n).toNat = n := by
  rw [BitVec.toNat_ofNat, Nat.mod_eq_of_lt h]

/-- A frame as one list of bytes, with what follows it. -/
theorem frameBytes_append (P : Params) (t : Byte) (p rest : List Byte) (crc : Word16) :
    frameBytes P t p crc ++ rest =
      P.preamble0 :: P.preamble1 :: P.protoVersion :: t :: (BitVec.ofNat 16 p.length).extractLsb' 0 8 ::
        (BitVec.ofNat 16 p.length).extractLsb' 8 8 :: (p ++ (u16le crc ++ rest)) := by
  simp [frameBytes, frameBody, u16le]

end Sys2Proof.Machine
end

