-- ==== Sys2Proof/Laws/State.lean ====
section
/-!
SUPPORT. One lemma per field per named update of the state, and the laws of the per-channel arrays: no later proof unfolds a
record update.
-/

namespace Sys2Proof.Machine

@[simp] theorem PerCh.get_ch0 {α : Type} (x : PerCh α) : x.get .ch0 = x.ch0 := rfl
@[simp] theorem PerCh.get_ch1 {α : Type} (x : PerCh α) : x.get .ch1 = x.ch1 := rfl

@[simp] theorem PerCh.get_both {α : Type} (v : α) (c : Chan) : (PerCh.both v).get c = v := by
  cases c <;> rfl

@[simp] theorem PerCh.get_set_self {α : Type} (x : PerCh α) (c : Chan) (v : α) : (x.set c v).get c = v := by
  cases c <;> rfl

@[simp] theorem PerCh.get_set_other {α : Type} (x : PerCh α) {c d : Chan} (v : α) (h : d ≠ c) :
    (x.set c v).get d = x.get d := by
  cases c <;> cases d <;> first | rfl | exact absurd rfl h

/-- A property of every entry of an array after one entry is written. -/
theorem PerCh.forall_get_set {α : Type} {p : Chan → α → Prop} {x : PerCh α} {c : Chan} {v : α}
    (hx : ∀ d, p d (x.get d)) (hv : p c v) (d : Chan) : p d ((x.set c v).get d) := by
  by_cases h : d = c
  · subst h; simpa using hv
  · rw [PerCh.get_set_other x v h]; exact hx d

/-- A property of both channels, and a property of every channel. -/
theorem forall_chan {p : Chan → Prop} : (∀ c, p c) ↔ p .ch0 ∧ p .ch1 :=
  ⟨fun h => ⟨h _, h _⟩, fun h c => by cases c; exacts [h.1, h.2]⟩

@[simp] theorem State.ret_now (s : State) (r : Result) : (s.ret r).now = s.now := rfl
@[simp] theorem State.ret_riseTs (s : State) (r : Result) : (s.ret r).riseTs = s.riseTs := rfl
@[simp] theorem State.ret_armed (s : State) (r : Result) : (s.ret r).armed = s.armed := rfl
@[simp] theorem State.ret_record (s : State) (r : Result) : (s.ret r).record = s.record := rfl
@[simp] theorem State.ret_rxBuf (s : State) (r : Result) : (s.ret r).rxBuf = s.rxBuf := rfl
@[simp] theorem State.ret_txFifo (s : State) (r : Result) : (s.ret r).txFifo = s.txFifo := rfl
@[simp] theorem State.ret_cnt (s : State) (r : Result) : (s.ret r).cnt = s.cnt := rfl
@[simp] theorem State.ret_pwmEnabled (s : State) (r : Result) : (s.ret r).pwmEnabled = s.pwmEnabled := rfl
@[simp] theorem State.ret_periodStart (s : State) (r : Result) : (s.ret r).periodStart = s.periodStart := rfl
@[simp] theorem State.ret_pwShadow (s : State) (r : Result) : (s.ret r).pwShadow = s.pwShadow := rfl
@[simp] theorem State.ret_pwActive (s : State) (r : Result) : (s.ret r).pwActive = s.pwActive := rfl
@[simp] theorem State.ret_txLine (s : State) (r : Result) : (s.ret r).txLine = s.txLine := rfl
@[simp] theorem State.ret_pwmTrace (s : State) (r : Result) : (s.ret r).pwmTrace = s.pwmTrace := rfl
@[simp] theorem State.ret_params (s : State) (r : Result) : (s.ret r).params = s.params := rfl
@[simp] theorem State.ret_result (s : State) (r : Result) : (s.ret r).result = r := rfl
@[simp] theorem State.ret_input (s : State) (r : Result) : (s.ret r).input = s.input := rfl

@[simp] theorem State.issueFirst_now (s : State) (bs : List Byte) : (s.issueFirst bs).now = s.now := rfl
@[simp] theorem State.issueFirst_riseTs (s : State) (bs : List Byte) : (s.issueFirst bs).riseTs = s.riseTs := rfl
@[simp] theorem State.issueFirst_armed (s : State) (bs : List Byte) : (s.issueFirst bs).armed = s.armed := rfl
@[simp] theorem State.issueFirst_record (s : State) (bs : List Byte) : (s.issueFirst bs).record = s.record := rfl
@[simp] theorem State.issueFirst_rxBuf (s : State) (bs : List Byte) : (s.issueFirst bs).rxBuf = s.rxBuf := rfl
@[simp] theorem State.issueFirst_txFifo (s : State) (bs : List Byte) : (s.issueFirst bs).txFifo = s.txFifo := rfl
@[simp] theorem State.issueFirst_cnt (s : State) (bs : List Byte) : (s.issueFirst bs).cnt = s.cnt := rfl
@[simp] theorem State.issueFirst_pwmEnabled (s : State) (bs : List Byte) : (s.issueFirst bs).pwmEnabled = s.pwmEnabled := rfl
@[simp] theorem State.issueFirst_periodStart (s : State) (bs : List Byte) : (s.issueFirst bs).periodStart = s.periodStart := rfl
@[simp] theorem State.issueFirst_pwShadow (s : State) (bs : List Byte) : (s.issueFirst bs).pwShadow = s.pwShadow := rfl
@[simp] theorem State.issueFirst_pwActive (s : State) (bs : List Byte) : (s.issueFirst bs).pwActive = s.pwActive := rfl
@[simp] theorem State.issueFirst_txLine (s : State) (bs : List Byte) : (s.issueFirst bs).txLine = s.txLine := rfl
@[simp] theorem State.issueFirst_pwmTrace (s : State) (bs : List Byte) : (s.issueFirst bs).pwmTrace = s.pwmTrace := rfl
@[simp] theorem State.issueFirst_params (s : State) (bs : List Byte) : (s.issueFirst bs).params = s.params := rfl
@[simp] theorem State.issueFirst_result (s : State) (bs : List Byte) : (s.issueFirst bs).result = s.result := rfl
@[simp] theorem State.issueFirst_input (s : State) (bs : List Byte) :
    (s.issueFirst bs).input = .script bs :: s.input := rfl

@[simp] theorem State.setNow_now (s : State) (t : Nat) : (s.setNow t).now = t := rfl
@[simp] theorem State.setNow_riseTs (s : State) (t : Nat) : (s.setNow t).riseTs = s.riseTs := rfl
@[simp] theorem State.setNow_armed (s : State) (t : Nat) : (s.setNow t).armed = s.armed := rfl
@[simp] theorem State.setNow_record (s : State) (t : Nat) : (s.setNow t).record = s.record := rfl
@[simp] theorem State.setNow_rxBuf (s : State) (t : Nat) : (s.setNow t).rxBuf = s.rxBuf := rfl
@[simp] theorem State.setNow_txFifo (s : State) (t : Nat) : (s.setNow t).txFifo = s.txFifo := rfl
@[simp] theorem State.setNow_cnt (s : State) (t : Nat) : (s.setNow t).cnt = s.cnt := rfl
@[simp] theorem State.setNow_pwmEnabled (s : State) (t : Nat) : (s.setNow t).pwmEnabled = s.pwmEnabled := rfl
@[simp] theorem State.setNow_periodStart (s : State) (t : Nat) : (s.setNow t).periodStart = s.periodStart := rfl
@[simp] theorem State.setNow_pwShadow (s : State) (t : Nat) : (s.setNow t).pwShadow = s.pwShadow := rfl
@[simp] theorem State.setNow_pwActive (s : State) (t : Nat) : (s.setNow t).pwActive = s.pwActive := rfl
@[simp] theorem State.setNow_txLine (s : State) (t : Nat) : (s.setNow t).txLine = s.txLine := rfl
@[simp] theorem State.setNow_pwmTrace (s : State) (t : Nat) : (s.setNow t).pwmTrace = s.pwmTrace := rfl
@[simp] theorem State.setNow_params (s : State) (t : Nat) : (s.setNow t).params = s.params := rfl
@[simp] theorem State.setNow_result (s : State) (t : Nat) : (s.setNow t).result = s.result := rfl
@[simp] theorem State.setNow_input (s : State) (t : Nat) : (s.setNow t).input = s.input := rfl

@[simp] theorem State.setRise_now (s : State) (c : Chan) (t : Nat) : (s.setRise c t).now = s.now := rfl
@[simp] theorem State.setRise_riseTs (s : State) (c : Chan) (t : Nat) : (s.setRise c t).riseTs = s.riseTs.set c t := rfl
@[simp] theorem State.setRise_armed (s : State) (c : Chan) (t : Nat) : (s.setRise c t).armed = s.armed := rfl
@[simp] theorem State.setRise_record (s : State) (c : Chan) (t : Nat) : (s.setRise c t).record = s.record := rfl
@[simp] theorem State.setRise_rxBuf (s : State) (c : Chan) (t : Nat) : (s.setRise c t).rxBuf = s.rxBuf := rfl
@[simp] theorem State.setRise_txFifo (s : State) (c : Chan) (t : Nat) : (s.setRise c t).txFifo = s.txFifo := rfl
@[simp] theorem State.setRise_cnt (s : State) (c : Chan) (t : Nat) : (s.setRise c t).cnt = s.cnt := rfl
@[simp] theorem State.setRise_pwmEnabled (s : State) (c : Chan) (t : Nat) : (s.setRise c t).pwmEnabled = s.pwmEnabled := rfl
@[simp] theorem State.setRise_periodStart (s : State) (c : Chan) (t : Nat) : (s.setRise c t).periodStart = s.periodStart := rfl
@[simp] theorem State.setRise_pwShadow (s : State) (c : Chan) (t : Nat) : (s.setRise c t).pwShadow = s.pwShadow := rfl
@[simp] theorem State.setRise_pwActive (s : State) (c : Chan) (t : Nat) : (s.setRise c t).pwActive = s.pwActive := rfl
@[simp] theorem State.setRise_txLine (s : State) (c : Chan) (t : Nat) : (s.setRise c t).txLine = s.txLine := rfl
@[simp] theorem State.setRise_pwmTrace (s : State) (c : Chan) (t : Nat) : (s.setRise c t).pwmTrace = s.pwmTrace := rfl
@[simp] theorem State.setRise_params (s : State) (c : Chan) (t : Nat) : (s.setRise c t).params = s.params := rfl
@[simp] theorem State.setRise_result (s : State) (c : Chan) (t : Nat) : (s.setRise c t).result = s.result := rfl
@[simp] theorem State.setRise_input (s : State) (c : Chan) (t : Nat) : (s.setRise c t).input = s.input := rfl

@[simp] theorem State.setArmed_now (s : State) (c : Chan) (b : Bool) : (s.setArmed c b).now = s.now := rfl
@[simp] theorem State.setArmed_riseTs (s : State) (c : Chan) (b : Bool) : (s.setArmed c b).riseTs = s.riseTs := rfl
@[simp] theorem State.setArmed_armed (s : State) (c : Chan) (b : Bool) : (s.setArmed c b).armed = s.armed.set c b := rfl
@[simp] theorem State.setArmed_record (s : State) (c : Chan) (b : Bool) : (s.setArmed c b).record = s.record := rfl
@[simp] theorem State.setArmed_rxBuf (s : State) (c : Chan) (b : Bool) : (s.setArmed c b).rxBuf = s.rxBuf := rfl
@[simp] theorem State.setArmed_txFifo (s : State) (c : Chan) (b : Bool) : (s.setArmed c b).txFifo = s.txFifo := rfl
@[simp] theorem State.setArmed_cnt (s : State) (c : Chan) (b : Bool) : (s.setArmed c b).cnt = s.cnt := rfl
@[simp] theorem State.setArmed_pwmEnabled (s : State) (c : Chan) (b : Bool) : (s.setArmed c b).pwmEnabled = s.pwmEnabled := rfl
@[simp] theorem State.setArmed_periodStart (s : State) (c : Chan) (b : Bool) : (s.setArmed c b).periodStart = s.periodStart := rfl
@[simp] theorem State.setArmed_pwShadow (s : State) (c : Chan) (b : Bool) : (s.setArmed c b).pwShadow = s.pwShadow := rfl
@[simp] theorem State.setArmed_pwActive (s : State) (c : Chan) (b : Bool) : (s.setArmed c b).pwActive = s.pwActive := rfl
@[simp] theorem State.setArmed_txLine (s : State) (c : Chan) (b : Bool) : (s.setArmed c b).txLine = s.txLine := rfl
@[simp] theorem State.setArmed_pwmTrace (s : State) (c : Chan) (b : Bool) : (s.setArmed c b).pwmTrace = s.pwmTrace := rfl
@[simp] theorem State.setArmed_params (s : State) (c : Chan) (b : Bool) : (s.setArmed c b).params = s.params := rfl
@[simp] theorem State.setArmed_result (s : State) (c : Chan) (b : Bool) : (s.setArmed c b).result = s.result := rfl
@[simp] theorem State.setArmed_input (s : State) (c : Chan) (b : Bool) : (s.setArmed c b).input = s.input := rfl

@[simp] theorem State.setRecord_now (s : State) (c : Chan) (r : RcRecord) : (s.setRecord c r).now = s.now := rfl
@[simp] theorem State.setRecord_riseTs (s : State) (c : Chan) (r : RcRecord) : (s.setRecord c r).riseTs = s.riseTs := rfl
@[simp] theorem State.setRecord_armed (s : State) (c : Chan) (r : RcRecord) : (s.setRecord c r).armed = s.armed := rfl
@[simp] theorem State.setRecord_record (s : State) (c : Chan) (r : RcRecord) : (s.setRecord c r).record = s.record.set c r := rfl
@[simp] theorem State.setRecord_rxBuf (s : State) (c : Chan) (r : RcRecord) : (s.setRecord c r).rxBuf = s.rxBuf := rfl
@[simp] theorem State.setRecord_txFifo (s : State) (c : Chan) (r : RcRecord) : (s.setRecord c r).txFifo = s.txFifo := rfl
@[simp] theorem State.setRecord_cnt (s : State) (c : Chan) (r : RcRecord) : (s.setRecord c r).cnt = s.cnt := rfl
@[simp] theorem State.setRecord_pwmEnabled (s : State) (c : Chan) (r : RcRecord) : (s.setRecord c r).pwmEnabled = s.pwmEnabled := rfl
@[simp] theorem State.setRecord_periodStart (s : State) (c : Chan) (r : RcRecord) : (s.setRecord c r).periodStart = s.periodStart := rfl
@[simp] theorem State.setRecord_pwShadow (s : State) (c : Chan) (r : RcRecord) : (s.setRecord c r).pwShadow = s.pwShadow := rfl
@[simp] theorem State.setRecord_pwActive (s : State) (c : Chan) (r : RcRecord) : (s.setRecord c r).pwActive = s.pwActive := rfl
@[simp] theorem State.setRecord_txLine (s : State) (c : Chan) (r : RcRecord) : (s.setRecord c r).txLine = s.txLine := rfl
@[simp] theorem State.setRecord_pwmTrace (s : State) (c : Chan) (r : RcRecord) : (s.setRecord c r).pwmTrace = s.pwmTrace := rfl
@[simp] theorem State.setRecord_params (s : State) (c : Chan) (r : RcRecord) : (s.setRecord c r).params = s.params := rfl
@[simp] theorem State.setRecord_result (s : State) (c : Chan) (r : RcRecord) : (s.setRecord c r).result = s.result := rfl
@[simp] theorem State.setRecord_input (s : State) (c : Chan) (r : RcRecord) : (s.setRecord c r).input = s.input := rfl

@[simp] theorem State.setRx_now (s : State) (b : List Byte) : (s.setRx b).now = s.now := rfl
@[simp] theorem State.setRx_riseTs (s : State) (b : List Byte) : (s.setRx b).riseTs = s.riseTs := rfl
@[simp] theorem State.setRx_armed (s : State) (b : List Byte) : (s.setRx b).armed = s.armed := rfl
@[simp] theorem State.setRx_record (s : State) (b : List Byte) : (s.setRx b).record = s.record := rfl
@[simp] theorem State.setRx_rxBuf (s : State) (b : List Byte) : (s.setRx b).rxBuf = b := rfl
@[simp] theorem State.setRx_txFifo (s : State) (b : List Byte) : (s.setRx b).txFifo = s.txFifo := rfl
@[simp] theorem State.setRx_cnt (s : State) (b : List Byte) : (s.setRx b).cnt = s.cnt := rfl
@[simp] theorem State.setRx_pwmEnabled (s : State) (b : List Byte) : (s.setRx b).pwmEnabled = s.pwmEnabled := rfl
@[simp] theorem State.setRx_periodStart (s : State) (b : List Byte) : (s.setRx b).periodStart = s.periodStart := rfl
@[simp] theorem State.setRx_pwShadow (s : State) (b : List Byte) : (s.setRx b).pwShadow = s.pwShadow := rfl
@[simp] theorem State.setRx_pwActive (s : State) (b : List Byte) : (s.setRx b).pwActive = s.pwActive := rfl
@[simp] theorem State.setRx_txLine (s : State) (b : List Byte) : (s.setRx b).txLine = s.txLine := rfl
@[simp] theorem State.setRx_pwmTrace (s : State) (b : List Byte) : (s.setRx b).pwmTrace = s.pwmTrace := rfl
@[simp] theorem State.setRx_params (s : State) (b : List Byte) : (s.setRx b).params = s.params := rfl
@[simp] theorem State.setRx_result (s : State) (b : List Byte) : (s.setRx b).result = s.result := rfl
@[simp] theorem State.setRx_input (s : State) (b : List Byte) : (s.setRx b).input = s.input := rfl

@[simp] theorem State.setTx_now (s : State) (b : List Byte) : (s.setTx b).now = s.now := rfl
@[simp] theorem State.setTx_riseTs (s : State) (b : List Byte) : (s.setTx b).riseTs = s.riseTs := rfl
@[simp] theorem State.setTx_armed (s : State) (b : List Byte) : (s.setTx b).armed = s.armed := rfl
@[simp] theorem State.setTx_record (s : State) (b : List Byte) : (s.setTx b).record = s.record := rfl
@[simp] theorem State.setTx_rxBuf (s : State) (b : List Byte) : (s.setTx b).rxBuf = s.rxBuf := rfl
@[simp] theorem State.setTx_txFifo (s : State) (b : List Byte) : (s.setTx b).txFifo = b := rfl
@[simp] theorem State.setTx_cnt (s : State) (b : List Byte) : (s.setTx b).cnt = s.cnt := rfl
@[simp] theorem State.setTx_pwmEnabled (s : State) (b : List Byte) : (s.setTx b).pwmEnabled = s.pwmEnabled := rfl
@[simp] theorem State.setTx_periodStart (s : State) (b : List Byte) : (s.setTx b).periodStart = s.periodStart := rfl
@[simp] theorem State.setTx_pwShadow (s : State) (b : List Byte) : (s.setTx b).pwShadow = s.pwShadow := rfl
@[simp] theorem State.setTx_pwActive (s : State) (b : List Byte) : (s.setTx b).pwActive = s.pwActive := rfl
@[simp] theorem State.setTx_txLine (s : State) (b : List Byte) : (s.setTx b).txLine = s.txLine := rfl
@[simp] theorem State.setTx_pwmTrace (s : State) (b : List Byte) : (s.setTx b).pwmTrace = s.pwmTrace := rfl
@[simp] theorem State.setTx_params (s : State) (b : List Byte) : (s.setTx b).params = s.params := rfl
@[simp] theorem State.setTx_result (s : State) (b : List Byte) : (s.setTx b).result = s.result := rfl
@[simp] theorem State.setTx_input (s : State) (b : List Byte) : (s.setTx b).input = s.input := rfl

@[simp] theorem State.setCnt_now (s : State) (c : Counters) : (s.setCnt c).now = s.now := rfl
@[simp] theorem State.setCnt_riseTs (s : State) (c : Counters) : (s.setCnt c).riseTs = s.riseTs := rfl
@[simp] theorem State.setCnt_armed (s : State) (c : Counters) : (s.setCnt c).armed = s.armed := rfl
@[simp] theorem State.setCnt_record (s : State) (c : Counters) : (s.setCnt c).record = s.record := rfl
@[simp] theorem State.setCnt_rxBuf (s : State) (c : Counters) : (s.setCnt c).rxBuf = s.rxBuf := rfl
@[simp] theorem State.setCnt_txFifo (s : State) (c : Counters) : (s.setCnt c).txFifo = s.txFifo := rfl
@[simp] theorem State.setCnt_cnt (s : State) (c : Counters) : (s.setCnt c).cnt = c := rfl
@[simp] theorem State.setCnt_pwmEnabled (s : State) (c : Counters) : (s.setCnt c).pwmEnabled = s.pwmEnabled := rfl
@[simp] theorem State.setCnt_periodStart (s : State) (c : Counters) : (s.setCnt c).periodStart = s.periodStart := rfl
@[simp] theorem State.setCnt_pwShadow (s : State) (c : Counters) : (s.setCnt c).pwShadow = s.pwShadow := rfl
@[simp] theorem State.setCnt_pwActive (s : State) (c : Counters) : (s.setCnt c).pwActive = s.pwActive := rfl
@[simp] theorem State.setCnt_txLine (s : State) (c : Counters) : (s.setCnt c).txLine = s.txLine := rfl
@[simp] theorem State.setCnt_pwmTrace (s : State) (c : Counters) : (s.setCnt c).pwmTrace = s.pwmTrace := rfl
@[simp] theorem State.setCnt_params (s : State) (c : Counters) : (s.setCnt c).params = s.params := rfl
@[simp] theorem State.setCnt_result (s : State) (c : Counters) : (s.setCnt c).result = s.result := rfl
@[simp] theorem State.setCnt_input (s : State) (c : Counters) : (s.setCnt c).input = s.input := rfl

@[simp] theorem State.setShadow_now (s : State) (p : PerCh Word16) : (s.setShadow p).now = s.now := rfl
@[simp] theorem State.setShadow_riseTs (s : State) (p : PerCh Word16) : (s.setShadow p).riseTs = s.riseTs := rfl
@[simp] theorem State.setShadow_armed (s : State) (p : PerCh Word16) : (s.setShadow p).armed = s.armed := rfl
@[simp] theorem State.setShadow_record (s : State) (p : PerCh Word16) : (s.setShadow p).record = s.record := rfl
@[simp] theorem State.setShadow_rxBuf (s : State) (p : PerCh Word16) : (s.setShadow p).rxBuf = s.rxBuf := rfl
@[simp] theorem State.setShadow_txFifo (s : State) (p : PerCh Word16) : (s.setShadow p).txFifo = s.txFifo := rfl
@[simp] theorem State.setShadow_cnt (s : State) (p : PerCh Word16) : (s.setShadow p).cnt = s.cnt := rfl
@[simp] theorem State.setShadow_pwmEnabled (s : State) (p : PerCh Word16) : (s.setShadow p).pwmEnabled = s.pwmEnabled := rfl
@[simp] theorem State.setShadow_periodStart (s : State) (p : PerCh Word16) : (s.setShadow p).periodStart = s.periodStart := rfl
@[simp] theorem State.setShadow_pwShadow (s : State) (p : PerCh Word16) : (s.setShadow p).pwShadow = p := rfl
@[simp] theorem State.setShadow_pwActive (s : State) (p : PerCh Word16) : (s.setShadow p).pwActive = s.pwActive := rfl
@[simp] theorem State.setShadow_txLine (s : State) (p : PerCh Word16) : (s.setShadow p).txLine = s.txLine := rfl
@[simp] theorem State.setShadow_pwmTrace (s : State) (p : PerCh Word16) : (s.setShadow p).pwmTrace = s.pwmTrace := rfl
@[simp] theorem State.setShadow_params (s : State) (p : PerCh Word16) : (s.setShadow p).params = s.params := rfl
@[simp] theorem State.setShadow_result (s : State) (p : PerCh Word16) : (s.setShadow p).result = s.result := rfl
@[simp] theorem State.setShadow_input (s : State) (p : PerCh Word16) : (s.setShadow p).input = s.input := rfl

@[simp] theorem State.enablePwm_now (s : State) : (s.enablePwm).now = s.now := rfl
@[simp] theorem State.enablePwm_riseTs (s : State) : (s.enablePwm).riseTs = s.riseTs := rfl
@[simp] theorem State.enablePwm_armed (s : State) : (s.enablePwm).armed = s.armed := rfl
@[simp] theorem State.enablePwm_record (s : State) : (s.enablePwm).record = s.record := rfl
@[simp] theorem State.enablePwm_rxBuf (s : State) : (s.enablePwm).rxBuf = s.rxBuf := rfl
@[simp] theorem State.enablePwm_txFifo (s : State) : (s.enablePwm).txFifo = s.txFifo := rfl
@[simp] theorem State.enablePwm_cnt (s : State) : (s.enablePwm).cnt = s.cnt := rfl
@[simp] theorem State.enablePwm_pwmEnabled (s : State) : (s.enablePwm).pwmEnabled = true := rfl
@[simp] theorem State.enablePwm_periodStart (s : State) : (s.enablePwm).periodStart = s.periodStart := rfl
@[simp] theorem State.enablePwm_pwShadow (s : State) : (s.enablePwm).pwShadow = s.pwShadow := rfl
@[simp] theorem State.enablePwm_pwActive (s : State) : (s.enablePwm).pwActive = s.pwActive := rfl
@[simp] theorem State.enablePwm_txLine (s : State) : (s.enablePwm).txLine = s.txLine := rfl
@[simp] theorem State.enablePwm_pwmTrace (s : State) : (s.enablePwm).pwmTrace = s.pwmTrace := rfl
@[simp] theorem State.enablePwm_params (s : State) : (s.enablePwm).params = s.params := rfl
@[simp] theorem State.enablePwm_result (s : State) : (s.enablePwm).result = s.result := rfl
@[simp] theorem State.enablePwm_input (s : State) : (s.enablePwm).input = s.input := rfl

@[simp] theorem State.emit_now (s : State) (b : Byte) : (s.emit b).now = s.now := rfl
@[simp] theorem State.emit_riseTs (s : State) (b : Byte) : (s.emit b).riseTs = s.riseTs := rfl
@[simp] theorem State.emit_armed (s : State) (b : Byte) : (s.emit b).armed = s.armed := rfl
@[simp] theorem State.emit_record (s : State) (b : Byte) : (s.emit b).record = s.record := rfl
@[simp] theorem State.emit_rxBuf (s : State) (b : Byte) : (s.emit b).rxBuf = s.rxBuf := rfl
@[simp] theorem State.emit_txFifo (s : State) (b : Byte) : (s.emit b).txFifo = s.txFifo := rfl
@[simp] theorem State.emit_cnt (s : State) (b : Byte) : (s.emit b).cnt = s.cnt := rfl
@[simp] theorem State.emit_pwmEnabled (s : State) (b : Byte) : (s.emit b).pwmEnabled = s.pwmEnabled := rfl
@[simp] theorem State.emit_periodStart (s : State) (b : Byte) : (s.emit b).periodStart = s.periodStart := rfl
@[simp] theorem State.emit_pwShadow (s : State) (b : Byte) : (s.emit b).pwShadow = s.pwShadow := rfl
@[simp] theorem State.emit_pwActive (s : State) (b : Byte) : (s.emit b).pwActive = s.pwActive := rfl
@[simp] theorem State.emit_txLine (s : State) (b : Byte) : (s.emit b).txLine = s.txLine ++ [b] := rfl
@[simp] theorem State.emit_pwmTrace (s : State) (b : Byte) : (s.emit b).pwmTrace = s.pwmTrace := rfl
@[simp] theorem State.emit_params (s : State) (b : Byte) : (s.emit b).params = s.params := rfl
@[simp] theorem State.emit_result (s : State) (b : Byte) : (s.emit b).result = s.result := rfl
@[simp] theorem State.emit_input (s : State) (b : Byte) : (s.emit b).input = s.input := rfl

@[simp] theorem State.startPeriod_now (s : State) (p : PerCh Word16) : (s.startPeriod p).now = s.now := rfl
@[simp] theorem State.startPeriod_riseTs (s : State) (p : PerCh Word16) : (s.startPeriod p).riseTs = s.riseTs := rfl
@[simp] theorem State.startPeriod_armed (s : State) (p : PerCh Word16) : (s.startPeriod p).armed = s.armed := rfl
@[simp] theorem State.startPeriod_record (s : State) (p : PerCh Word16) : (s.startPeriod p).record = s.record := rfl
@[simp] theorem State.startPeriod_rxBuf (s : State) (p : PerCh Word16) : (s.startPeriod p).rxBuf = s.rxBuf := rfl
@[simp] theorem State.startPeriod_txFifo (s : State) (p : PerCh Word16) : (s.startPeriod p).txFifo = s.txFifo := rfl
@[simp] theorem State.startPeriod_cnt (s : State) (p : PerCh Word16) : (s.startPeriod p).cnt = s.cnt := rfl
@[simp] theorem State.startPeriod_pwmEnabled (s : State) (p : PerCh Word16) : (s.startPeriod p).pwmEnabled = s.pwmEnabled := rfl
@[simp] theorem State.startPeriod_periodStart (s : State) (p : PerCh Word16) : (s.startPeriod p).periodStart = s.now := rfl
@[simp] theorem State.startPeriod_pwShadow (s : State) (p : PerCh Word16) : (s.startPeriod p).pwShadow = s.pwShadow := rfl
@[simp] theorem State.startPeriod_pwActive (s : State) (p : PerCh Word16) : (s.startPeriod p).pwActive = p := rfl
@[simp] theorem State.startPeriod_txLine (s : State) (p : PerCh Word16) : (s.startPeriod p).txLine = s.txLine := rfl
@[simp] theorem State.startPeriod_pwmTrace (s : State) (p : PerCh Word16) : (s.startPeriod p).pwmTrace = s.pwmTrace ++ [⟨s.now, p.ch0, p.ch1⟩] := rfl
@[simp] theorem State.startPeriod_params (s : State) (p : PerCh Word16) : (s.startPeriod p).params = s.params := rfl
@[simp] theorem State.startPeriod_result (s : State) (p : PerCh Word16) : (s.startPeriod p).result = s.result := rfl
@[simp] theorem State.startPeriod_input (s : State) (p : PerCh Word16) : (s.startPeriod p).input = s.input := rfl

@[simp] theorem State.ret_ret (s : State) (r r' : Result) : (s.ret r).ret r' = s.ret r' := rfl

@[simp] theorem State.ret_setRx (s : State) (r : Result) (b : List Byte) :
    (s.ret r).setRx b = (s.setRx b).ret r := rfl

@[simp] theorem State.setRx_setRx (s : State) (b b' : List Byte) : (s.setRx b).setRx b' = s.setRx b' := rfl

@[simp] theorem State.setRx_self (s : State) : s.setRx s.rxBuf = s := rfl

@[simp] theorem State.setCnt_self (s : State) : s.setCnt s.cnt = s := rfl

@[simp] theorem State.setNow_setNow (s : State) (t u : Nat) : (s.setNow t).setNow u = s.setNow u := rfl

end Sys2Proof.Machine
end

