-- ==== Sys2Proof/Laws/Checks.lean ====
section
/-!
SUPPORT. The checks of the operations as propositions, one lemma per check, and everything the shared operand forms can do.
-/

namespace Sys2Proof.Machine

/-- Rule R127. -/
theorem fresh_iff (s : State) (c : Chan) :
    fresh s c = true ↔ (s.record.get c).valid = true ∧
      tsub s.params s.now (s.record.get c).acceptTs < s.params.rcTimeoutMs * 1000 := by
  unfold fresh Params.rcTimeoutUs
  rw [Bool.and_eq_true, decide_eq_true_eq]

/-- Rule R126: what a channel reads. -/
theorem readChannel_eq (s : State) (c : Chan) :
    readChannel s c =
      if (s.record.get c).valid = true ∧ tsub s.params s.now (s.record.get c).acceptTs < s.params.rcTimeoutMs * 1000 then
        some (pulseToAxis s.params (s.record.get c).widthUs.toNat)
      else none := by
  unfold readChannel
  simp only [fresh_iff]

/-- Rule R122: the acceptance window. -/
theorem inWindow_iff (P : Params) (w : Nat) :
    inWindow P w = true ↔ P.rcPulseMinUs ≤ w ∧ w ≤ P.rcPulseMaxUs := by
  unfold inWindow
  rw [Bool.and_eq_true, decide_eq_true_eq, decide_eq_true_eq]

/-- Rule R83: the four codes. -/
theorem knownType_iff (P : Params) (t : Byte) :
    knownType P t = true ↔ t ∈ [P.mtCommand, P.mtTelem, P.mtPing, P.mtPong] := by
  simp [knownType, or_assoc]

/-- Rules R90, R92: the length a type fixes. -/
theorem typeLenOk_iff (P : Params) (t : Byte) (n : Nat) :
    typeLenOk P t n = true ↔ (t = P.mtCommand → n = 8) ∧ (t = P.mtTelem → n = 22 + P.telemStatusBytes) := by
  simp only [typeLenOk, Params.telemPayloadLen, Bool.and_eq_true, Bool.or_eq_true, bne_iff_ne, beq_iff_eq,
    imp_iff_not_or, ne_eq]

theorem channelOf_zero : channelOf 0 = some .ch0 := rfl
theorem channelOf_one : channelOf 1 = some .ch1 := rfl

@[simp] theorem channelOf_toByte (c : Chan) : channelOf c.toByte = some c := by cases c <;> rfl

/-- A channel byte of 2 or more names no channel (rules R126 (d), R194). -/
theorem channelOf_none {b : Byte} (h : 2 ≤ b.toNat) : channelOf b = none := by
  unfold channelOf Chan.ofByte
  rw [if_neg, if_neg] <;> (intro e; subst e; simp at h)

/-- A channel byte below 2 names a channel. -/
theorem channelOf_some {b : Byte} (h : b.toNat < 2) : ∃ c : Chan, channelOf b = some c ∧ b = c.toByte := by
  rcases (by omega : b.toNat = 0 ∨ b.toNat = 1) with h | h
  · exact ⟨.ch0, by rw [show b = 0 from BitVec.eq_of_toNat_eq (by simpa using h)]; exact ⟨rfl, rfl⟩⟩
  · exact ⟨.ch1, by rw [show b = 1 from BitVec.eq_of_toNat_eq (by simpa using h)]; exact ⟨rfl, rfl⟩⟩

theorem clampNat_bounds {q lo hi : Nat} (h : lo ≤ hi) : lo ≤ clampNat q lo hi ∧ clampNat q lo hi ≤ hi := by
  unfold clampNat; split_ifs <;> omega

theorem clampNat_of_mem {q lo hi : Nat} (h : lo ≤ q) (h' : q ≤ hi) : clampNat q lo hi = q := by
  unfold clampNat; split_ifs <;> omega

/-- The clamped operand fits 16 bits: clamped, not truncated (rule R322). -/
theorem pulseOperand_toNat {P : Params} (h : P.Valid) (us : Nat) :
    (pulseOperand P us).toNat = clampNat us P.minUs P.maxUs := by
  obtain ⟨_, _, ⟨h1, h2, h3, h4⟩, _⟩ := h
  have := (clampNat_bounds (q := us) (lo := P.minUs) (hi := P.maxUs) (by omega)).2
  simp [pulseOperand]; omega

/-- NEUTRAL_US fits 16 bits. -/
theorem neutral_toNat {P : Params} (h : P.Valid) : (BitVec.ofNat 16 P.neutralUs).toNat = P.neutralUs := by
  obtain ⟨_, _, ⟨h1, h2, h3, h4⟩, _⟩ := h
  simp; omega

/-- Everything AD.SETPW and AD.SETAXIS can do (rules R194, R262). -/
theorem writePulse_cases (s : State) (ch : Byte) (us : Nat) :
    (channelOf ch = none ∧ writePulse s ch us = s.ret (.status .badChannel)) ∨
      (∃ c, channelOf ch = some c ∧ s.pwmEnabled = false ∧ writePulse s ch us = s.ret (.status .notInit)) ∨
      ∃ c, channelOf ch = some c ∧ s.pwmEnabled = true ∧
        writePulse s ch us = (s.setShadow (s.pwShadow.set c (pulseOperand s.params us))).ret (.status .ok) := by
  unfold writePulse
  cases hc : channelOf ch with
  | none => exact Or.inl ⟨rfl, rfl⟩
  | some c =>
    cases he : s.pwmEnabled with
    | false => exact Or.inr (Or.inl ⟨c, rfl, rfl, rfl⟩)
    | true => exact Or.inr (Or.inr ⟨c, rfl, rfl, rfl⟩)

end Sys2Proof.Machine
end

