-- ==== Sys2Proof/Laws/Link.lean ====
section
/-!
SUPPORT. Laws of the serial link: bytes arriving, and the parser loop of rule R156 without its fuel.
-/

namespace Sys2Proof.Machine

/-- What one received byte can do (rule R152). -/
theorem rxByte_cases (s : State) (b : Byte) :
    (s.rxBuf.length < s.params.rxBufCap ∧ rxByte s b = s.setRx (s.rxBuf ++ [b])) ∨
      (s.params.rxBufCap ≤ s.rxBuf.length ∧ rxByte s b = s.setCnt (s.cnt.countOverrun s.params)) := by
  unfold rxByte
  split
  · next h => exact Or.inl ⟨h, rfl⟩
  · next h => exact Or.inr ⟨Nat.le_of_not_lt h, rfl⟩

@[simp] theorem rxBytes_nil (s : State) : rxBytes s [] = s := rfl
@[simp] theorem rxBytes_cons (s : State) (b : Byte) (bs : List Byte) :
    rxBytes s (b :: bs) = rxBytes (rxByte s b) bs := rfl

@[simp] theorem rxByte_params (s : State) (b : Byte) : (rxByte s b).params = s.params := by
  rcases rxByte_cases s b with ⟨_, h⟩ | ⟨_, h⟩ <;> rw [h] <;> rfl

/-- Bytes that fit are appended in order and nothing else changes. -/
theorem rxBytes_fits (s : State) (bs : List Byte) (h : s.rxBuf.length + bs.length ≤ s.params.rxBufCap) :
    rxBytes s bs = s.setRx (s.rxBuf ++ bs) := by
  induction bs generalizing s with
  | nil => simp
  | cons b bs ih =>
    simp only [List.length_cons] at h
    rcases rxByte_cases s b with ⟨_, e⟩ | ⟨hf, _⟩
    · rw [rxBytes_cons, e, ih]
      · simp [State.setRx]
      · simp; omega
    · omega

/-- Arriving bytes write `rx_buf` and the overrun counter only, and the buffer keeps to its capacity (rule R40). -/
theorem rxBytes_frame (s : State) (bs : List Byte) :
    (∃ lost, rxBytes s bs = (s.setRx (rxBytes s bs).rxBuf).setCnt { s.cnt with overrun := lost }) ∧
      s.rxBuf <+: (rxBytes s bs).rxBuf := by
  induction bs generalizing s with
  | nil => exact ⟨⟨s.cnt.overrun, rfl⟩, List.prefix_rfl⟩
  | cons b bs ih =>
    obtain ⟨⟨lost, h1⟩, h2⟩ := ih (rxByte s b)
    rw [rxBytes_cons]
    rcases rxByte_cases s b with ⟨_, e⟩ | ⟨_, e⟩
    · rw [e] at h1 h2 ⊢
      exact ⟨⟨lost, h1⟩, (List.prefix_append _ _).trans h2⟩
    · rw [e] at h1 h2 ⊢
      exact ⟨⟨lost, h1⟩, h2⟩

theorem rxBytes_length_le (s : State) (bs : List Byte) (h : s.rxBuf.length ≤ s.params.rxBufCap) :
    (rxBytes s bs).rxBuf.length ≤ s.params.rxBufCap := by
  induction bs generalizing s with
  | nil => exact h
  | cons b bs ih =>
    rw [rxBytes_cons]
    have := ih (rxByte s b)
    rw [rxByte_params] at this
    apply this
    rcases rxByte_cases s b with ⟨hl, e⟩ | ⟨_, e⟩ <;> rw [e]
    · simp; omega
    · exact h

/-- The preamble matches and the header is complete, its declared length `L` (the first five tests of rule R156). -/
def HeaderAt (P : Params) (B : List Byte) (L : Nat) : Prop :=
  6 ≤ B.length ∧ byteAt B 0 = P.preamble0 ∧ byteAt B 1 = P.preamble1 ∧ (word16At B 4).toNat = L

/-- A candidate that is there whole and whose CRC matches (rule R158). -/
def CandidateAt (P : Params) (B : List Byte) (L : Nat) : Prop :=
  HeaderAt P B L ∧ L ≤ P.maxPayloadLen ∧ 8 + L ≤ B.length ∧ word16At B (6 + L) = crc16 P (slice B 2 (4 + L))

/-- Version, type and per-type length are those of a frame this block takes (rule R159). -/
def UsableAt (P : Params) (B : List Byte) (L : Nat) : Prop :=
  byteAt B 2 = P.protoVersion ∧ knownType P (byteAt B 3) = true ∧ typeLenOk P (byteAt B 3) L = true

/-- Everything one pass of the parser can find (rule R156): the outcome and the whole condition under which it is found. -/
theorem scan_cases (P : Params) (B : List Byte) :
    (scan P B = .wait ∧
        (B.length < 1 ∨ byteAt B 0 = P.preamble0 ∧ (B.length < 2 ∨ byteAt B 1 = P.preamble1 ∧ (B.length < 6 ∨
          (word16At B 4).toNat ≤ P.maxPayloadLen ∧ B.length < 8 + (word16At B 4).toNat)))) ∨
      (scan P B = .mismatch ∧
        (1 ≤ B.length ∧ byteAt B 0 ≠ P.preamble0 ∨
          2 ≤ B.length ∧ byteAt B 0 = P.preamble0 ∧ byteAt B 1 ≠ P.preamble1)) ∨
      ∃ L, HeaderAt P B L ∧
        ((scan P B = .oversize ∧ P.maxPayloadLen < L) ∨
          (scan P B = .badCrc ∧ L ≤ P.maxPayloadLen ∧ 8 + L ≤ B.length ∧
            word16At B (6 + L) ≠ crc16 P (slice B 2 (4 + L))) ∨
          (scan P B = .unusable (8 + L) ∧ CandidateAt P B L ∧ ¬ UsableAt P B L) ∨
          (scan P B = .exposed (8 + L) ⟨byteAt B 3, slice B 6 L⟩ ∧ CandidateAt P B L ∧ UsableAt P B L)) := by
  unfold scan
  by_cases h1 : B.length < 1
  · exact Or.inl ⟨if_pos h1, Or.inl h1⟩
  rw [if_neg h1]
  by_cases h2 : byteAt B 0 = P.preamble0
  swap
  · exact Or.inr (Or.inl ⟨if_pos h2, Or.inl ⟨by omega, h2⟩⟩)
  rw [if_neg (not_not.mpr h2)]
  by_cases h3 : B.length < 2
  · exact Or.inl ⟨if_pos h3, Or.inr ⟨h2, Or.inl h3⟩⟩
  rw [if_neg h3]
  by_cases h4 : byteAt B 1 = P.preamble1
  swap
  · exact Or.inr (Or.inl ⟨if_pos h4, Or.inr ⟨by omega, h2, h4⟩⟩)
  rw [if_neg (not_not.mpr h4)]
  by_cases h5 : B.length < 6
  · exact Or.inl ⟨if_pos h5, Or.inr ⟨h2, Or.inr ⟨h4, Or.inl h5⟩⟩⟩
  rw [if_neg h5]
  generalize hL : (word16At B 4).toNat = L
  have hh : HeaderAt P B L := ⟨by omega, h2, h4, hL⟩
  by_cases h6 : P.maxPayloadLen < L
  · exact Or.inr (Or.inr ⟨L, hh, Or.inl ⟨if_pos h6, h6⟩⟩)
  simp only [if_neg h6]
  by_cases h7 : B.length < 8 + L
  · exact Or.inl ⟨if_pos h7, Or.inr ⟨h2, Or.inr ⟨h4, Or.inr ⟨by omega, h7⟩⟩⟩⟩
  rw [if_neg h7]
  by_cases h8 : word16At B (6 + L) = crc16 P (slice B 2 (4 + L))
  swap
  · exact Or.inr (Or.inr ⟨L, hh, Or.inr (Or.inl ⟨if_pos h8, by omega, by omega, h8⟩)⟩)
  rw [if_neg (not_not.mpr h8)]
  have hc : CandidateAt P B L := ⟨hh, by omega, by omega, h8⟩
  by_cases h9 : UsableAt P B L
  · exact Or.inr (Or.inr ⟨L, hh, Or.inr (Or.inr (Or.inr ⟨if_pos h9, hc, h9⟩))⟩)
  · exact Or.inr (Or.inr ⟨L, hh, Or.inr (Or.inr (Or.inl ⟨if_neg h9, hc, h9⟩))⟩)

/-- A pass that drops bytes was made on a buffer that holds them. -/
theorem scan_length {P : Params} {B : List Byte} :
    (scan P B = .mismatch → 1 ≤ B.length) ∧ (scan P B = .oversize → 6 ≤ B.length) ∧
      (scan P B = .badCrc → 6 ≤ B.length) ∧ (∀ n, scan P B = .unusable n → 8 ≤ n ∧ n ≤ B.length) ∧
      (∀ n f, scan P B = .exposed n f → 8 ≤ n ∧ n ≤ B.length) := by
  rcases scan_cases P B with ⟨e, _⟩ | ⟨e, h⟩ | ⟨L, hh, ⟨e, _⟩ | ⟨e, _⟩ | ⟨e, hc, _⟩ | ⟨e, hc, _⟩⟩ <;> rw [e]
  · simp
  · refine ⟨fun _ => ?_, ?_, ?_, ?_, ?_⟩ <;> first | (intros; contradiction) | omega
  · simpa using hh.1
  · simpa using hh.1
  · have := hc.2.2.1
    refine ⟨?_, ?_, ?_, fun n hn => ?_, ?_⟩ <;> first | (intros; contradiction) | skip
    injection hn with hn; omega
  · have := hc.2.2.1
    refine ⟨?_, ?_, ?_, ?_, fun n f hn => ?_⟩ <;> first | (intros; contradiction) | skip
    injection hn with hn; omega

/-- With fuel above the length of the buffer the loop does not depend on the fuel (rule R161). -/
theorem pollLoop_fuel (P : Params) : ∀ (k m : Nat) (B : List Byte) (c : Counters),
    B.length < k → B.length < m → pollLoop P k B c = pollLoop P m B c := by
  intro k
  induction k with
  | zero => intro m B c h; omega
  | succ k ih =>
    intro m B c hk hm
    cases m with
    | zero => omega
    | succ m =>
      have hl := scan_length (P := P) (B := B)
      unfold pollLoop
      cases hs : scan P B with
      | wait => rfl
      | exposed n f => rfl
      | mismatch =>
        have := hl.1 hs
        exact ih m _ _ (by simp; omega) (by simp; omega)
      | oversize =>
        have := hl.2.1 hs
        exact ih m _ _ (by simp; omega) (by simp; omega)
      | badCrc =>
        have := hl.2.2.1 hs
        exact ih m _ _ (by simp; omega) (by simp; omega)
      | unusable n =>
        have := hl.2.2.2.1 n hs
        exact ih m _ _ (by simp; omega) (by simp; omega)

/-- The parser, one pass unrolled and the rest a call again (rule R156): the lemma to cite instead of the loop. -/
theorem poll_eq (P : Params) (B : List Byte) (c : Counters) :
    poll P B c =
      match scan P B with
      | .wait => ⟨B, c, none⟩
      | .mismatch => poll P (B.drop 1) c
      | .oversize => poll P (B.drop 1) (c.countOversize P)
      | .badCrc => poll P (B.drop 1) (c.countCrc P)
      | .unusable n => poll P (B.drop n) (c.countFormat P)
      | .exposed n f => ⟨B.drop n, c.countOk P, some f⟩ := by
  have hl := scan_length (P := P) (B := B)
  unfold poll
  rw [pollLoop]
  cases hs : scan P B with
  | wait => rfl
  | exposed n f => rfl
  | mismatch =>
    have := hl.1 hs
    exact pollLoop_fuel P _ _ _ _ (by simp; omega) (by simp)
  | oversize =>
    have := hl.2.1 hs
    exact pollLoop_fuel P _ _ _ _ (by simp; omega) (by simp)
  | badCrc =>
    have := hl.2.2.1 hs
    exact pollLoop_fuel P _ _ _ _ (by simp; omega) (by simp)
  | unusable n =>
    have := hl.2.2.2.1 n hs
    exact pollLoop_fuel P _ _ _ _ (by simp; omega) (by simp)

/-- Induction over the passes of the parser: a property of its three outcomes that every dropping pass hands on holds of every
call. -/
theorem poll_induction {P : Params} {motive : List Byte → Counters → Polled → Prop}
    (wait : ∀ B c, scan P B = .wait → motive B c ⟨B, c, none⟩)
    (mismatch : ∀ B c, scan P B = .mismatch → motive (B.drop 1) c (poll P (B.drop 1) c) → motive B c (poll P (B.drop 1) c))
    (oversize : ∀ B c, scan P B = .oversize →
      motive (B.drop 1) (c.countOversize P) (poll P (B.drop 1) (c.countOversize P)) →
        motive B c (poll P (B.drop 1) (c.countOversize P)))
    (badCrc : ∀ B c, scan P B = .badCrc →
      motive (B.drop 1) (c.countCrc P) (poll P (B.drop 1) (c.countCrc P)) → motive B c (poll P (B.drop 1) (c.countCrc P)))
    (unusable : ∀ B c n, scan P B = .unusable n →
      motive (B.drop n) (c.countFormat P) (poll P (B.drop n) (c.countFormat P)) →
        motive B c (poll P (B.drop n) (c.countFormat P)))
    (exposed : ∀ B c n f, scan P B = .exposed n f → motive B c ⟨B.drop n, c.countOk P, some f⟩)
    (B : List Byte) (c : Counters) : motive B c (poll P B c) := by
  induction hn : B.length using Nat.strong_induction_on generalizing B c with
  | _ n ih =>
    subst hn
    have hl := scan_length (P := P) (B := B)
    rw [poll_eq]
    cases hs : scan P B with
    | wait => exact wait B c hs
    | exposed n f => exact exposed B c n f hs
    | mismatch =>
      have := hl.1 hs
      exact mismatch B c hs (ih _ (by simp; omega) _ _ rfl)
    | oversize =>
      have := hl.2.1 hs
      exact oversize B c hs (ih _ (by simp; omega) _ _ rfl)
    | badCrc =>
      have := hl.2.2.1 hs
      exact badCrc B c hs (ih _ (by simp; omega) _ _ rfl)
    | unusable n =>
      have := hl.2.2.2.1 n hs
      exact unusable B c n hs (ih _ (by simp; omega) _ _ rfl)

/-- The parser removes bytes from the head only and never touches the overrun counter (rule R327 (b)). -/
theorem poll_suffix (P : Params) (B : List Byte) (c : Counters) :
    (poll P B c).buf <:+ B ∧ (poll P B c).cnt.overrun = c.overrun := by
  refine poll_induction (P := P) (motive := fun B c r => r.buf <:+ B ∧ r.cnt.overrun = c.overrun) ?_ ?_ ?_ ?_ ?_ ?_ B c
  · intro B c _; exact ⟨List.suffix_rfl, rfl⟩
  all_goals intros
  · next B c _ h => exact ⟨h.1.trans (List.drop_suffix _ _), h.2⟩
  · next B c _ h => exact ⟨h.1.trans (List.drop_suffix _ _), h.2⟩
  · next B c _ h => exact ⟨h.1.trans (List.drop_suffix _ _), h.2⟩
  · next B c _ _ h => exact ⟨h.1.trans (List.drop_suffix _ _), h.2⟩
  · exact ⟨List.drop_suffix _ _, rfl⟩

/-- The status of CL.SEND is ST_OK exactly where every check passes (rule R165). -/
theorem sendStatus_ok_iff (P : Params) (queued : Nat) (t : Byte) (n : Nat) :
    sendStatus P queued t n = .ok ↔
      knownType P t = true ∧ n ≤ P.maxPayloadLen ∧ typeLenOk P t n = true ∧ queued + 8 + n ≤ P.txFifoCap := by
  unfold sendStatus
  split_ifs <;> simp_all

end Sys2Proof.Machine
end

