-- ==== Sys2Proof/Laws/Script.lean ====
section
/-!
SUPPORT. Laws of whole operation scripts (spec/30_encoding.md rules R100, R103): the decoder without its fuel, and the script that a
frame of the line becomes (rule R106 CL.RXBYTES).
-/

namespace Sys2Proof

open Machine

/-- The operand forms take bytes from the front only (rule R100). -/
theorem decodeOp1_length {mk : Byte → Instr} {bs rest : List Byte} {i : Instr} (h : decodeOp1 mk bs = .ok (i, rest)) :
    rest.length ≤ bs.length := by
  unfold decodeOp1 at h
  split at h <;> cases h
  simp

theorem decodeEdge_length {mk : Chan → Instr} {bs rest : List Byte} {i : Instr} (h : decodeEdge mk bs = .ok (i, rest)) :
    rest.length ≤ bs.length := by
  unfold decodeEdge at h
  split at h
  · split at h <;> cases h
    simp
  · cases h

theorem decodeOpD_length {bs rest : List Byte} {i : Instr} (h : decodeOpD bs = .ok (i, rest)) :
    rest.length ≤ bs.length := by
  unfold decodeOpD at h
  split at h <;> cases h
  simp only [List.length_cons]
  omega

theorem decodeOpW_length {bs rest : List Byte} {i : Instr} (h : decodeOpW bs = .ok (i, rest)) :
    rest.length ≤ bs.length := by
  unfold decodeOpW at h
  split at h <;> cases h
  simp only [List.length_cons]
  omega

theorem decodeOpF_length {bs rest : List Byte} {i : Instr} (h : decodeOpF bs = .ok (i, rest)) :
    rest.length ≤ bs.length := by
  unfold decodeOpF at h
  split at h <;> cases h
  simp only [List.length_cons]
  omega

theorem decodeOpS_length {bs rest : List Byte} {i : Instr} (h : decodeOpS bs = .ok (i, rest)) :
    rest.length ≤ bs.length := by
  unfold decodeOpS at h
  split at h
  · dsimp only at h
    split at h <;> cases h
    simp only [List.length_drop, List.length_cons]
    omega
  · cases h

theorem ok_length {i j : Instr} {bs rest : List Byte} (h : (.ok (j, bs) : Decoded) = .ok (i, rest)) :
    rest.length ≤ bs.length := by
  cases h
  exact le_rfl

theorem ite_length {c : Prop} [Decidable c] {x y : Decoded} {i : Instr} {bs rest : List Byte}
    (hx : x = .ok (i, rest) → rest.length ≤ bs.length) (hy : y = .ok (i, rest) → rest.length ≤ bs.length)
    (h : (if c then x else y) = .ok (i, rest)) : rest.length ≤ bs.length := by
  by_cases hc : c
  · exact hx (by rwa [if_pos hc] at h)
  · exact hy (by rwa [if_neg hc] at h)

/-- An operation takes at least its opcode byte. -/
theorem decodeOp_length {bs rest : List Byte} {i : Instr} (h : decodeOp bs = .ok (i, rest)) : rest.length < bs.length := by
  cases bs with
  | nil => cases h
  | cons op tail =>
    refine Nat.lt_succ_of_le ?_
    revert h
    exact ite_length decodeOpD_length <| ite_length decodeEdge_length <| ite_length decodeEdge_length <|
      ite_length decodeOp1_length <| ite_length ok_length <| ite_length ok_length <| ite_length decodeOp1_length <|
      ite_length ok_length <| ite_length decodeOpS_length <| ite_length ok_length <| ite_length ok_length <|
      ite_length ok_length <| ite_length decodeOpW_length <| ite_length decodeOpF_length <| ite_length ok_length <|
      ite_length ok_length nofun

/-- Fuel beyond the length of the script changes nothing. -/
theorem decodeOps_fuel : ∀ (k m : Nat) (bs : List Byte), bs.length ≤ k → bs.length ≤ m →
    decodeOps k bs = decodeOps m bs := by
  intro k
  induction k with
  | zero =>
    intro m bs h _
    rw [List.length_eq_zero_iff.mp (Nat.le_zero.mp h)]
    cases m <;> rfl
  | succ k ih =>
    intro m bs hk hm
    cases bs with
    | nil => cases m <;> rfl
    | cons b rest =>
      cases m with
      | zero => simp at hm
      | succ m =>
        simp only [decodeOps]
        cases hd : decodeOp (b :: rest) with
        | error e => rfl
        | ok r =>
          obtain ⟨i, tail⟩ := r
          have hl := decodeOp_length hd
          simp only [List.length_cons] at hk hm hl
          simp only [ih m tail (by omega) (by omega)]

@[simp] theorem decodeScript_nil : decodeScript [] = .ok [] := rfl

/-- A script is its first operation and then a script (rule R100): the lemma to cite instead of the fuel. -/
theorem decodeScript_cons (b : Byte) (rest : List Byte) :
    decodeScript (b :: rest) =
      match decodeOp (b :: rest) with
      | .error e => .error e
      | .ok (i, tail) =>
        match decodeScript tail with
        | .error e => .error e
        | .ok is => .ok (i :: is) := by
  show decodeOps (rest.length + 1) (b :: rest) = _
  simp only [decodeOps]
  cases hd : decodeOp (b :: rest) with
  | error e => rfl
  | ok r =>
    obtain ⟨i, tail⟩ := r
    have hl := decodeOp_length hd
    simp only [List.length_cons] at hl
    have e : decodeOps rest.length tail = decodeScript tail := decodeOps_fuel _ _ _ (by omega) le_rfl
    dsimp only
    generalize decodeScript tail = r at e ⊢
    subst e
    rfl

@[simp] theorem encodeScript_nil (P : Params) : encodeScript P [] = [] := rfl
@[simp] theorem encodeScript_cons (P : Params) (i : Instr) (is : List Instr) :
    encodeScript P (i :: is) = encode P i ++ encodeScript P is := rfl

/-- The script of received bytes (rule R106 CL.RXBYTES): the opcode and the byte, each. -/
theorem encodeScript_rxBytes (P : Params) (bs : List Byte) :
    encodeScript P (bs.map .clRxByte) = bs.flatMap fun b => [0x20, b] := by
  induction bs with
  | nil => rfl
  | cons b bs ih => simp only [List.map_cons, encodeScript_cons, ih, encode, List.flatMap_cons]

/-- The script of received bytes is well-formed. -/
theorem decodeScript_rxBytes (bs : List Byte) :
    decodeScript (bs.flatMap fun b => [0x20, b]) = .ok (bs.map .clRxByte) := by
  induction bs with
  | nil => rfl
  | cons b bs ih =>
    rw [List.flatMap_cons, List.cons_append, List.cons_append, List.nil_append, decodeScript_cons]
    have : decodeOp (0x20 :: b :: bs.flatMap fun b => [0x20, b]) = .ok (.clRxByte b, bs.flatMap fun b => [0x20, b]) := rfl
    simp only [this, ih, List.map_cons]

/-- Everything a frame does: its first byte arrives, the others go before the input (rules R152, R329). -/
theorem Machine.deliver_cons (s : State) (b : Byte) (rest : List Byte) :
    deliver s (b :: rest) =
      (rxByte { s with input := .script (rest.flatMap fun c => [0x20, c]) :: s.input } b).ret .noResult := by
  show (rxByte (s.issueFirst (encodeScript s.params (rest.map .clRxByte))) b).ret .noResult = _
  rw [encodeScript_rxBytes]
  rfl

end Sys2Proof
end

