-- ==== Sys2Proof/Laws/Step.lean ====
section
/-!
SUPPORT. Everything a step can do, said once: it refuses, or it runs one instruction of the input.
-/

namespace Sys2Proof.Machine

/-- A step that answers a next state ran one instruction on the state with some input left, under a valid record. -/
theorem step_next {s t : State} (h : step s = .next t) :
    ∃ (i : Instr) (later : List Chunk), nextInstr s.params s.input = .ok (i, later) ∧
      exec i { s with input := later } = .next t ∧ s.params.Valid := by
  unfold step fetch at h
  split at h
  · next i u hf =>
    split at hf
    · next hv =>
      split at hf
      · next j later hn =>
        injection hf with hf
        injection hf with h1 h2
        subst h1
        subst h2
        exact ⟨j, later, hn, h, hv⟩
      · cases hf
    · cases hf
  · cases h

end Sys2Proof.Machine
end

