-- ==== Sys2Proof/Laws/Time.lean ====
section
/-!
SUPPORT. Laws of the time arithmetic and of the advance of the clock: `tsub` modulo 2^TIME_BITS, and `advance` without its fuel.
-/

namespace Sys2Proof.Machine

theorem timeMod_pos (P : Params) : 0 < P.timeMod := Nat.two_pow_pos _

theorem tsub_lt (P : Params) (a b : Nat) : tsub P a b < P.timeMod := Nat.mod_lt _ (timeMod_pos P)

@[simp] theorem tsub_self (P : Params) (a : Nat) : tsub P a a = 0 := by
  unfold tsub
  have h := Nat.mod_add_div a P.timeMod
  have hlt := Nat.mod_lt a (timeMod_pos P)
  have : a + (P.timeMod - a % P.timeMod) = P.timeMod * (a / P.timeMod + 1) := by
    rw [Nat.mul_add, Nat.mul_one]; omega
  rw [this, Nat.mul_mod_right]

/-- What `tsub` is for: the elapsed time added back to the earlier instant gives the later one, modulo 2^TIME_BITS. -/
theorem add_tsub_mod (P : Params) (a b : Nat) : (b + tsub P a b) % P.timeMod = a % P.timeMod := by
  unfold tsub
  have hlt := Nat.mod_lt b (timeMod_pos P)
  have hd := Nat.mod_add_div b P.timeMod
  rw [Nat.add_mod_mod]
  have : b + (a + (P.timeMod - b % P.timeMod)) = a + P.timeMod * (b / P.timeMod + 1) := by
    rw [Nat.mul_add, Nat.mul_one]; omega
  rw [this, Nat.add_mul_mod_self_left]

/-- Time `d` later, the elapsed time is `d` more, modulo 2^TIME_BITS. -/
theorem tsub_add_mod (P : Params) (a b d : Nat) :
    tsub P ((a + d) % P.timeMod) b = (tsub P a b + d) % P.timeMod := by
  unfold tsub
  rw [Nat.mod_add_mod, Nat.mod_add_mod]
  congr 1; omega

/-- With fewer than 2^TIME_BITS microseconds between them, `tsub` is the number of microseconds passed. -/
theorem tsub_advanced (P : Params) (a d : Nat) (h : d < P.timeMod) : tsub P ((a + d) % P.timeMod) a = d := by
  rw [tsub_add_mod, tsub_self, Nat.zero_add, Nat.mod_eq_of_lt h]

/-- After a boundary the phase is 0. -/
@[simp] theorem phase_crossBoundary (s : State) : phase (crossBoundary s) = 0 := by
  simp [phase, crossBoundary]

@[simp] theorem params_crossBoundary (s : State) : (crossBoundary s).params = s.params := rfl
@[simp] theorem pwmEnabled_crossBoundary (s : State) : (crossBoundary s).pwmEnabled = s.pwmEnabled := rfl
@[simp] theorem pwShadow_crossBoundary (s : State) : (crossBoundary s).pwShadow = s.pwShadow := rfl
@[simp] theorem params_addTime (s : State) (d : Nat) : (addTime s d).params = s.params := rfl

/-- One pass of the loop of rule R205: it either ends or crosses one boundary. -/
theorem runPeriods_succ (k r : Nat) (s : State) :
    runPeriods (k + 1) r s =
      if s.pwmEnabled = true ∧ toBoundary s ≤ r then runPeriods k (r - toBoundary s) (crossBoundary s) else (s, r) := by
  simp [runPeriods]

/-- At a period start, any fuel of at least r div PWM_PERIOD_US gives the same. -/
theorem runPeriods_fuel {s : State} (hp : 0 < s.params.pwmPeriodUs) (h0 : phase s = 0) :
    ∀ {k m r : Nat}, r / s.params.pwmPeriodUs ≤ k → r / s.params.pwmPeriodUs ≤ m → runPeriods k r s = runPeriods m r s := by
  intro k
  induction k generalizing s with
  | zero =>
    intro m r hk _
    have hr : r < s.params.pwmPeriodUs := by
      by_contra hge
      have := Nat.div_pos (Nat.le_of_not_lt hge) hp
      omega
    cases m with
    | zero => rfl
    | succ m =>
      rw [runPeriods_succ, if_neg]
      · rfl
      · simp only [toBoundary, h0]; omega
  | succ k ih =>
    intro m r hk hm
    rw [runPeriods_succ]
    by_cases hc : s.pwmEnabled = true ∧ toBoundary s ≤ r
    · rw [if_pos hc]
      have hb : toBoundary s = s.params.pwmPeriodUs := by simp [toBoundary, h0]
      have hle : s.params.pwmPeriodUs ≤ r := hb ▸ hc.2
      have hdiv : r / s.params.pwmPeriodUs = (r - s.params.pwmPeriodUs) / s.params.pwmPeriodUs + 1 :=
        Nat.div_eq_sub_div hp hle
      cases m with
      | zero => exact absurd (hdiv ▸ hm) (Nat.not_succ_le_zero _)
      | succ m =>
        rw [runPeriods_succ, if_pos hc, hb]
        exact ih (by simpa using hp) (by simp) (by rw [params_crossBoundary]; omega) (by rw [params_crossBoundary]; omega)
    · rw [if_neg hc]
      cases m with
      | zero => rfl
      | succ m => rw [runPeriods_succ, if_neg hc]

/-- Rule R205, no boundary reached: only `now` moves. -/
theorem advance_short (s : State) (d : Nat) (h : s.pwmEnabled = false ∨ d < toBoundary s) :
    advance s d = addTime s d := by
  unfold advance
  rw [runPeriods_succ, if_neg]
  rcases h with h | h
  · simp [h]
  · omega

/-- Rule R205, a boundary reached: the advance goes on from it with the time that remains. -/
theorem advance_boundary (s : State) (d : Nat) (hp : 0 < s.params.pwmPeriodUs) (he : s.pwmEnabled = true)
    (h : toBoundary s ≤ d) : advance s d = advance (crossBoundary s) (d - toBoundary s) := by
  unfold advance
  rw [runPeriods_succ, if_pos ⟨he, h⟩]
  have hle : (d - toBoundary s) / s.params.pwmPeriodUs ≤ d / s.params.pwmPeriodUs :=
    Nat.div_le_div_right (Nat.sub_le _ _)
  rw [runPeriods_fuel (s := crossBoundary s) (by simpa using hp) (by simp)
    (m := (d - toBoundary s) / (crossBoundary s).params.pwmPeriodUs + 1) (by simpa using hle) (by simp)]

/-- What a pass of the loop keeps: everything but `now`, `period_start`, `pw_active` and `pwm_trace`. The invariant `I` of a
boundary and of a move of `now` holds after the advance. -/
theorem advance_induction {I : State → Prop} (hb : ∀ s, I s → s.pwmEnabled = true → I (crossBoundary s)) :
    ∀ (k r : Nat) (s : State), I s → I (runPeriods k r s).1 := by
  intro k
  induction k with
  | zero => intro r s h; exact h
  | succ k ih =>
    intro r s h
    rw [runPeriods_succ]
    split
    · next hc => exact ih _ _ (hb s h hc.1)
    · exact h

/-- The loop of rule R205 loses no time: `now` and the time that remains always add up to the same instant. -/
theorem runPeriods_now (k r : Nat) (s : State) :
    ((runPeriods k r s).1.now + (runPeriods k r s).2) % s.params.timeMod = (s.now + r) % s.params.timeMod := by
  induction k generalizing r s with
  | zero => rfl
  | succ k ih =>
    rw [runPeriods_succ]
    split
    · next hc =>
      have := ih (r - toBoundary s) (crossBoundary s)
      rw [params_crossBoundary] at this
      rw [this]
      simp only [crossBoundary, addTime, State.startPeriod_now, State.setNow_now]
      rw [Nat.mod_add_mod]
      congr 1; omega
    · rfl

theorem runPeriods_params (k r : Nat) (s : State) : (runPeriods k r s).1.params = s.params :=
  advance_induction (I := fun t => t.params = s.params) (fun _ h _ => h) k r s rfl

/-- Rule R205: an advance moves `now` by its operand, modulo 2^TIME_BITS. -/
theorem advance_now (s : State) (d : Nat) : (advance s d).now = (s.now + d) % s.params.timeMod := by
  simp only [advance, addTime, State.setNow_now]
  rw [runPeriods_params, runPeriods_now]

/-- What an advance leaves: everything but `now`, `period_start`, `pw_active` and `pwm_trace`. -/
theorem advance_frame (s : State) (d : Nat) :
    { advance s d with
      now := s.now, periodStart := s.periodStart, pwActive := s.pwActive, pwmTrace := s.pwmTrace } = s := by
  have h := advance_induction
    (I := fun t => { t with now := s.now, periodStart := s.periodStart, pwActive := s.pwActive, pwmTrace := s.pwmTrace } = s)
    (fun t ht _ => ht) (d / s.params.pwmPeriodUs + 1) d s rfl
  exact h

@[simp] theorem advance_riseTs (s : State) (d : Nat) : (advance s d).riseTs = s.riseTs := by
  have h := congrArg State.riseTs (advance_frame s d)
  exact h
@[simp] theorem advance_armed (s : State) (d : Nat) : (advance s d).armed = s.armed := by
  have h := congrArg State.armed (advance_frame s d)
  exact h
@[simp] theorem advance_record (s : State) (d : Nat) : (advance s d).record = s.record := by
  have h := congrArg State.record (advance_frame s d)
  exact h
@[simp] theorem advance_rxBuf (s : State) (d : Nat) : (advance s d).rxBuf = s.rxBuf := by
  have h := congrArg State.rxBuf (advance_frame s d)
  exact h
@[simp] theorem advance_txFifo (s : State) (d : Nat) : (advance s d).txFifo = s.txFifo := by
  have h := congrArg State.txFifo (advance_frame s d)
  exact h
@[simp] theorem advance_cnt (s : State) (d : Nat) : (advance s d).cnt = s.cnt := by
  have h := congrArg State.cnt (advance_frame s d)
  exact h
@[simp] theorem advance_pwmEnabled (s : State) (d : Nat) : (advance s d).pwmEnabled = s.pwmEnabled := by
  have h := congrArg State.pwmEnabled (advance_frame s d)
  exact h
@[simp] theorem advance_pwShadow (s : State) (d : Nat) : (advance s d).pwShadow = s.pwShadow := by
  have h := congrArg State.pwShadow (advance_frame s d)
  exact h
@[simp] theorem advance_txLine (s : State) (d : Nat) : (advance s d).txLine = s.txLine := by
  have h := congrArg State.txLine (advance_frame s d)
  exact h
@[simp] theorem advance_params (s : State) (d : Nat) : (advance s d).params = s.params := by
  have h := congrArg State.params (advance_frame s d)
  exact h
@[simp] theorem advance_result (s : State) (d : Nat) : (advance s d).result = s.result := by
  have h := congrArg State.result (advance_frame s d)
  exact h
@[simp] theorem advance_input (s : State) (d : Nat) : (advance s d).input = s.input := by
  have h := congrArg State.input (advance_frame s d)
  exact h

/-- What an advance adds to `pwm_trace`: only entries with the shadow widths, and none while the carrier is not enabled. -/
theorem advance_trace (s : State) (d : Nat) :
    ∃ l, (advance s d).pwmTrace = s.pwmTrace ++ l ∧
      ∀ e ∈ l, s.pwmEnabled = true ∧ e.width0 = s.pwShadow.ch0 ∧ e.width1 = s.pwShadow.ch1 := by
  have h := advance_induction
    (I := fun t => t.pwShadow = s.pwShadow ∧ t.pwmEnabled = s.pwmEnabled ∧ ∃ l, t.pwmTrace = s.pwmTrace ++ l ∧
      ∀ e ∈ l, s.pwmEnabled = true ∧ e.width0 = s.pwShadow.ch0 ∧ e.width1 = s.pwShadow.ch1)
    (by
      rintro t ⟨hs, he, l, h1, h2⟩ ht
      refine ⟨hs, he, l ++ [⟨(t.now + toBoundary t) % t.params.timeMod, t.pwShadow.ch0, t.pwShadow.ch1⟩], ?_, ?_⟩
      · show t.pwmTrace ++ _ = _
        rw [h1, List.append_assoc]; rfl
      · intro e hm
        rcases List.mem_append.mp hm with hm | hm
        · exact h2 e hm
        · rw [List.mem_singleton] at hm
          subst hm
          exact ⟨he ▸ ht, congrArg PerCh.ch0 hs, congrArg PerCh.ch1 hs⟩)
    (d / s.params.pwmPeriodUs + 1) d s ⟨rfl, rfl, [], by simp, by simp⟩
  exact h.2.2

end Sys2Proof.Machine
end

