-- ==== Sys2Proof/Machine/Assembly.lean ====
section
/-!
DEFINITION. The written syntax of operations (spec/30_encoding.md rule R105): one operation per line, the mnemonic, operands separated by
commas, `;` starts a comment. Numbers are decimal or 0x hexadecimal; an axis is a decimal literal, meaning RN32 of it, or
f32:0x and a bit pattern; a payload is a bracketed list of bytes. DESIGN CHOICE where the rules give no detail (assumption 13).
-/

namespace Sys2Proof.Machine

/-- The value of a digit character in the given base. -/
def digitVal (base : Nat) (c : Char) : Option Nat :=
  let n := c.toNat
  let v :=
    if 48 ≤ n ∧ n ≤ 57 then some (n - 48)
    else if 65 ≤ n ∧ n ≤ 70 then some (n - 55)
    else if 97 ≤ n ∧ n ≤ 102 then some (n - 87)
    else none
  v.filter (· < base)

/-- The value of a non-empty digit string. -/
def digitsVal (base : Nat) (cs : List Char) : Option Nat :=
  if cs = [] then none
  else cs.foldl (fun acc c => acc.bind fun a => (digitVal base c).map fun d => a * base + d) (some 0)

/-- A number: decimal, or hexadecimal after 0x (rule R9). -/
def parseNum (cs : List Char) : Option Nat :=
  match cs with
  | '0' :: 'x' :: hex => digitsVal 16 hex
  | _ => digitsVal 10 cs

/-- A number that fits `w` bits. -/
def parseBits (w : Nat) (cs : List Char) : Option (BitVec w) :=
  (parseNum cs).bind fun n => if n < 2 ^ w then some (BitVec.ofNat w n) else none

/-- The operands of a line: split at the commas that stand in no bracket. `cur` is the operand being read, reversed. -/
def splitOperands (cs : List Char) (inBracket : Bool) (cur : List Char) : List (List Char) :=
  match cs with
  | [] => [cur.reverse]
  | c :: rest =>
    if c = ',' ∧ inBracket = false then cur.reverse :: splitOperands rest false []
    else if c = '[' then splitOperands rest true (c :: cur)
    else if c = ']' then splitOperands rest false (c :: cur)
    else splitOperands rest inBracket (c :: cur)

/-- A text without its blanks, but for those inside a bracket. -/
def dropBlanks (cs : List Char) (inBracket : Bool) : List Char :=
  match cs with
  | [] => []
  | c :: rest =>
    if c = ' ' ∧ inBracket = false then dropBlanks rest false
    else if c = '[' then c :: dropBlanks rest true
    else if c = ']' then c :: dropBlanks rest false
    else c :: dropBlanks rest inBracket

/-- The operands of a text, separated by commas; an empty text has none. -/
def operandsOf (cs : List Char) : List (List Char) := if cs = [] then [] else splitOperands cs false []

/-- A magnitude written in decimal, as numerator and denominator. -/
def parseDecimal (cs : List Char) : Option (Nat × Nat) :=
  let whole := cs.takeWhile (· ≠ '.')
  match cs.dropWhile (· ≠ '.') with
  | [] => (digitsVal 10 whole).map fun n => (n, 1)
  | _ :: frac => (digitsVal 10 (whole ++ frac)).map fun n => (n, 10 ^ frac.length)

/-- RN32 of a decimal literal in [-1, 1], the range rule R11 applies RN32 to. -/
def axisLiteral (neg : Bool) (cs : List Char) : Option F32 :=
  (parseDecimal cs).bind fun q => if q.1 ≤ q.2 then some (rn32 neg q.1 q.2) else none

/-- An axis operand: f32: and a pattern, or a decimal literal. -/
def parseAxis (cs : List Char) : Option F32 :=
  match cs with
  | 'f' :: '3' :: '2' :: ':' :: pattern => parseBits 32 pattern
  | '-' :: mag => axisLiteral true mag
  | mag => axisLiteral false mag

/-- The words between the blanks of a text. `cur` is the word being read, reversed. -/
def wordsOf (cs cur : List Char) : List (List Char) :=
  match cs with
  | [] => if cur = [] then [] else [cur.reverse]
  | c :: rest =>
    if c = ' ' then (if cur = [] then wordsOf rest [] else cur.reverse :: wordsOf rest []) else wordsOf rest (c :: cur)

/-- A byte of a list without commas: two hexadecimal digits. -/
def parseHexByte (cs : List Char) : Option Byte :=
  if cs.length = 2 then (digitsVal 16 cs).map (BitVec.ofNat 8) else none

/-- The bytes of a bracketed list: numbers separated by commas, as rule R105 writes them. DESIGN CHOICE (assumption 13): two or more
words with no comma are bytes of two hexadecimal digits, as the programs of spec/95_test_vectors.md write them. -/
def parseByteList (cs : List Char) : Option (List Byte) :=
  if ',' ∈ cs then (operandsOf cs).mapM fun item => match wordsOf item [] with
    | [n] => parseBits 8 n
    | _ => none
  else match wordsOf cs [] with
    | [] => some []
    | [n] => (parseBits 8 n).map fun b => [b]
    | bytes => bytes.mapM parseHexByte

/-- A payload operand: a bracketed list of bytes. -/
def parsePayload (cs : List Char) : Option (List Byte) :=
  match cs with
  | '[' :: rest =>
    match rest.reverse with
    | ']' :: inner => parseByteList inner.reverse
    | _ => none
  | _ => none

/-- A channel operand of PC.RISE, PC.FALL or PC.PULSE (rule R103). -/
def parseChan (cs : List Char) : Option Chan := (parseBits 8 cs).bind Chan.ofByte

/-- What a line stands for: operations, or CL.DRAIN, whose expansion depends on `tx_fifo` (rule R106). -/
inductive Line where
  | ops (is : List Instr)
  | drain
  deriving DecidableEq, Repr

/-- The line of a mnemonic and its operands: the mnemonics of rules R101 and R106. -/
def assemble (P : Params) (m : List Char) (args : List (List Char)) : Option Line :=
  match args with
  | [] =>
    if m = "PC.POLL".toList then some (.ops [.pcPoll])
    else if m = "PC.ACTIVE".toList then some (.ops [.pcActive])
    else if m = "CL.POLL".toList then some (.ops [.clPoll])
    else if m = "CL.TXBYTE".toList then some (.ops [.clTxByte])
    else if m = "CL.STATS".toList then some (.ops [.clStats])
    else if m = "AD.INIT".toList then some (.ops [.adInit])
    else if m = "AD.NEUTRAL".toList then some (.ops [.adNeutral])
    else if m = "SYS.RESET".toList then some (.ops [.sysReset])
    else if m = "CL.PING".toList then some (.ops (pingOps P))
    else if m = "CL.PONG".toList then some (.ops (pongOps P))
    else if m = "CL.DRAIN".toList then some .drain
    else none
  | [a] =>
    if m = "T.ADV".toList then (parseBits 32 a).map fun d => .ops [.tAdv d]
    else if m = "T.ADVMS".toList then (parseNum a).map fun n => .ops (advMsOps n)
    else if m = "PC.RISE".toList then (parseChan a).map fun c => .ops [.pcRise c]
    else if m = "PC.FALL".toList then (parseChan a).map fun c => .ops [.pcFall c]
    else if m = "PC.READ".toList then (parseBits 8 a).map fun b => .ops [.pcRead b]
    else if m = "CL.RXBYTE".toList then (parseBits 8 a).map fun b => .ops [.clRxByte b]
    else if m = "CL.RXBYTES".toList then (parsePayload a).map fun bs => .ops (rxBytesOps bs)
    else none
  | [a, b] =>
    if m = "PC.PULSE".toList then (parseChan a).bind fun c => (parseNum b).map fun w => .ops (pulseOps c w)
    else if m = "CL.SEND".toList then
      (parseBits 8 a).bind fun t => (parsePayload b).bind fun p => if lengthFits p then some (.ops [.clSend t p]) else none
    else if m = "CL.SENDCMD".toList then
      (parseAxis a).bind fun t => (parseAxis b).map fun s => .ops (sendCommandOps P t s)
    else if m = "AD.SETPW".toList then
      (parseBits 8 a).bind fun c => (parseBits 16 b).map fun us => .ops [.adSetPw c us]
    else if m = "AD.SETAXIS".toList then
      (parseBits 8 a).bind fun c => (parseAxis b).map fun x => .ops [.adSetAxis c x]
    else none
  | [sq, st, i0, i1, i2, i3, i4, i5, t, s] =>
    if m = "CL.SENDTELEM".toList then do
      let seq ← parseBits 16 sq
      let status ← parseBits 16 st
      let imu0 ← parseImu i0
      let imu1 ← parseImu i1
      let imu2 ← parseImu i2
      let imu3 ← parseImu i3
      let imu4 ← parseImu i4
      let imu5 ← parseImu i5
      let throttle ← parseAxis t
      let steering ← parseAxis s
      let m : Telem := ⟨seq, status, imu0, imu1, imu2, imu3, imu4, imu5, throttle, steering⟩
      if statusFits P m then some (.ops (sendTelemOps P m)) else none
    else none
  | _ => none
where
  /-- An IMU operand: a signed decimal number of 16 bits (rule R92), or a 16-bit pattern. -/
  parseImu (cs : List Char) : Option Word16 :=
    match cs with
    | '-' :: mag => (digitsVal 10 mag).bind fun n => if n ≤ 32768 then some (BitVec.ofInt 16 (-(n : Int))) else none
    | _ => parseBits 16 cs

/-- One line of the written syntax: `none` where it spells no operation. An empty line, or one that is only a comment, is no
operation at all. -/
def assembleLine (P : Params) (line : List Char) : Option Line :=
  let text := (line.takeWhile (· ≠ ';')).dropWhile (· = ' ')
  let m := text.takeWhile (· ≠ ' ')
  let args := dropBlanks (text.dropWhile (· ≠ ' ')) false
  if m = [] then some (.ops []) else assemble P m (operandsOf args)

/-- The operations a line stands for in the state it runs in. -/
def Line.opsAt (l : Line) (s : State) : List Instr :=
  match l with
  | .ops is => is
  | .drain => drainOps s

end Sys2Proof.Machine
end

