-- ==== Sys2Proof/Tests/Slice0.lean ====
section
/-!
SUPPORT. Tests. Expected results are the spec's own: the vectors V1 to V60 and programs P1 to P5 of spec/95_test_vectors.md and the
examples under the rules. The last section shows, for each statement with hypotheses, values that meet them all.
-/

namespace Sys2Proof.Tests

-- The many small kernel evaluations of this file run one after another: in parallel their thread stacks add up.
set_option Elab.async false

open Sys2Proof Sys2Proof.Machine

/-- A property of the state after a list of operations. -/
def after (is : List Instr) (s : State) (p : State → Bool) : Bool :=
  match execAll is s with
  | .next t => p t
  | _ => false

/-- What the step answers, as plain data. -/
def stepped (s : State) : Except Refusal State :=
  match step s with
  | .next t => .ok t
  | .fault f => nomatch f
  | .refused r => .error r

/-- What a byte sequence decodes to, and how many bytes are left. -/
def decoded (d : Decoded) : Option (Instr × Nat) :=
  match d with
  | .ok (i, rest) => some (i, rest.length)
  | .error _ => none

/-! ### WellFormed: one ill-formed term for each check -/

theorem test_refused_status_of_nine_bits :
    WellFormed Params.default (.frameTelem ⟨0, 0x0100, 0, 0, 0, 0, 0, 0, 0, 0⟩ 0) = false := by decide

theorem test_accepted_status_of_two_bytes :
    WellFormed { Params.default with telemStatusBytes := 2 } (.frameTelem ⟨0, 0x0100, 0, 0, 0, 0, 0, 0, 0, 0⟩ 0) = true := by
  decide

theorem test_refused_payload_too_long (p : List Byte) (h : p.length = 65536) :
    WellFormed Params.default (.clSend 3 p) = false ∧ WellFormed Params.default (.framePing p 0) = false ∧
      WellFormed Params.default (.framePong p 0) = false := by
  simp [WellFormed, lengthFits, h]

theorem test_payload_of_65536_bytes_exists : (List.replicate 65536 (0 : Byte)).length = 65536 := List.length_replicate

/-! ### Decoding: words written out from the encodings of spec/30_encoding.md -/

/-- R100 OPD, R101: 00, then d = 1685 = 0x00000695 low byte first (program P1). -/
theorem test_decode_tAdv : decoded (decodeOp [0x00, 0x95, 0x06, 0x00, 0x00]) = some (.tAdv 1685, 0) := by decide
theorem test_decode_pcRise : decoded (decodeOp [0x10, 0x01, 0x13]) = some (.pcRise .ch1, 1) := by decide
theorem test_decode_pcFall : decoded (decodeOp [0x11, 0x00]) = some (.pcFall .ch0, 0) := by decide
theorem test_decode_pcRead : decoded (decodeOp [0x12, 0x05]) = some (.pcRead 5, 0) := by decide
theorem test_decode_pcPoll : decoded (decodeOp [0x13]) = some (.pcPoll, 0) := by decide
theorem test_decode_pcActive : decoded (decodeOp [0x14]) = some (.pcActive, 0) := by decide
theorem test_decode_clRxByte : decoded (decodeOp [0x20, 0xAA]) = some (.clRxByte 0xAA, 0) := by decide
theorem test_decode_clPoll : decoded (decodeOp [0x21]) = some (.clPoll, 0) := by decide
/-- R100 OPS: 22, t, n = 2 low byte first, two payload bytes; one byte is left. -/
theorem test_decode_clSend :
    decoded (decodeOp [0x22, 0x03, 0x02, 0x00, 0xDE, 0xAD, 0xF0]) = some (.clSend 3 [0xDE, 0xAD], 1) := by decide
theorem test_decode_clTxByte : decoded (decodeOp [0x23]) = some (.clTxByte, 0) := by decide
theorem test_decode_clStats : decoded (decodeOp [0x24]) = some (.clStats, 0) := by decide
theorem test_decode_adInit : decoded (decodeOp [0x30]) = some (.adInit, 0) := by decide
/-- R100 OPW: us = 2500 = 0x09C4 low byte first. -/
theorem test_decode_adSetPw : decoded (decodeOp [0x31, 0x01, 0xC4, 0x09]) = some (.adSetPw 1 2500, 0) := by decide
/-- R100 OPF: the pattern 3EBD70A4 low byte first. -/
theorem test_decode_adSetAxis :
    decoded (decodeOp [0x32, 0x00, 0xA4, 0x70, 0xBD, 0x3E]) = some (.adSetAxis 0 0x3EBD70A4, 0) := by decide
theorem test_decode_adNeutral : decoded (decodeOp [0x33]) = some (.adNeutral, 0) := by decide
theorem test_decode_sysReset : decoded (decodeOp [0xF0]) = some (.sysReset, 0) := by decide
/-- V30: COMMAND with throttle 3EBD70A4 and steering BF51EB85, CRC 34C5. -/
theorem test_decode_frameCommand :
    decoded (decodeFrame Params.default
      [0xAA, 0x55, 0x01, 0x01, 0x08, 0x00, 0xA4, 0x70, 0xBD, 0x3E, 0x85, 0xEB, 0x51, 0xBF, 0xC5, 0x34]) =
      some (.frameCommand 0x3EBD70A4 0xBF51EB85 0x34C5, 0) := by decide
/-- V32: seq 0x0102, status 1, imu (12, -34, 981, 0, -1, 32767), axes 3E800000 and BF000000, CRC 5897. -/
theorem test_decode_frameTelem :
    decoded (decodeFrame Params.default
      ([0xAA, 0x55, 0x01, 0x02, 0x17, 0x00, 0x02, 0x01, 0x01, 0x0C, 0x00, 0xDE, 0xFF, 0xD5, 0x03, 0x00, 0x00] ++
        [0xFF, 0xFF, 0xFF, 0x7F, 0x00, 0x00, 0x80, 0x3E, 0x00, 0x00, 0x00, 0xBF, 0x97, 0x58])) =
      some (.frameTelem ⟨0x0102, 1, BitVec.ofInt 16 12, BitVec.ofInt 16 (-34), BitVec.ofInt 16 981, BitVec.ofInt 16 0,
        BitVec.ofInt 16 (-1), BitVec.ofInt 16 32767, 0x3E800000, 0xBF000000⟩ 0x5897, 0) := by decide
/-- V31: PING with payload DE AD, CRC 1A65. -/
theorem test_decode_framePing :
    decoded (decodeFrame Params.default [0xAA, 0x55, 0x01, 0x03, 0x02, 0x00, 0xDE, 0xAD, 0x65, 0x1A]) =
      some (.framePing [0xDE, 0xAD] 0x1A65, 0) := by decide
/-- V31: empty PONG, CRC 2EB4. -/
theorem test_decode_framePong :
    decoded (decodeFrame Params.default [0xAA, 0x55, 0x01, 0x04, 0x00, 0x00, 0xB4, 0x2E]) =
      some (.framePong [] 0x2EB4, 0) := by decide
/-- R103 and R108: what spells nothing. -/
theorem test_decode_refuses :
    decodeOp [0x15] = .error (.unknownOpcode 0x15) ∧ decodeOp [0x10, 0x02] = .error (.noSuchEdge 2) ∧
      decodeOp [0x31, 0x00, 0x01] = .error .truncated ∧
      decodeFrame Params.default [0xAA, 0x55, 0x01, 0x01, 0x04, 0x00, 0, 0, 0, 0, 0, 0] = .error .noFrameRow := by
  refine ⟨rfl, rfl, rfl, rfl⟩
/-- R108: the match word of FRAME.COMMAND, byte 0 in bits 47:40, and the opcode byte of AD.INIT. -/
theorem test_decode_table_words :
    decodeTableWord 48 0xAA5501010800 = some (.frameCommand 0 0 0) ∧ decodeTableWord 8 0x30 = some .adInit ∧
      decodeTableWord 8 0x15 = none := by decide

/-! ### The step -/

theorem test_step_runs_fetch_word :
    step (State.reset.withFetchWord 8 0x30) = exec .adInit State.reset := by rfl

/-- R100: a script runs operation after operation; the rest of the bytes stays in the input. -/
theorem test_step_takes_one_operation :
    (stepped { State.reset with input := [.script [0x20, 0xAA, 0x21]] }).toOption =
      some { State.reset with rxBuf := [0xAA], input := [.script [0x21]] } := by decide +kernel

/-- R103, R282: a script that goes wrong after a good operation is refused before that operation. -/
theorem test_step_refuses_whole_script :
    step { State.reset with input := [.script [0x30, 0x15]] } = .refused (.illFormedScript (.unknownOpcode 0x15)) := by rfl

theorem test_step_refuses_empty_input : step State.reset = .refused .endOfInput := by rfl

/-- V20. -/
theorem test_crc_check_value :
    crc16 Params.default [0x31, 0x32, 0x33, 0x34, 0x35, 0x36, 0x37, 0x38, 0x39] = 0x29B1 := by decide +kernel

/-! ### PulseCapture -/

/-- V10, the rows that differ in kind. -/
theorem test_pulseToAxis_table :
    [900, 1000, 1001, 1090, 1250, 1499, 1500, 1501, 1685, 1999, 2000, 2100].map (pulseToAxis Params.default) =
      [0xBF800000, 0xBF800000, 0xBF7F7CEE, 0xBF51EB85, 0xBF000000, 0xBB03126F, 0x00000000, 0x3B03126F, 0x3EBD70A4,
        0x3F7F7CEE, 0x3F800000, 0x3F800000] := by decide +kernel

/-- Example of R121. -/
theorem test_pcRise : after [.pcRise .ch0] { State.reset with now := 5000 }
    (fun t => t.riseTs == ⟨5000, 0⟩ && t.armed == ⟨true, false⟩) = true := by decide +kernel

/-- V13: a second rise overwrites the first; the width is 900, not 1400. -/
theorem test_pcRise_again :
    after [.pcRise .ch0, .tAdv 500, .pcRise .ch0, .tAdv 900, .pcFall .ch0] State.reset
      (fun t => t.record.ch0 == ⟨900, 1400, true⟩) = true := by decide +kernel

/-- V11: 899 and 2101 are rejected, 900 and 2100 accepted; 70000 is not truncated into the window. -/
theorem test_pcFall_window :
    [899, 900, 2100, 2101, 70000].map (fun w =>
      after [.pcRise .ch0, .tAdv w, .pcFall .ch0] State.reset (fun t => t.record.ch0.valid)) =
      [false, true, true, false, false] := by decide +kernel

/-- V17, TIME_BITS = 32: the width is right across the wrap of `now`. -/
theorem test_pcFall_wrap :
    after [.pcRise .ch0, .tAdv 1000, .pcFall .ch0]
      { State.resetOf { Params.default with timeBits := 32 } with now := 4294966796 }
      (fun t => t.now == 500 && t.record.ch0 == ⟨1000, 500, true⟩) = true := by decide +kernel

/-- A state whose channel 0 has accepted 1685 at 6500 (V12, V14). -/
def heard : State := { State.reset with record := ⟨⟨1685, 6500, true⟩, ⟨0, 0, false⟩⟩ }

/-- V14: fresh at 106499, stale at 106500. -/
theorem test_pcRead_timeout :
    after [.pcRead 0] { heard with now := 106499 } (fun t => t.result == .axis (some 0x3EBD70A4)) = true ∧
      after [.pcRead 0] { heard with now := 106500 } (fun t => t.result == .axis none) = true := by decide +kernel

/-- V16. -/
theorem test_pcRead_no_channel : after [.pcRead 5] heard (fun t => t.result == .axis none) = true := by decide +kernel

/-- Both channels accepted (V15). -/
def heardBoth : State := { State.reset with record := ⟨⟨1800, 1800, true⟩, ⟨1200, 1200, true⟩⟩ }

/-- V15. -/
theorem test_pcPoll :
    after [.pcPoll] { heardBoth with now := 101199 }
        (fun t => t.result == .sample (some ⟨0x3F19999A, 0xBF19999A, 101199, .rc⟩)) = true ∧
      after [.pcPoll] { heardBoth with now := 101200 } (fun t => t.result == .sample none) = true := by decide +kernel

/-- V15. -/
theorem test_pcActive :
    after [.pcActive] { heardBoth with now := 101199 } (fun t => t.result == .active true) = true ∧
      after [.pcActive] { heardBoth with now := 101200 } (fun t => t.result == .active false) = true := by decide +kernel

/-! ### CommandLink -/

/-- The frame of V30. -/
def frameV30 : List Byte :=
  [0xAA, 0x55, 0x01, 0x01, 0x08, 0x00, 0xA4, 0x70, 0xBD, 0x3E, 0x85, 0xEB, 0x51, 0xBF, 0xC5, 0x34]

/-- A state with bytes in the receive buffer. -/
def received (bytes : List Byte) : State := { State.reset with rxBuf := bytes }

/-- Example of R152, and V40: the byte beyond the capacity is lost and counted. -/
theorem test_clRxByte :
    after [.clRxByte 0x55] (received [0xAA]) (fun t => t.rxBuf == [0xAA, 0x55]) = true ∧
      after [.clRxByte 0x00] (received (List.replicate 256 0x00))
        (fun t => t.rxBuf.length == 256 && t.cnt.overrun == 1) = true := by decide +kernel

/-- V33: the damaged COMMAND is dropped byte by byte, the PING behind it is returned, one CRC drop is counted. -/
theorem test_clPoll_flipped_bit :
    after [.clPoll] (received
      [0xAA, 0x55, 0x01, 0x01, 0x08, 0x00, 0xA4, 0x70, 0xB9, 0x3E, 0x85, 0xEB, 0x51, 0xBF, 0xC5, 0x34,
        0xAA, 0x55, 0x01, 0x03, 0x00, 0x00, 0x24, 0xAB])
      (fun t => t.result == .frame (some ⟨3, []⟩) && t.cnt == ⟨1, 0, 1, 0, 0⟩ && t.rxBuf == []) = true := by decide +kernel

/-- V37, V38: an oversized header and an unusable frame, each before an empty PING. -/
theorem test_clPoll_causes :
    after [.clPoll] (received [0xAA, 0x55, 0x01, 0x01, 0x41, 0x00, 0xAA, 0x55, 0x01, 0x03, 0x00, 0x00, 0x24, 0xAB])
        (fun t => t.result == .frame (some ⟨3, []⟩) && t.cnt == ⟨1, 1, 0, 0, 0⟩) = true ∧
      after [.clPoll] (received
        [0xAA, 0x55, 0x01, 0x09, 0x00, 0x00, 0xE5, 0x6C, 0xAA, 0x55, 0x01, 0x03, 0x00, 0x00, 0x24, 0xAB])
        (fun t => t.result == .frame (some ⟨3, []⟩) && t.cnt == ⟨1, 0, 0, 1, 0⟩) = true := by decide +kernel

/-- Example of R165: an empty PING is queued as AA 55 01 03 00 00 24 AB. -/
theorem test_clSend_ping :
    after [.clSend 3 []] State.reset
      (fun t => t.txFifo == [0xAA, 0x55, 0x01, 0x03, 0x00, 0x00, 0x24, 0xAB] && t.result == .status .ok) = true := by
  decide +kernel

/-- V41: the statuses and the order of the checks. -/
theorem test_clSend_statuses :
    [after [.clSend 9 (List.replicate 65 0)] State.reset (fun t => t.result == .status .badType),
      after [.clSend 3 (List.replicate 65 0)] State.reset (fun t => t.result == .status .tooLong),
      after [.clSend 1 [0, 0, 0, 0]] State.reset (fun t => t.result == .status .badLen),
      after [.clSend 3 []] { State.reset with txFifo := List.replicate 249 0 } (fun t => t.result == .status .txFull)] =
      [true, true, true, true] := by decide +kernel

/-- Example of R168. -/
theorem test_clTxByte :
    after [.clTxByte] { State.reset with txFifo := [0xAA, 0x55] }
      (fun t => t.txFifo == [0x55] && t.txLine == [0xAA]) = true := by decide +kernel

/-- R172, with the counters of V36 (a). -/
theorem test_clStats :
    after [.clStats] { State.reset with cnt := ⟨2, 0, 1, 0, 0⟩ }
      (fun t => t.result == .stats ⟨2, 0, 1, 0, 0⟩ && t.cnt == ⟨2, 0, 1, 0, 0⟩) = true := by decide +kernel

/-- V30: the step that takes the frame is the CL.RXBYTE of its first byte; one CL.RXBYTE for each of the others comes next. -/
theorem test_frameCommand :
    after [.frameCommand 0x3EBD70A4 0xBF51EB85 0x34C5] State.reset
      (fun t => t == { State.reset with rxBuf := [0xAA], input := [.script (frameV30.tail.flatMap fun c => [0x20, c])] }) =
      true := by decide +kernel

/-- V32, second frame: seq 0, status 4, all else zero, CRC bytes 84 91. -/
theorem test_frameTelem :
    after [.frameTelem ⟨0, 4, 0, 0, 0, 0, 0, 0, 0, 0⟩ 0x9184] State.reset (fun t => t.rxBuf == [0xAA] &&
      t.input == [.script (([0x55, 0x01, 0x02, 0x17, 0x00, 0x00, 0x00, 0x04] ++ List.replicate 20 0x00 ++ [0x84, 0x91]).flatMap
        fun c => [0x20, c])]) = true := by decide +kernel

/-- V39 (d): a PING with a wrong CRC field, taken from the line byte by byte, is dropped by the CL.POLL after it and counted. -/
theorem test_framePing :
    (match Host.Core.run core 9
        { State.reset with input := [.wire [0xAA, 0x55, 0x01, 0x03, 0x00, 0x00, 0x24, 0xAC], .script [0x21]] } with
      | .next t => t.result == .frame none && t.cnt == ⟨0, 0, 1, 0, 0⟩ && t.rxBuf == [] && t.input == []
      | _ => false) = true := by decide +kernel

/-- V39 (e), the second frame. -/
theorem test_framePong :
    after [.framePong [] 0x2EB4] State.reset (fun t => t.rxBuf == [0xAA] &&
      t.input == [.script [0x20, 0x55, 0x20, 0x01, 0x20, 0x04, 0x20, 0x00, 0x20, 0x00, 0x20, 0xB4, 0x20, 0x2E]]) = true := by
  decide +kernel

/-! ### ActuationDriver, time, reset -/

/-- The carrier running since 0 with shadows written (example of R205). -/
def running : State :=
  { State.reset with pwmEnabled := true, pwShadow := ⟨1685, 1090⟩, pwmTrace := [⟨0, 1500, 1500⟩] }

/-- V50, the rows that differ in kind, both infinities and a NaN included (rule R195). -/
theorem test_axisToPulse_table :
    [0xBF800000, 0xBF51EB85, 0xBE000000, 0xBA83126F, 0x80000000, 0x00000000, 0x3A800000, 0x3A83126F, 0x3E000000, 0x3EBD70A4,
      0x3F7FBE77, 0x3F800000, 0x7F800000, 0xFF800000, 0x7FC00000].map (axisToPulse Params.default) =
      [1000, 1090, 1437, 1499, 1500, 1500, 1500, 1501, 1563, 1685, 2000, 2000, 2000, 1000, 1500] := by decide +kernel

/-- Example of R205: two boundaries passed. -/
theorem test_tAdv_periods :
    after [.tAdv 45000] running (fun t => t.now == 45000 && t.periodStart == 40000 && t.pwActive == ⟨1685, 1090⟩ &&
      t.pwmTrace == [⟨0, 1500, 1500⟩, ⟨20000, 1685, 1090⟩, ⟨40000, 1685, 1090⟩]) = true := by decide +kernel

/-- R205: one microsecond before the boundary nothing but `now` has changed. -/
theorem test_tAdv_short :
    after [.tAdv 19999] running (fun t => t == { running with now := 19999 }) = true := by decide +kernel

/-- Example of R192. -/
theorem test_adInit :
    after [.adInit] State.reset (fun t => t.pwmEnabled && t.pwShadow == ⟨1500, 1500⟩ && t.pwActive == ⟨1500, 1500⟩ &&
      t.pwmTrace == [⟨0, 1500, 1500⟩]) = true := by decide +kernel

/-- R192: a second AD.INIT does not restart the carrier. -/
theorem test_adInit_again :
    after [.adInit] { running with now := 700 } (fun t => t.pwShadow == ⟨1500, 1500⟩ && t.periodStart == 0 &&
      t.pwmTrace == [⟨0, 1500, 1500⟩]) = true := by decide +kernel

/-- Examples of R194. -/
theorem test_adSetPw :
    after [.adSetPw 1 2500] running (fun t => t.pwShadow == ⟨1685, 2000⟩ && t.result == .status .ok) = true ∧
      after [.adSetPw 2 1500] running (fun t => t.pwShadow == ⟨1685, 1090⟩ && t.result == .status .badChannel) = true := by
  decide +kernel

/-- R194, R262: the channel is checked before the initialisation. -/
theorem test_adSetPw_order :
    after [.adSetPw 2 1500] State.reset (fun t => t.result == .status .badChannel) = true ∧
      after [.adSetPw 0 1500] State.reset (fun t => t.result == .status .notInit) = true := by decide +kernel

/-- Example of R196. -/
theorem test_adSetAxis :
    after [.adSetAxis 0 0xBF51EB85] running (fun t => t.pwShadow == ⟨1090, 1090⟩ && t.result == .status .ok) = true := by
  decide +kernel

/-- Example of R198. -/
theorem test_adNeutral :
    after [.adNeutral] running (fun t => t.pwShadow == ⟨1500, 1500⟩ && t.pwActive == ⟨1500, 1500⟩) = true := by
  decide +kernel

/-- R207, R55: registers at their reset values, histories kept. -/
theorem test_sysReset :
    after [.sysReset] { running with now := 7, txLine := [1], cnt := ⟨1, 1, 1, 1, 1⟩ } (fun t =>
      t == { State.reset with txLine := [1], pwmTrace := [⟨0, 1500, 1500⟩] }) = true := by decide +kernel

/-- R199: high for the first pw_active microseconds of the period. -/
theorem test_pinHigh : pinHigh running .ch0 1499 = true ∧ pinHigh running .ch0 1500 = false := by decide +kernel

/-- R105, R106: written operations. -/
theorem test_assembly :
    assembleLine Params.default "AD.SETPW 1, 0x09C4 ; clamped".toList = some (.ops [.adSetPw 1 2500]) ∧
      assembleLine Params.default "AD.SETAXIS 0, -0.82".toList = some (.ops [.adSetAxis 0 0xBF51EB85]) ∧
      assembleLine Params.default "PC.PULSE 1, 1200".toList = some (.ops [.pcRise .ch1, .tAdv 1200, .pcFall .ch1]) ∧
      assembleLine Params.default "CL.SEND 3, [0xDE, 0xAD]".toList = some (.ops [.clSend 3 [0xDE, 0xAD]]) := by decide +kernel

/-- Programs P2 and P4 of 95_test_vectors.md: a list of bytes without commas is in hexadecimal. -/
theorem test_assembly_hex_list :
    assembleLine Params.default "CL.SEND 1, [00 00 00 00]".toList = some (.ops [.clSend 1 [0, 0, 0, 0]]) ∧
      assembleLine Params.default "CL.SEND 3, [DE AD]".toList = some (.ops [.clSend 3 [0xDE, 0xAD]]) ∧
      assembleLine Params.default "CL.SEND 9, []".toList = some (.ops [.clSend 9 []]) := by decide +kernel

/-- R106: a status above 8 bits spells no CL.SENDTELEM where the status has one byte (assumption 13). -/
theorem test_assembly_refuses_wide_status :
    assembleLine Params.default "CL.SENDTELEM 0, 256, 0, 0, 0, 0, 0, 0, 0, 0".toList = none ∧
      (assembleLine Params.default "CL.SENDTELEM 0, 255, 0, 0, 0, 0, 0, 0, 0, 0".toList).isSome = true := by
  decide +kernel

/-- R236: 0.012 and -0.034 are 12 and -34 (the readings of V32), 40 saturates; a fault holds the snapshot and is logged once. -/
theorem test_sensor_read :
    ((sensorRead none (sensorRead none (sensorRead (some ⟨3 / 250, -(17 / 500), 40, 0, 0, 0⟩) (HostVars.initial 0)))).imu,
      (sensorRead none (sensorRead none (HostVars.initial 0))).log) =
      (⟨12, BitVec.ofInt 16 (-34), 32767, 0, 0, 0⟩, [.sensorFault]) := by decide +kernel

/-! ### Witnesses: for each statement with hypotheses, values that meet them together -/

/-- A valid record at the edges of rule R7: 32 time bits, one counter bit, two status bytes, the smallest payload bound and
capacities. -/
def edgeParams : Params :=
  { Params.default with
    timeBits := 32, cntBits := 1, telemStatusBytes := 2, maxPayloadLen := 24, rxBufCap := 32, txFifoCap := 32
    rcPulseMinUs := 1, rcPulseMaxUs := 65535, minUs := 0, neutralUs := 1, maxUs := 65535, pwmPeriodUs := 65536 }

theorem test_valid_default : Params.default.Valid := by decide
theorem test_valid_edge : edgeParams.Valid := by decide

/-- DecodeGivesBackEncodedInstruction, StepRunsEncodedInstruction. -/
theorem test_witness_decode :
    edgeParams.Valid ∧ WellFormed edgeParams (.clSend 3 [0xDE, 0xAD]) = true ∧
      WellFormed edgeParams (.frameTelem ⟨0, 0xFFFF, 0, 0, 0, 0, 0, 0, 0, 0⟩ 0) = true ∧
      WellFormed Params.default (.frameTelem ⟨0, 0x00FF, 0, 0, 0, 0, 0, 0, 0, 0⟩ 0) = true := by decide

/-- IllFormedScriptsSpellNoOperation, clause by clause: an opcode between two known ones, channel 2, the first and the last proper
prefix, and a tail that spells nothing. -/
theorem test_witness_ill_formed :
    (0x15 : Byte) ∉ ([0x00, 0x10, 0x11, 0x12, 0x13, 0x14, 0x20, 0x21, 0x22, 0x23, 0x24, 0x30, 0x31, 0x32, 0x33, 0xF0] :
        List Byte) ∧ 2 ≤ (0x02 : Byte).toNat ∧ 0 < (encode Params.default (.adSetPw 1 2500)).length ∧
      3 < (encode Params.default (.adSetPw 1 2500)).length ∧ (Instr.adSetPw 1 2500).stream = .script ∧
      WellFormed Params.default (.adSetPw 1 2500) = true ∧ ([0x15] : List Byte) ≠ [] ∧
      decodeOp [0x15] = .error (.unknownOpcode 0x15) :=
  ⟨by decide, by decide, by decide, by decide, rfl, rfl, by decide, rfl⟩

/-- DecodeScriptGivesBackOperations, and the last clause of IllFormedScriptsSpellNoOperation: operations of a script. -/
theorem test_witness_script :
    ∀ i ∈ [Instr.clSend 3 [0xDE, 0xAD], .tAdv 1685], i.stream = .script ∧ WellFormed Params.default i = true := by decide

/-- StepRunsDecodedInstruction: a script and a wire chunk, each with and without bytes after the instruction. -/
theorem test_witness_step :
    State.reset.params.Valid ∧ decodeOp [0x21] = .ok (.clPoll, []) ∧ decodeScript [] = .ok [] ∧
      decodeOp [0x21, 0x13] = .ok (.clPoll, [0x13]) ∧ decodeScript [0x13] = .ok [.pcPoll] ∧
      decodeFrame Params.default [0xAA, 0x55, 0x01, 0x04, 0x00, 0x00, 0xB4, 0x2E] = .ok (.framePong [] 0x2EB4, []) ∧
      decodeFrame Params.default [0xAA, 0x55, 0x01, 0x04, 0x00, 0x00, 0xB4, 0x2E, 0xAA] =
        .ok (.framePong [] 0x2EB4, [0xAA]) := ⟨by decide, rfl, rfl, rfl, rfl, rfl, rfl⟩

/-- StepRefusesBadRecordAndScript: a record without a segment below neutral; a script ill-formed at its front and one
after a good operation; line bytes that are no frame. -/
theorem test_witness_refusal :
    ¬ ({ Params.default with minUs := 1500 } : Params).Valid ∧ State.reset.params.Valid ∧
      decodeScript [0x15] = .error (.unknownOpcode 0x15) ∧ decodeScript [0x30, 0x15] = .error (.unknownOpcode 0x15) ∧
      decodeFrame Params.default [0xAA, 0x55, 0x01] = .error .truncated := ⟨by decide, by decide, rfl, rfl, rfl⟩

/-- AdvanceFollowsItsRule: disabled, one microsecond before the boundary, and exactly at it. -/
theorem test_witness_advance :
    State.reset.pwmEnabled = false ∧ running.pwmEnabled = true ∧
      (19999 : Word32).toNat < running.params.pwmPeriodUs - tsub running.params running.now running.periodStart ∧
      tsub running.params running.now running.periodStart < running.params.pwmPeriodUs ∧
      20000 = running.params.pwmPeriodUs - tsub running.params running.now running.periodStart ∧
      20000 ≤ (20000 : Word32).toNat ∧ 20000 = (running.now + 20000) % running.params.timeMod := by decide +kernel

/-- AdvanceStartsEveryPeriodPassed with no period, one and two. -/
theorem test_witness_periods :
    running.pwmEnabled = true ∧ 0 < running.params.pwmPeriodUs ∧ running.periodStart < running.params.timeMod ∧
      tsub running.params running.now running.periodStart < running.params.pwmPeriodUs ∧
      0 = (tsub running.params running.now running.periodStart + (19999 : Word32).toNat) / running.params.pwmPeriodUs ∧
      1 = (tsub running.params running.now running.periodStart + (20000 : Word32).toNat) / running.params.pwmPeriodUs ∧
      2 = (tsub running.params running.now running.periodStart + (45000 : Word32).toNat) / running.params.pwmPeriodUs := by
  decide +kernel

/-- SplitAdvanceEqualsWhole. -/
theorem test_witness_split :
    0 < running.params.pwmPeriodUs ∧ running.params.pwmPeriodUs ≤ running.params.timeMod ∧
      (running.pwmEnabled = true → tsub running.params running.now running.periodStart < running.params.pwmPeriodUs) ∧
      (19999 : Word32).toNat + (2 : Word32).toNat < 2 ^ 32 ∧
      ∃ t, exec (.tAdv 19999) running = .next t := ⟨by decide, by decide +kernel, by decide +kernel, by decide, ⟨_, rfl⟩⟩

/-- A state with an armed channel 0 that rose at 100. -/
def armedAt (now : Nat) : State := { State.reset with now := now, riseTs := ⟨100, 0⟩, armed := ⟨true, false⟩ }

/-- FallRecordsWidthInsideWindow: not armed; just outside and just inside both bounds. -/
theorem test_witness_fall :
    State.reset.params.rcPulseMaxUs ≤ 65535 ∧ State.reset.armed.get .ch0 = false ∧ (armedAt 999).armed.get .ch0 = true ∧
      899 = tsub (armedAt 999).params (armedAt 999).now ((armedAt 999).riseTs.get .ch0) ∧
      900 = tsub (armedAt 1000).params (armedAt 1000).now ((armedAt 1000).riseTs.get .ch0) ∧
      2100 = tsub (armedAt 2200).params (armedAt 2200).now ((armedAt 2200).riseTs.get .ch0) ∧
      2101 = tsub (armedAt 2201).params (armedAt 2201).now ((armedAt 2201).riseTs.get .ch0) ∧
      899 < (armedAt 999).params.rcPulseMinUs ∧ (armedAt 999).params.rcPulseMinUs = 900 ∧
      (armedAt 999).params.rcPulseMaxUs = 2100 := by decide +kernel

/-- ReadGivesAxisOfFreshChannel: the first byte that names no channel, and the last that does. -/
theorem test_witness_read : 2 ≤ (0x02 : Byte).toNat ∧ (0x01 : Byte) = (match Chan.ch1 with | .ch0 => 0 | .ch1 => 1) := by
  decide

/-- PollSamplesBothChannels: with both channels fresh, and with channel 1 stale. -/
theorem test_witness_poll :
    (∃ t0 t1 x y, exec (.pcRead 0) { heardBoth with now := 2000 } = .next t0 ∧
        exec (.pcRead 1) { heardBoth with now := 2000 } = .next t1 ∧
        t0.result = .axis (some x) ∧ t1.result = .axis (some y)) ∧
      ∃ t0 t1 x, exec (.pcRead 0) { heard with now := 6500 } = .next t0 ∧
        exec (.pcRead 1) { heard with now := 6500 } = .next t1 ∧
        t0.result = .axis (some x) ∧ t1.result = .axis none :=
  ⟨⟨_, _, pulseToAxis Params.default 1800, pulseToAxis Params.default 1200, rfl, rfl, by decide +kernel, by decide +kernel⟩,
    ⟨_, _, pulseToAxis Params.default 1685, rfl, rfl, by decide +kernel, by decide +kernel⟩⟩

/-- PulseIsReadBackAsItsAxis, WriteReachesPinAtNextBoundary, EveryStepKeepsTheInvariant: a state with the carrier running. -/
theorem test_witness_invariant : Inv running :=
  ⟨by decide, by decide +kernel, by decide +kernel, by decide, by decide, by decide, by decide +kernel⟩

/-- PulseIsReadBackAsItsAxis: the shortest and the longest accepted pulse. -/
theorem test_witness_pulse :
    running.params.rcPulseMinUs ≤ (900 : Word32).toNat ∧ (2100 : Word32).toNat ≤ running.params.rcPulseMaxUs := by decide

/-- RoundingIsNearestTiesEven at both ends, and a finite binary32 to compare with. -/
theorem test_witness_rounding : 0 < 3 ∧ 0 ≤ 3 ∧ 3 ≤ 3 ∧ f32Exp 0x7F7FFFFF < 255 := by decide +kernel

/-- PulseToAxisRoundsTheExactRatio, PulseToAxisIsMonotonicOntoUnitRange. -/
theorem test_witness_mapping : edgeParams.Valid ∧ (1500 ≤ 1501) := by decide

/-- AxisToPulseStaysInRange: a NaN, one and minus one, both infinities. -/
theorem test_witness_axis :
    f32IsNaN 0x7FC00001 = true ∧ f32IsNaN 0x3F800000 = false ∧ f32Neg 0x3F800000 = false ∧
      f32Den 0x3F800000 ≤ f32Num 0x3F800000 ∧ f32Neg 0xBF800000 = true ∧ f32Den 0xBF800000 ≤ f32Num 0xBF800000 ∧
      f32IsNaN 0x7F800000 = false ∧ f32Den 0x7F800000 ≤ f32Num 0x7F800000 ∧ f32IsNaN 0xFF800000 = false ∧
      f32Den 0xFF800000 ≤ f32Num 0xFF800000 := by decide +kernel

/-- AxisToPulseRoundsToNearestMicrosecond at one and at the smallest subnormal; AxisToPulseIsMonotonic at minus one and one. -/
theorem test_witness_nearest :
    f32IsNaN 0x3F800000 = false ∧ f32Num 0x3F800000 ≤ f32Den 0x3F800000 ∧ f32IsNaN 0x00000001 = false ∧
      f32Num 0x00000001 ≤ f32Den 0x00000001 ∧ f32IsNaN 0xBF800000 = false ∧ f32ToRat 0xBF800000 ≤ f32ToRat 0x3F800000 := by
  decide +kernel

/-- AxisToPulseRoundsToNearestMicrosecond at a product exactly half way on either side (V50: BE000000 gives 1437 and 3E000000
gives 1563, further from 1500 than 1438 and 1562). -/
theorem test_witness_half_way :
    f32IsNaN 0xBE000000 = false ∧ f32Num 0xBE000000 ≤ f32Den 0xBE000000 ∧ f32ToRat 0xBE000000 * (500 : ℚ) = -(125 / 2) ∧
      |(axisToPulse Params.default 0xBE000000 : ℚ) - (1500 - 125 / 2)| = 1 / 2 ∧ f32IsNaN 0x3E000000 = false ∧
      f32Num 0x3E000000 ≤ f32Den 0x3E000000 ∧ f32ToRat 0x3E000000 * (500 : ℚ) = 125 / 2 ∧
      |(axisToPulse Params.default 0x3E000000 : ℚ) - (1500 + 125 / 2)| = 1 / 2 := by decide +kernel

/-- AxisSurvivesRoundTripWithinHalfMicrosecond at both ends and at zero. -/
theorem test_witness_axis_trip :
    edgeParams.Valid ∧ f32IsNaN 0xBF800000 = false ∧ f32ToRat 0xBF800000 = -1 ∧ f32IsNaN 0x3F800000 = false ∧
      f32ToRat 0x3F800000 = 1 ∧ f32ToRat 0x80000000 = 0 := by decide +kernel

/-- WidthSurvivesRoundTripThroughAxis at both ends. -/
theorem test_witness_round_trip :
    Params.default.Valid ∧ Params.default.neutralUs - Params.default.minUs < 2 ^ 22 ∧
      Params.default.maxUs - Params.default.neutralUs < 2 ^ 22 ∧ Params.default.minUs ≤ 1000 ∧ 2000 ≤ Params.default.maxUs := by
  decide

/-- ReceivedByteIsKeptOrCounted: one place left, and none. -/
theorem test_witness_received :
    (received (List.replicate 255 0)).rxBuf.length < (received (List.replicate 255 0)).params.rxBufCap ∧
      (received (List.replicate 256 0)).params.rxBufCap ≤ (received (List.replicate 256 0)).rxBuf.length := by decide +kernel

/-- The first hypothesis of PollFollowsTheParserLoop: too few bytes. -/
abbrev TooFew (s : State) : Prop :=
  s.rxBuf.length < 1 ∨ byteAt s.rxBuf 0 = s.params.preamble0 ∧ (s.rxBuf.length < 2 ∨
    byteAt s.rxBuf 1 = s.params.preamble1 ∧ (s.rxBuf.length < 6 ∨
      (word16At s.rxBuf 4).toNat ≤ s.params.maxPayloadLen ∧ s.rxBuf.length < 8 + (word16At s.rxBuf 4).toNat))

/-- The hypothesis of its second clause: a preamble mismatch. -/
abbrev Mismatched (s : State) : Prop :=
  1 ≤ s.rxBuf.length ∧ byteAt s.rxBuf 0 ≠ s.params.preamble0 ∨ 2 ≤ s.rxBuf.length ∧
    byteAt s.rxBuf 0 = s.params.preamble0 ∧ byteAt s.rxBuf 1 ≠ s.params.preamble1

/-- The hypotheses of its other clauses up to the length: preamble and header. -/
abbrev HasHeader (s : State) (L : Nat) : Prop :=
  L = (word16At s.rxBuf 4).toNat ∧ 6 ≤ s.rxBuf.length ∧ byteAt s.rxBuf 0 = s.params.preamble0 ∧
    byteAt s.rxBuf 1 = s.params.preamble1

/-- The hypotheses on a complete candidate whose CRC matches. -/
abbrev HasFrame (s : State) (L : Nat) : Prop :=
  HasHeader s L ∧ L ≤ s.params.maxPayloadLen ∧ 8 + L ≤ s.rxBuf.length ∧
    word16At s.rxBuf (6 + L) = crc16 s.params (slice s.rxBuf 2 (4 + L))

/-- PollFollowsTheParserLoop, first clause: empty, one byte, an incomplete header, one byte of the frame missing. -/
theorem test_witness_poll_waits :
    TooFew (received []) ∧ TooFew (received [0xAA]) ∧ TooFew (received [0xAA, 0x55, 0x01, 0x03, 0x00]) ∧
      TooFew (received [0xAA, 0x55, 0x01, 0x03, 0x00, 0x00, 0x24]) := by decide +kernel

/-- Second clause: a mismatch on the first byte and on the second. -/
theorem test_witness_poll_mismatch : Mismatched (received [0x55]) ∧ Mismatched (received [0xAA, 0xAA]) := by decide +kernel

/-- The first length that is oversize (V37), and a wrong CRC (V39 (d)). -/
theorem test_witness_poll_drops :
    HasHeader (received [0xAA, 0x55, 0x01, 0x01, 0x41, 0x00]) 65 ∧ Params.default.maxPayloadLen < 65 ∧
      HasHeader (received [0xAA, 0x55, 0x01, 0x03, 0x00, 0x00, 0x24, 0xAC]) 0 ∧
      8 + 0 ≤ (received [0xAA, 0x55, 0x01, 0x03, 0x00, 0x00, 0x24, 0xAC]).rxBuf.length ∧
      word16At [0xAA, 0x55, 0x01, 0x03, 0x00, 0x00, 0x24, 0xAC] (6 + 0) ≠
        crc16 Params.default (slice [0xAA, 0x55, 0x01, 0x03, 0x00, 0x00, 0x24, 0xAC] 2 (4 + 0)) := by decide +kernel

/-- The unusable frames of V38, one for each reason: version, type, length of COMMAND, length of TELEM. -/
theorem test_witness_poll_unusable :
    HasFrame (received [0xAA, 0x55, 0x02, 0x01, 0x08, 0x00, 0, 0, 0, 0, 0, 0, 0, 0, 0x11, 0x10]) 8 ∧
      (0x02 : Byte) ≠ Params.default.protoVersion ∧
      HasFrame (received [0xAA, 0x55, 0x01, 0x09, 0x00, 0x00, 0xE5, 0x6C]) 0 ∧
      (0x09 : Byte) ∉ [Params.default.mtCommand, Params.default.mtTelem, Params.default.mtPing, Params.default.mtPong] ∧
      HasFrame (received [0xAA, 0x55, 0x01, 0x01, 0x04, 0x00, 0, 0, 0, 0, 0x2D, 0xC8]) 4 ∧
      HasFrame (received [0xAA, 0x55, 0x01, 0x02, 0x08, 0x00, 0, 0, 0, 0, 0, 0, 0, 0, 0x74, 0x6D]) 8 := by decide +kernel

/-- Frames to expose: an empty PING and the COMMAND of V30. -/
theorem test_witness_poll_exposed :
    HasFrame (received [0xAA, 0x55, 0x01, 0x03, 0x00, 0x00, 0x24, 0xAB]) 0 ∧ HasFrame (received frameV30) 8 ∧
      byteAt frameV30 2 = Params.default.protoVersion ∧ byteAt frameV30 3 = Params.default.mtCommand := by decide +kernel

/-- PollExposesOnlyAcceptedFrames and PollNoneLeavesPrefixOfAFrame. -/
theorem test_witness_poll_results :
    (∃ t f, exec .clPoll (received frameV30) = .next t ∧ t.result = .frame (some f)) ∧
      ∃ t, exec .clPoll (received [0xAA, 0x55]) = .next t ∧ t.result = .frame none :=
  ⟨⟨_, ⟨1, [0xA4, 0x70, 0xBD, 0x3E, 0x85, 0xEB, 0x51, 0xBF]⟩, rfl, by decide +kernel⟩, ⟨_, rfl, by decide +kernel⟩⟩

/-- TransmitTakesHeadByte: an empty FIFO and one byte. -/
theorem test_witness_transmit :
    State.reset.txFifo = [] ∧ ({ State.reset with txFifo := [0xAA] } : State).txFifo = 0xAA :: [] := ⟨rfl, rfl⟩

/-- CrcDetectsEveryChangedByte. -/
theorem test_witness_changed_byte : (0xBD : Byte) ≠ 0xB9 := by decide

/-- EncodedFramesAreAccepted, PollReturnsEncodedFrame, SentFrameArrivesUnchanged: the longest PING, the shortest, a COMMAND. -/
theorem test_witness_sendable :
    Params.default.Valid ∧ Sendable Params.default 3 (List.replicate 64 0) ∧ Sendable Params.default 3 [] ∧
      Sendable Params.default 1 (List.replicate 8 0) ∧ State.reset.txFifo = [] ∧ State.reset.rxBuf = [] := by decide +kernel

/-- PayloadsUnpackToWhatWasPacked: the largest status of one byte. -/
theorem test_witness_payload : statusFits Params.default ⟨0, 0x00FF, 0, 0, 0, 0, 0, 0, 0, 0⟩ = true := by decide

/-- ParserResynchronisesAcrossGarbage: V39 (b)'s byte 55 between two PINGs. -/
theorem test_witness_garbage :
    (∀ b ∈ ([0x55, 0x00] : List Byte), b ≠ Params.default.preamble0) ∧
      (received (encodeFrame Params.default 3 [] ++ [0x55, 0x00] ++ encodeFrame Params.default 4 [])).rxBuf =
        encodeFrame Params.default 3 [] ++ [0x55, 0x00] ++ encodeFrame Params.default 4 [] ∧
      Sendable Params.default 3 [] ∧ Sendable Params.default 4 [] := ⟨by decide, rfl, by decide, by decide⟩

/-- FramesArriveByteByByte: an empty buffer and a full one; the bytes of a PING and of V30's COMMAND. -/
theorem test_witness_arrival :
    (received []).rxBuf.length ≤ (received []).params.rxBufCap ∧
      (received (List.replicate 256 0)).rxBuf.length ≤ (received (List.replicate 256 0)).params.rxBufCap ∧
      State.reset.cnt.overrun < 2 ^ State.reset.params.cntBits ∧
      (0xAA : Byte) :: [0x55, 0x01, 0x03, 0x00, 0x00, 0x24, 0xAB] =
        [State.reset.params.preamble0, State.reset.params.preamble1, State.reset.params.protoVersion,
          State.reset.params.mtPing] ++ u16le (BitVec.ofNat 16 0) ++ [] ++ u16le 0xAB24 ∧
      frameV30 = [State.reset.params.preamble0, State.reset.params.preamble1, State.reset.params.protoVersion,
        State.reset.params.mtCommand, 8, 0] ++ u32le 0x3EBD70A4 ++ u32le 0xBF51EB85 ++ u16le 0x34C5 ∧
      WellFormed State.reset.params (.framePing [] 0xAB24) = true := by decide +kernel

/-- ArrivedFrameIsPolled: one frame of each type. -/
theorem test_witness_arrived :
    Sendable Params.default 1 (packCommand 0x3EBD70A4 0xBF51EB85) ∧
      (0x34C5 : Word16) = crc16 Params.default (frameBody Params.default 1 (packCommand 0x3EBD70A4 0xBF51EB85)) ∧
      Sendable Params.default 2 (packTelem Params.default ⟨0, 4, 0, 0, 0, 0, 0, 0, 0, 0⟩) ∧
      (0x9184 : Word16) =
        crc16 Params.default (frameBody Params.default 2 (packTelem Params.default ⟨0, 4, 0, 0, 0, 0, 0, 0, 0, 0⟩)) ∧
      (0xAB24 : Word16) = crc16 Params.default (frameBody Params.default 3 []) ∧
      (0x2EB4 : Word16) = crc16 Params.default (frameBody Params.default 4 []) ∧
      WellFormed Params.default (.frameCommand 0x3EBD70A4 0xBF51EB85 0x34C5) = true ∧
      WellFormed Params.default (.frameTelem ⟨0, 4, 0, 0, 0, 0, 0, 0, 0, 0⟩ 0x9184) = true ∧
      State.reset.cnt.overrun < 2 ^ State.reset.params.cntBits ∧ State.reset.rxBuf = [] := by decide +kernel

/-- InitStartsCarrierOnceAtNeutral, SetPulseWritesClampedShadow, SetAxisIsSetPulseOfMappedAxis, NeutralWritesBothShadows:
enabled and not; channel 2 and channel 1. -/
theorem test_witness_actuation :
    State.reset.pwmEnabled = false ∧ running.pwmEnabled = true ∧ running.params.Valid ∧
      (1500 : Word16) = BitVec.ofNat 16 running.params.neutralUs ∧ 2 ≤ (0x02 : Byte).toNat ∧ (0x01 : Byte).toNat < 2 := by
  decide

/-- PinIsHighForTheActiveWidth: the last microsecond of a period. -/
theorem test_witness_pin :
    State.reset.pwmEnabled = false ∧ running.pwmEnabled = true ∧
      (running.pwActive.get .ch0).toNat ≤ running.params.pwmPeriodUs ∧
      running.params.pwmPeriodUs ≤ running.params.timeMod ∧ running.periodStart < running.params.timeMod ∧
      19999 < running.params.pwmPeriodUs := by decide +kernel

/-- WriteReachesPinAtNextBoundary: a write in the last microsecond before the boundary. -/
theorem test_witness_write :
    (Instr.adSetPw 0 1600).agent = .host ∧ (∃ t, exec (.adSetPw 0 1600) { running with now := 19999 } = .next t) ∧
      (1 : Word32).toNat = running.params.pwmPeriodUs - tsub running.params 19999 running.periodStart :=
  ⟨rfl, ⟨_, rfl⟩, by decide +kernel⟩

theorem test_witness_write_invariant : Inv { running with now := 19999 } :=
  ⟨by decide, by decide +kernel, by decide +kernel, by decide, by decide, by decide, by decide +kernel⟩

/-- NothingIsSeenAfterReset: the last channel that exists. ResetMeetsTheInvariant: a record far from the defaults. -/
theorem test_witness_reset : (∃ t, exec .sysReset running = .next t) ∧ (0x01 : Byte).toNat < 2 ∧ edgeParams.Valid :=
  ⟨⟨_, rfl⟩, by decide, by decide⟩

/-- EveryStepKeepsTheInvariant, EveryPulseOnThePinsIsInRange, EveryStepKeepsFramesWhole: a running state with a step to take. -/
theorem test_witness_steps :
    Inv { running with input := [.script [0x23]] } ∧ TraceSafe running ∧ Framed Params.default [] ∧
      ∃ t, step { running with input := [.script [0x23]] } = .next t :=
  ⟨test_witness_invariant, by decide, ⟨⟨3, []⟩, 8, [], by decide, by simp, rfl⟩, ⟨_, rfl⟩⟩

/-- EveryStepKeepsFramesWhole with bytes queued: the last byte of a PING, then a whole PONG. -/
theorem test_witness_framed :
    Framed Params.default ([0xAB] ++ [0xAA, 0x55, 0x01, 0x04, 0x00, 0x00, 0xB4, 0x2E]) :=
  ⟨⟨3, []⟩, 7, [⟨4, []⟩], by decide, by decide, by decide +kernel⟩

/-- EachPieceOfStateHasItsOwner and HistoriesOnlyGrow: an operation of each agent answers a next state, and agents differ. -/
theorem test_witness_owners :
    (∃ t, exec (.pcFall .ch0) (armedAt 1000) = .next t) ∧ Instr.pcPoll ≠ .sysReset ∧ Instr.pcPoll.agent ≠ .time ∧
      Instr.pcPoll.agent ≠ .edge .ch0 ∧ Instr.pcPoll.agent ≠ .serialRx ∧ Instr.pcPoll.agent ≠ .serialTx ∧
      Instr.pcPoll.stream = .script ∧ Instr.pcPoll ≠ .clPoll ∧ Instr.pcPoll ≠ .adInit ∧ Instr.pcPoll ≠ .adNeutral ∧
      (∀ ch us, Instr.pcPoll ≠ .adSetPw ch us) ∧ (∀ ch a, Instr.pcPoll ≠ .adSetAxis ch a) ∧
      ∀ u p, Instr.pcPoll ≠ .clSend u p :=
  ⟨⟨_, rfl⟩, by decide, by decide, by decide, by decide, by decide, rfl, by decide, by decide, by decide, nofun, nofun,
    nofun⟩

/-- SharedRecordIsWrittenWhole: an accepted fall changes the record. -/
theorem test_witness_record :
    ∃ t, exec (.pcFall .ch0) (armedAt 1000) = .next t ∧ t.record.get .ch0 ≠ (armedAt 1000).record.get .ch0 :=
  ⟨_, rfl, by decide +kernel⟩

/-- R11, R14: an axis beyond 1 is clamped before RN32. -/
theorem test_axis_clamped : axisOfRat 200 = 0x3F800000 ∧ axisOfRat (-2) = 0xBF800000 ∧ axisOfRat (1 / 2) = 0x3F000000 := by
  decide +kernel

/-- R236: an init failure degrades and is logged at the start. R296: AD.INIT runs at the start, and again after a SYS.RESET. -/
theorem test_host_start :
    (startHost false State.reset).vars.sensorDegraded = true ∧ (startHost false State.reset).vars.log = [.sensorFault] ∧
      (startHost true State.reset).vars.sensorDegraded = false ∧ (startHost true State.reset).block.pwmEnabled = true ∧
      (worldStep true (startHost true State.reset) .sysReset).block.pwmEnabled = true := by decide +kernel

/-- R150: a frame among the world's steps arrives whole (V31's empty PONG). -/
theorem test_world_frame :
    (worldStep true (startHost true State.reset) (.framePong [] 0x2EB4)).block.rxBuf =
      [0xAA, 0x55, 0x01, 0x04, 0x00, 0x00, 0xB4, 0x2E] := by decide +kernel

/-- R231: idempotent at the target for any rate, a negative one included. -/
theorem test_slew_idempotent : slew (-2) 100 1 1 = 1 ∧ slew 0 100 1 1 = 1 := by decide +kernel

/-- SlewLimiterConvergesWithoutOvershoot: V6's example: farther than one step, exactly one step, and enough steps. -/
theorem test_witness_slew :
    (0 : ℚ) ≤ 2 ∧ slew 2 100 1 0 = 1 / 5 ∧ slew 2 100 1 (4 / 5) = 1 ∧ (0 : ℚ) < 2 * (100 : ℕ) / 1000 ∧
      2 * (100 : ℕ) / 1000 < |(1 : ℚ) - 0| ∧ |(1 : ℚ) - 4 / 5| ≤ 2 * (100 : ℕ) / 1000 ∧
      |(1 : ℚ) - 0| ≤ (5 : ℕ) * (2 * (100 : ℕ) / 1000) := by decide +kernel

/-- Host parameters of the scenario V5. -/
def hostV5 : HostParams := ⟨100, 250, 10, 10, 10, 10, 100, 1, 2, 2⟩

/-- RcOverridesNetworkAndFailsafeForcesNeutral: V5's mark, 250 ms after the last active source. -/
theorem test_witness_failsafe :
    hostV5.failsafeTimeoutMs ≤ elapsedMs Params.default 350000 (HostVars.initial 100000).lastActiveAt ∧
      (arbitrate Params.default hostV5 (some ⟨0x3EBD70A4, 0xBF51EB85, 0, .rc⟩) 5 (HostVars.initial 0)).commandedThrottle = 0x3EBD70A4 :=
  ⟨by decide, rfl⟩

/-- HostTimesAreTestedAcrossTheWrap: TIME_BITS = 32, a time 500 microseconds before the wrap and one 250 ms after it. -/
theorem test_witness_wrap :
    250000 < edgeParams.timeMod ∧ 249500 = (4294966796 + 250000) % edgeParams.timeMod ∧
      250 = (4294966796 + 250000) / 1000 - 4294966796 / 1000 ∧
      ({ HostVars.initial 4294966796 with slot := some ⟨0, 0, 4294966796⟩ } : HostVars).slot = some ⟨0, 0, 4294966796⟩ ∧
      (HostVars.initial 4294966796).slot = none ∧ (HostVars.initial 4294966796).lastActiveAt = 4294966796 := by
  decide +kernel

end Sys2Proof.Tests
end

section
/-!
PROOFS. The decoder on encoded instructions, and the step on the front of the input (spec/30_encoding.md rules R80, R100 to R103,
R108; spec/00_scope.md rules R6, R8): O5, O6, O7.
-/

namespace Sys2Proof

open Machine

/-- A status that fits one byte is its low byte, zero-extended (rule R92). -/
theorem setWidth_lowByte {v : Word16} (h : v.toNat < 256) : (v.extractLsb' 0 8).setWidth 16 = v := by
  apply BitVec.eq_of_toNat_eq
  simp only [BitVec.toNat_setWidth, BitVec.extractLsb'_toNat, Nat.shiftRight_zero]
  omega

theorem word32At_packCommand (t s : F32) :
    word32At (packCommand t s) 0 = t ∧ word32At (packCommand t s) 4 = s :=
  ⟨word32At_u32le t _, le32_u32le s⟩

/-- Rule R92: unpacking a packed TELEM gives it back where its status fits its field. -/
theorem unpackTelem_packTelem {P : Params} (hv : P.Valid) {m : Telem} (hs : statusFits P m = true) :
    unpackTelem P (packTelem P m) = some m := by
  obtain ⟨-, -, -, -, -, -, -, -, h1 | h2, -⟩ := hv
  · have hfit : m.status.toNat < 256 := by simpa [statusFits, h1] using hs
    simp [unpackTelem, packTelem, packStatus, h1, word16At, word32At, byteAt, u16le, u32le,
      setWidth_lowByte hfit, Params.telemPayloadLen]
  · simp [unpackTelem, packTelem, packStatus, h2, word16At, word32At, byteAt, u16le, u32le,
      Params.telemPayloadLen]

/-- A frame whose type and length select a row is read back as that row's instruction, its CRC field unchecked
(rules R80, R108). -/
theorem decodeFrame_frameBytes {P : Params} {t : Byte} {p : List Byte} {crc : Word16} {i : Instr}
    (hp : p.length < 65536) (hi : frameRow P t p.length p crc = some i) (rest : List Byte) :
    decodeFrame P (frameBytes P t p crc ++ rest) = .ok (i, rest) := by
  have hcrc : word16At (p ++ (u16le crc ++ rest)) p.length = crc := by
    rw [← Nat.add_zero p.length, word16At_append rfl, word16At_u16le]
  have hdrop : (p ++ (u16le crc ++ rest)).drop (p.length + 2) = rest := by
    simp [List.drop_append, u16le]
  rw [frameBytes_append]
  simp only [decodeFrame, le16_u16le, length_field hp, and_self, if_true, List.take_left, hcrc, hi, hdrop]
  rw [if_neg (by simp [u16le])]

/-- An operation decodes back from the front of a script, with every operand at every value (rules R100 to R102). -/
theorem decodeOp_encode_append {P : Params} {i : Instr} (hk : i.stream = .script) (hw : WellFormed P i = true)
    (rest : List Byte) : decodeOp (encode P i ++ rest) = .ok (i, rest) := by
  cases i with
  | frameCommand | frameTelem | framePing | framePong => cases hk
  | tAdv d => simp [decodeOp, encode, decodeOpD, u32le]
  | pcRise c => cases c <;> rfl
  | pcFall c => cases c <;> rfl
  | adSetPw ch us => simp [decodeOp, encode, decodeOpW, u16le]
  | adSetAxis ch a => simp [decodeOp, encode, decodeOpF, u32le]
  | clSend t p =>
    have hp : p.length < 65536 := by simpa [WellFormed, lengthFits] using hw
    simp [decodeOp, encode, decodeOpS, u16le, length_field hp]
  | pcRead | pcPoll | pcActive | clRxByte | clPoll | clTxByte | clStats | adInit | adNeutral | sysReset => rfl

/-- A frame of the table decodes back from the front of the line bytes (rules R80, R108). -/
theorem decodeFrame_encode_append {P : Params} (hv : P.Valid) {i : Instr} (hk : i.stream = .wire)
    (hw : WellFormed P i = true) (rest : List Byte) : decodeFrame P (encode P i ++ rest) = .ok (i, rest) := by
  have hrecord := hv
  obtain ⟨-, -, -, ⟨hct, hcp, hcq, htp, htq, hpq⟩, hlengths⟩ := hrecord
  cases i with
  | frameCommand t s crc =>
    obtain ⟨h0, h4⟩ := word32At_packCommand t s
    have hlen : (packCommand t s).length = cmdPayloadLen := rfl
    refine decodeFrame_frameBytes (by rw [hlen]; decide) ?_ rest
    rw [frameRow, if_pos rfl, if_pos hlen, h0, h4]
  | frameTelem m crc =>
    have hlen := Laws.Encoding.packTelem_length hv m
    refine decodeFrame_frameBytes ?_ ?_ rest
    · rw [hlen, Params.telemPayloadLen]; omega
    · rw [frameRow, if_neg hct.symm, if_pos rfl, unpackTelem_packTelem hv hw]; rfl
  | framePing p crc =>
    refine decodeFrame_frameBytes (by simpa [WellFormed, lengthFits] using hw) ?_ rest
    rw [frameRow, if_neg hcp.symm, if_neg htp.symm, if_pos rfl]
  | framePong p crc =>
    refine decodeFrame_frameBytes (by simpa [WellFormed, lengthFits] using hw) ?_ rest
    rw [frameRow, if_neg hcq.symm, if_neg htq.symm, if_neg hpq.symm, if_pos rfl]
  | tAdv | pcRise | pcFall | pcRead | pcPoll | pcActive | clRxByte | clPoll | clSend | clTxByte | clStats | adInit
  | adSetPw | adSetAxis | adNeutral | sysReset => cases hk

/-- An encoding has a first byte. -/
theorem encode_eq_cons (P : Params) (i : Instr) : ∃ b bs, encode P i = b :: bs := by
  cases i <;> exact ⟨_, _, rfl⟩

namespace Machine

/-- The step under a valid record where the input has a next instruction. -/
theorem step_of_nextInstr {s : State} {i : Instr} {later : List Chunk} (hv : s.params.Valid)
    (hn : nextInstr s.params s.input = .ok (i, later)) : step s = exec i { s with input := later } := by
  simp only [step, fetch, if_pos hv, hn]

/-- The step under a valid record where the input has no next instruction. -/
theorem step_of_nextInstr_error {s : State} {r : Refusal} (hv : s.params.Valid)
    (hn : nextInstr s.params s.input = .error r) : step s = .refused r := by
  simp only [step, fetch, if_pos hv, hn]

/-- A well-formed script gives its first operation and leaves the rest (rules R100, R103). -/
theorem nextInstr_script {P : Params} {b : Byte} {bs rest : List Byte} {later : List Chunk} {i : Instr} {is : List Instr}
    (hd : decodeOp (b :: bs) = .ok (i, rest)) (hrest : decodeScript rest = .ok is) :
    nextInstr P (.script (b :: bs) :: later) = .ok (i, pushScript rest later) := by
  have hscript : decodeScript (b :: bs) = .ok (i :: is) := by simp only [decodeScript_cons, hd, hrest]
  simp only [nextInstr, hscript, hd]

/-- Line bytes that begin with a frame give it and leave the rest (rule R108). -/
theorem nextInstr_wire {P : Params} {b : Byte} {bs rest : List Byte} {later : List Chunk} {i : Instr}
    (hd : decodeFrame P (b :: bs) = .ok (i, rest)) :
    nextInstr P (.wire (b :: bs) :: later) = .ok (i, pushWire rest later) := by
  simp only [nextInstr, hd]

/-- The encoding of a well-formed operation, alone in its chunk, gives the operation and uses the chunk up. -/
theorem nextInstr_encode_script {P : Params} {i : Instr} (hk : i.stream = .script) (hw : WellFormed P i = true)
    (later : List Chunk) : nextInstr P (.script (encode P i) :: later) = .ok (i, later) := by
  have hd := decodeOp_encode_append hk hw []
  rw [List.append_nil] at hd
  obtain ⟨b, bs, he⟩ := encode_eq_cons P i
  rw [he] at hd ⊢
  exact nextInstr_script hd decodeScript_nil

/-- The encoding of a well-formed frame, alone in its chunk, gives the frame and uses the chunk up. -/
theorem nextInstr_encode_wire {P : Params} (hv : P.Valid) {i : Instr} (hk : i.stream = .wire)
    (hw : WellFormed P i = true) (later : List Chunk) :
    nextInstr P (.wire (encode P i) :: later) = .ok (i, later) := by
  have hd := decodeFrame_encode_append hv hk hw []
  rw [List.append_nil] at hd
  obtain ⟨b, bs, he⟩ := encode_eq_cons P i
  rw [he] at hd ⊢
  exact nextInstr_wire hd

end Machine

end Sys2Proof

namespace Sys2Proof.Proofs

open Sys2Proof Sys2Proof.Machine

/-- Settles O5: the fetch takes exactly the bytes that the decoder took. -/
theorem stepRunsDecodedInstruction : Obligations.StepRunsDecodedInstruction := by
  intro s b bs rest later i hv
  refine ⟨fun is hin hd hrest => ?_, fun hin hd => ?_⟩
  · exact step_of_nextInstr hv (by rw [hin, nextInstr_script hd hrest]; rfl)
  · exact step_of_nextInstr hv (by rw [hin, nextInstr_wire hd]; rfl)

/-- Settles O6: the bytes of a well-formed instruction decode back to it, and nothing is left of their chunk. -/
theorem stepRunsEncodedInstruction : Obligations.StepRunsEncodedInstruction := by
  intro s i hv hw
  cases hk : i.stream with
  | script => exact step_of_nextInstr hv (nextInstr_encode_script hk hw s.input)
  | wire => exact step_of_nextInstr hv (nextInstr_encode_wire hv hk hw s.input)

/-- Settles O7: the fetch refuses before any instruction is run. -/
theorem stepRefusesBadRecordAndScript : Obligations.StepRefusesBadRecordAndScript := by
  refine ⟨fun s hbad => ?_, fun s b bs later e hv => ⟨fun hin hd => ?_, fun hin hd => ?_⟩⟩
  · simp only [step, fetch, if_neg hbad]
  · exact step_of_nextInstr_error hv (by simp only [hin, nextInstr, hd])
  · exact step_of_nextInstr_error hv (by simp only [hin, nextInstr, hd])

end Sys2Proof.Proofs
end

section
/-!
PROOFS. RN32 is the nearest binary32, ties to even (spec/00_scope.md rule R11, spec/45_common_semantics.md rule R325): O18.
-/

namespace Sys2Proof.Machine

/-! ### The value of a binary32, as an integer significand in units of its own place -/

/-- 2^(g - 149): the unit of the significand of a binary32 with the exponent field `g + 1`. -/
def f32Unit (g : Nat) : ℚ := 2 ^ g / 2 ^ 149

/-- The significand of a binary32, with the leading bit that a normal one does not store. -/
def f32Sig (a : F32) : Nat := if f32Exp a = 0 then f32Frac a else 2 ^ 23 + f32Frac a

/-- A magnitude with its sign. -/
def signed (neg : Bool) (x : ℚ) : ℚ := if neg = true then -x else x

theorem f32Unit_pos (g : Nat) : 0 < f32Unit g := by unfold f32Unit; positivity

theorem f32Unit_add (g k : Nat) : f32Unit (g + k) = 2 ^ k * f32Unit g := by
  unfold f32Unit; ring

@[simp] theorem abs_signed_sub_signed (neg : Bool) (x y : ℚ) : |signed neg x - signed neg y| = |x - y| := by
  cases neg
  · rfl
  · rw [← abs_neg]; congr 1; simp only [signed, if_true]; ring

theorem signed_mul (neg : Bool) (x u : ℚ) : signed neg (x * u) = signed neg x * u := by
  cases neg <;> simp [signed]

@[simp] theorem signed_signed (neg : Bool) (x : ℚ) : signed neg (signed neg x) = x := by
  cases neg <;> simp [signed]

theorem f32Neg_eq (a : F32) : f32Neg a = decide (2 ^ 31 ≤ a.toNat) := BitVec.msb_eq_decide a

theorem f32Exp_eq (a : F32) : f32Exp a = a.toNat / 2 ^ 23 % 256 := by
  rw [f32Exp, BitVec.extractLsb'_toNat, Nat.shiftRight_eq_div_pow]

theorem f32Frac_eq (a : F32) : f32Frac a = a.toNat % 2 ^ 23 := by
  rw [f32Frac, BitVec.extractLsb'_toNat, Nat.shiftRight_zero]

theorem f32Sig_lt (a : F32) : f32Sig a < 2 ^ 24 := by
  have hfrac : f32Frac a < 2 ^ 23 := (a.extractLsb' 0 23).isLt
  unfold f32Sig
  split_ifs <;> omega

/-- A subnormal has the unit of the lowest exponent, a normal one that of its own (rule R11). -/
theorem f32ToRat_eq (a : F32) : f32ToRat a = signed (f32Neg a) (f32Sig a * f32Unit (f32Exp a - 1)) := by
  suffices h : (f32Num a : ℚ) / f32Den a = f32Sig a * f32Unit (f32Exp a - 1) by
    rw [← h]; rfl
  unfold f32Num f32Den f32Sig f32Unit
  split_ifs with h0 h150
  · rw [h0]; push_cast; ring
  · obtain ⟨e, he⟩ := Nat.exists_eq_add_of_le h150
    rw [show f32Exp a - 1 = 149 + e by omega, show f32Exp a - 150 = e by omega]
    push_cast
    field_simp
    ring
  · rw [show (2 : ℚ) ^ 149 = 2 ^ (f32Exp a - 1) * 2 ^ (150 - f32Exp a) by rw [← pow_add]; congr 1; omega]
    push_cast
    field_simp

/-- A value in units of the place `g`: an integer, or below every normal significand where the place has normal values only. -/
def OnGrid (g : Nat) (y : ℚ) : Prop := (∃ j : ℤ, y = j) ∨ 0 < g ∧ |y| < 2 ^ 23

theorem OnGrid.signed {g : Nat} {y : ℚ} (h : OnGrid g y) (neg : Bool) : OnGrid g (signed neg y) := by
  cases neg with
  | false => exact h
  | true =>
    refine h.imp (fun ⟨j, hj⟩ => ⟨-j, by simp [Machine.signed, hj]⟩) (fun ⟨hg, hlt⟩ => ⟨hg, ?_⟩)
    rwa [Machine.signed, if_pos rfl, abs_neg]

theorem f32Sig_on_grid (a : F32) (g : Nat) : ∃ y : ℚ, f32Sig a * f32Unit (f32Exp a - 1) = y * f32Unit g ∧ OnGrid g y := by
  rcases le_or_gt g (f32Exp a - 1) with hle | hlt
  · obtain ⟨k, hk⟩ := Nat.exists_eq_add_of_le hle
    refine ⟨f32Sig a * 2 ^ k, by rw [hk, f32Unit_add]; ring, Or.inl ⟨f32Sig a * 2 ^ k, by push_cast; rfl⟩⟩
  · obtain ⟨k, hk⟩ := Nat.exists_eq_add_of_lt hlt
    have hpow : (0 : ℚ) < 2 ^ (k + 1) := by positivity
    refine ⟨f32Sig a / 2 ^ (k + 1), ?_, Or.inr ⟨by omega, ?_⟩⟩
    · rw [hk, Nat.add_assoc, f32Unit_add]; field_simp
    · have hsig : (f32Sig a : ℚ) < 2 ^ 24 := by exact_mod_cast f32Sig_lt a
      have hk2 : (2 : ℚ) ≤ 2 ^ (k + 1) := le_self_pow₀ one_le_two k.succ_ne_zero
      rw [abs_of_nonneg (by positivity), div_lt_iff₀ hpow]
      linarith

/-- In units of any place, a binary32 is on the grid of that place. -/
theorem f32ToRat_on_grid (a : F32) (g : Nat) : ∃ y : ℚ, f32ToRat a = y * f32Unit g ∧ OnGrid g y := by
  obtain ⟨y, hy, hgrid⟩ := f32Sig_on_grid a g
  exact ⟨signed (f32Neg a) y, by rw [f32ToRat_eq, hy, signed_mul], hgrid.signed _⟩

/-- The pattern with the significand `m` in units of the place `g`: added to the exponent field, its leading bit makes a normal
exponent of it, and a carry the next one. -/
def packF32 (neg : Bool) (g m : Nat) : F32 := BitVec.ofNat 32 ((if neg then 2 ^ 31 else 0) + g * 2 ^ 23 + m)

section
variable {g m : Nat} (neg : Bool) (hg : g ≤ 126) (hm : m ≤ 2 ^ 24)
include hg hm

theorem packF32_toNat : (packF32 neg g m).toNat = (if neg then 2 ^ 31 else 0) + g * 2 ^ 23 + m := by
  rw [packF32, BitVec.toNat_ofNat]
  split_ifs <;> omega

theorem f32Exp_packF32_lt : f32Exp (packF32 neg g m) < 255 := by
  rw [f32Exp_eq, packF32_toNat neg hg hm]
  split_ifs <;> omega

theorem f32Neg_packF32 : f32Neg (packF32 neg g m) = neg := by
  rw [f32Neg_eq, packF32_toNat neg hg hm]
  cases neg with
  | false => exact decide_eq_false (by rw [if_neg nofun]; omega)
  | true => exact decide_eq_true (by rw [if_pos rfl]; omega)

/-- An even significand is an even pattern. -/
theorem packF32_lsb_of_even (heven : m % 2 = 0) : (packF32 neg g m).getLsbD 0 = false := by
  have hbits : ((if neg then 2 ^ 31 else 0) + g * 2 ^ 23 + m) % 2 = 0 := by split_ifs <;> omega
  rw [BitVec.getLsbD, packF32_toNat neg hg hm, Nat.testBit_zero, hbits]
  rfl

/-- The carry of a significand 2^24 into the exponent field gives the value it stands for. -/
theorem f32ToRat_packF32 (hnormal : g = 0 ∨ 2 ^ 23 ≤ m) :
    f32ToRat (packF32 neg g m) = signed neg (m * f32Unit g) := by
  rw [f32ToRat_eq, f32Neg_packF32 neg hg hm]
  congr 1
  have hexp : f32Exp (packF32 neg g m) = (g * 2 ^ 23 + m) / 2 ^ 23 := by
    rw [f32Exp_eq, packF32_toNat neg hg hm]
    split_ifs <;> omega
  have hfrac : f32Frac (packF32 neg g m) = m % 2 ^ 23 := by
    rw [f32Frac_eq, packF32_toNat neg hg hm]
    split_ifs <;> omega
  unfold f32Sig
  rw [hexp, hfrac]
  rcases (by omega : m < 2 ^ 23 ∨ (2 ^ 23 ≤ m ∧ m < 2 ^ 24) ∨ m = 2 ^ 24) with hsub | ⟨hlo, hhi⟩ | hcarry
  · obtain rfl : g = 0 := by omega
    rw [if_pos (by omega), Nat.mod_eq_of_lt hsub, show (0 * 2 ^ 23 + m) / 2 ^ 23 - 1 = 0 by omega]
  · rw [if_neg (by omega), show (g * 2 ^ 23 + m) / 2 ^ 23 - 1 = g by omega, show 2 ^ 23 + m % 2 ^ 23 = m by omega]
  · rw [if_neg (by omega), show (g * 2 ^ 23 + m) / 2 ^ 23 - 1 = g + 1 by omega, hcarry, f32Unit_add]
    push_cast
    ring

end

/-! ### Rounding to an integer, ties to even -/

/-- `m` is an integer nearest to `x`, and even where `x` is half-way. -/
def RoundsTo (x : ℚ) (m : Nat) : Prop := |m - x| ≤ 1 / 2 ∧ (|m - x| = 1 / 2 → m % 2 = 0)

theorem roundsTo_of_lt {x : ℚ} {m : Nat} (h : |m - x| < 1 / 2) : RoundsTo x m := ⟨h.le, fun he => absurd he h.ne⟩

/-- No integer is nearer than the one rounded to, and where another is equally near that one is even. -/
theorem RoundsTo.nearest {x : ℚ} {m : Nat} (h : RoundsTo x m) (j : ℤ) :
    |m - x| ≤ |j - x| ∧ (|m - x| = |j - x| → (j : ℚ) ≠ m → m % 2 = 0) := by
  by_cases hj : j = m
  · subst hj
    exact ⟨le_rfl, fun _ hne => absurd (by simp) hne⟩
  have hapart : (1 : ℚ) ≤ |(j : ℚ) - m| := by exact_mod_cast Int.one_le_abs (sub_ne_zero.mpr hj)
  have htri : |(j : ℚ) - m| ≤ |j - x| + |m - x| := by
    rw [abs_sub_comm (m : ℚ) x]; exact abs_sub_le _ _ _
  have hhalf := h.1
  exact ⟨by linarith, fun he _ => h.2 (by linarith)⟩

/-- The model's rounding is to nearest, ties to even. -/
theorem roundsTo_roundTiesEven (n : Nat) {d : Nat} (hd : 0 < d) : RoundsTo ((n : ℚ) / d) (roundTiesEven n d) := by
  have hd' : (0 : ℚ) < d := by exact_mod_cast hd
  obtain ⟨f, hf⟩ : ∃ f : ℚ, f = (n % d : Nat) / (d : ℚ) := ⟨_, rfl⟩
  have hx : (n : ℚ) / d = (n / d : Nat) + f := by
    have : (n : ℚ) = d * (n / d : Nat) + (n % d : Nat) := by exact_mod_cast (Nat.div_add_mod n d).symm
    rw [hf]
    field_simp
    linarith
  have hf0 : 0 ≤ f := by rw [hf]; positivity
  have hf1 : f < 1 := by rw [hf, div_lt_one hd']; exact_mod_cast Nat.mod_lt n hd
  rw [hx]
  unfold roundTiesEven
  dsimp only
  split_ifs with hlow hhigh
  · have : (2 : ℚ) * (n % d : Nat) < d := by exact_mod_cast hlow
    have hlt : f < 1 / 2 := by rw [hf, div_lt_iff₀ hd']; linarith
    exact roundsTo_of_lt (by rw [abs_lt]; constructor <;> linarith)
  · have : (d : ℚ) < 2 * (n % d : Nat) := by exact_mod_cast hhigh
    have hgt : 1 / 2 < f := by rw [hf, lt_div_iff₀ hd']; linarith
    exact roundsTo_of_lt (by push_cast; rw [abs_lt]; constructor <;> linarith)
  · have : (2 : ℚ) * (n % d : Nat) = d := by exact_mod_cast (by omega : 2 * (n % d) = d)
    have heq : f = 1 / 2 := by rw [hf, div_eq_iff hd'.ne']; linarith
    have hodd : ((n / d % 2 : Nat) : ℚ) ≤ 1 := by exact_mod_cast Nat.lt_succ_iff.mp (Nat.mod_lt (n / d) two_pos)
    have heven : (0 : ℚ) ≤ (n / d % 2 : Nat) := Nat.cast_nonneg _
    refine ⟨?_, fun _ => by omega⟩
    rw [heq, Nat.cast_add, abs_le]
    constructor <;> linarith

/-- An integer bound of `x` is a bound of what it rounds to. -/
theorem RoundsTo.le_of_le {x : ℚ} {m k : Nat} (h : RoundsTo x m) (hx : x ≤ k) : m ≤ k := by
  have := (abs_le.mp h.1).2
  have : (m : ℚ) < (k + 1 : Nat) := by push_cast; linarith
  exact Nat.lt_succ_iff.mp (by exact_mod_cast this)

theorem RoundsTo.le_of_ge {x : ℚ} {m k : Nat} (h : RoundsTo x m) (hx : k ≤ x) : k ≤ m := by
  have := (abs_le.mp h.1).1
  have : (k : ℚ) < (m + 1 : Nat) := by push_cast; linarith
  exact Nat.lt_succ_iff.mp (by exact_mod_cast this)

/-- Nor is a value nearer that is on the grid of a place where `x` is normal: one that is no integer is farther away than the
least normal significand. -/
theorem RoundsTo.nearest_onGrid {x y : ℚ} {m g : Nat} (h : RoundsTo x m) (hnormal : g = 0 ∨ 2 ^ 23 ≤ x)
    (hy : OnGrid g y) : |m - x| ≤ |y - x| ∧ (|m - x| = |y - x| → y ≠ m → m % 2 = 0) := by
  rcases hy with ⟨j, rfl⟩ | ⟨hg, hlt⟩
  · exact h.nearest j
  have hx := hnormal.resolve_left hg.ne'
  have hpos : 0 ≤ x - 2 ^ 23 := by linarith
  have hleast : |m - x| ≤ x - 2 ^ 23 := by
    have hj := (h.nearest (2 ^ 23 : ℕ)).1
    rwa [Int.cast_natCast, Nat.cast_pow, Nat.cast_ofNat, abs_sub_comm (2 ^ 23), abs_of_nonneg hpos] at hj
  have hfar : x - 2 ^ 23 < |y - x| := by
    rw [abs_sub_comm]
    exact lt_of_lt_of_le (by linarith [(abs_lt.mp hlt).2]) (le_abs_self (x - y))
  exact ⟨by linarith, fun he => by linarith⟩

/-! ### RN32 -/

/-- A significand in units of its place, rounded to an integer, is the nearest binary32 (rule R11). -/
theorem nearestEven_packF32 {x : ℚ} {g m : Nat} (neg : Bool) (hr : RoundsTo x m) (hg : g ≤ 126) (hx : x ≤ 2 ^ 24)
    (hnormal : g = 0 ∨ 2 ^ 23 ≤ x) : NearestEven (packF32 neg g m) (signed neg (x * f32Unit g)) := by
  have hm : m ≤ 2 ^ 24 := hr.le_of_le (by exact_mod_cast hx)
  have hmn : g = 0 ∨ 2 ^ 23 ≤ m := hnormal.imp_right fun h => hr.le_of_ge (by exact_mod_cast h)
  have hu := f32Unit_pos g
  have hscale (y : ℚ) : |signed neg (y * f32Unit g) - signed neg (x * f32Unit g)| = |y - x| * f32Unit g := by
    rw [abs_signed_sub_signed, ← sub_mul, abs_mul, abs_of_pos hu]
  refine ⟨f32Exp_packF32_lt neg hg hm, fun c _ => ?_⟩
  obtain ⟨y, hy, hgrid⟩ := f32ToRat_on_grid c g
  have hc : f32ToRat c = signed neg (signed neg y * f32Unit g) := by rw [signed_mul, signed_signed, hy]
  obtain ⟨hle, htie⟩ := hr.nearest_onGrid hnormal (hgrid.signed neg)
  rw [f32ToRat_packF32 neg hg hm hmn, hc, hscale, hscale]
  refine ⟨mul_le_mul_of_nonneg_right hle hu.le, fun he hne => ?_⟩
  exact packF32_lsb_of_even neg hg hm (htie (mul_right_cancel₀ hu.ne' he) fun h => hne (by rw [h]))

/-- The binary exponent of `n / d` in (0, 1] is `-negExp n d`. -/
theorem negExp_spec {n d : Nat} (hn : 0 < n) (hnd : n ≤ d) : d ≤ n * 2 ^ negExp n d ∧ n * 2 ^ negExp n d < 2 * d := by
  have hd : 0 < d := by omega
  have hn2 : 2 ^ n.log2 ≤ n ∧ n < 2 * 2 ^ n.log2 := ⟨Nat.log2_self_le hn.ne', Nat.pow_succ' ▸ Nat.lt_log2_self⟩
  have hd2 : 2 ^ d.log2 ≤ d ∧ d < 2 * 2 ^ d.log2 := ⟨Nat.log2_self_le hd.ne', Nat.pow_succ' ▸ Nat.lt_log2_self⟩
  obtain ⟨k, hk⟩ := Nat.exists_eq_add_of_le ((Nat.le_log2 hd.ne').mpr (hn2.1.trans hnd))
  rw [hk, pow_add] at hd2
  have hlo : 2 ^ n.log2 * 2 ^ k ≤ n * 2 ^ k := Nat.mul_le_mul_right _ hn2.1
  have hhi : n * 2 ^ k < 2 * (2 ^ n.log2 * 2 ^ k) := by
    rw [← Nat.mul_assoc]; exact Nat.mul_lt_mul_of_pos_right hn2.2 (Nat.two_pow_pos k)
  simp only [negExp, hk, Nat.add_sub_cancel_left]
  split_ifs with hshort
  · rw [pow_succ, ← Nat.mul_assoc]; omega
  · omega

/-- The significand RN32 scales to stays below 2^24, and is a normal one wherever the exponent is not the lowest. -/
theorem rn32_scaled {n d k : Nat} (hn : 0 < n) (hnd : n ≤ d) (hk : k = min (negExp n d) 126) :
    ((n * 2 ^ (23 + k) : Nat) : ℚ) / d ≤ 2 ^ 24 ∧ (126 - k = 0 ∨ 2 ^ 23 ≤ ((n * 2 ^ (23 + k) : Nat) : ℚ) / d) := by
  obtain ⟨hlo, hhi⟩ := negExp_spec hn hnd
  have hd : (0 : ℚ) < d := by exact_mod_cast hn.trans_le hnd
  have hmono : n * 2 ^ k ≤ n * 2 ^ negExp n d := Nat.mul_le_mul_left _ (Nat.pow_le_pow_right two_pos (by omega))
  have hscale : n * 2 ^ (23 + k) = 2 ^ 23 * (n * 2 ^ k) := by rw [pow_add]; ring
  rw [div_le_iff₀ hd, le_div_iff₀ hd, hscale]
  constructor
  · exact_mod_cast (by omega : 2 ^ 23 * (n * 2 ^ k) ≤ 2 ^ 24 * d)
  · rcases Nat.lt_or_ge 126 (negExp n d) with hsub | hnormal
    · exact Or.inl (by omega)
    · rw [Nat.min_eq_left hnormal] at hk
      subst hk
      exact Or.inr (by exact_mod_cast Nat.mul_le_mul_left (2 ^ 23) hlo)

theorem rn32_eq_packF32 (neg : Bool) {n d k : Nat} (hn : 0 < n) (hk : k = min (negExp n d) 126) :
    rn32 neg n d = packF32 neg (126 - k) (roundTiesEven (n * 2 ^ (23 + k)) d) := by
  rw [rn32, if_neg hn.ne', hk]; rfl

/-- Rule R11: RN32 of a ratio in [0, 1] with either sign is the nearest binary32, ties to even. -/
theorem nearestEven_rn32 (neg : Bool) {n d : Nat} (hd : 0 < d) (hnd : n ≤ d) :
    NearestEven (rn32 neg n d) (signed neg (n / d)) := by
  rcases Nat.eq_zero_or_pos n with rfl | hn
  · have h0 : RoundsTo 0 0 := roundsTo_of_lt (by norm_num)
    have h := nearestEven_packF32 false h0 (g := 0) (by omega) (by norm_num) (Or.inl rfl)
    rwa [show signed false (0 * f32Unit 0) = signed neg (((0 : Nat) : ℚ) / d) by cases neg <;> simp [signed]] at h
  obtain ⟨k, hk⟩ : ∃ k, k = min (negExp n d) 126 := ⟨_, rfl⟩
  obtain ⟨hlt, hnormal⟩ := rn32_scaled hn hnd hk
  have hq : (n : ℚ) / d = ((n * 2 ^ (23 + k) : Nat) : ℚ) / d * f32Unit (126 - k) := by
    have hpow : (2 : ℚ) ^ 149 = 2 ^ (23 + k) * 2 ^ (126 - k) := by rw [← pow_add]; congr 1; omega
    rw [f32Unit, hpow]
    push_cast
    field_simp
  rw [rn32_eq_packF32 neg hn hk, hq]
  exact nearestEven_packF32 neg (roundsTo_roundTiesEven _ hd) (by omega) hlt hnormal

end Sys2Proof.Machine

namespace Sys2Proof.Proofs

open Sys2Proof Sys2Proof.Machine

/-- Settles O18: RN32 packs an integer nearest to the scaled ratio, and every other binary32 is an integer in the same unit or too
small to be nearer. -/
theorem roundingIsNearestTiesEven : Obligations.RoundingIsNearestTiesEven :=
  fun neg _ _ hd hnd => ⟨nearestEven_rn32 neg hd hnd, rfl⟩

end Sys2Proof.Proofs
end

section
/-!
PROOFS. The observation histories only grow (spec/00_scope.md rule R13), and the host's clock across a wrap of `now`
(spec/43_host_software.md rules R225, R228, R237): O56, O59.
-/

namespace Sys2Proof.Machine

/-! ### The histories of rule R13 -/

@[simp] theorem rxByte_txLine (s : State) (b : Byte) : (rxByte s b).txLine = s.txLine := by
  rcases rxByte_cases s b with ⟨-, h⟩ | ⟨-, h⟩ <;> rw [h] <;> rfl

@[simp] theorem rxByte_pwmTrace (s : State) (b : Byte) : (rxByte s b).pwmTrace = s.pwmTrace := by
  rcases rxByte_cases s b with ⟨-, h⟩ | ⟨-, h⟩ <;> rw [h] <;> rfl

@[simp] theorem deliver_txLine (s : State) (bytes : List Byte) : (deliver s bytes).txLine = s.txLine := by
  cases bytes <;> simp [deliver]

@[simp] theorem deliver_pwmTrace (s : State) (bytes : List Byte) : (deliver s bytes).pwmTrace = s.pwmTrace := by
  cases bytes <;> simp [deliver]

@[simp] theorem writePulse_txLine (s : State) (ch : Byte) (us : Nat) : (writePulse s ch us).txLine = s.txLine := by
  rcases writePulse_cases s ch us with ⟨-, h⟩ | ⟨c, -, -, h⟩ | ⟨c, -, -, h⟩ <;> rw [h] <;> rfl

@[simp] theorem writePulse_pwmTrace (s : State) (ch : Byte) (us : Nat) : (writePulse s ch us).pwmTrace = s.pwmTrace := by
  rcases writePulse_cases s ch us with ⟨-, h⟩ | ⟨c, -, -, h⟩ | ⟨c, -, -, h⟩ <;> rw [h] <;> rfl

/-- Every operation but CL.TXBYTE, T.ADV and AD.INIT leaves both histories (rules R13, R55). -/
theorem exec_histories_unchanged {i : Instr} {s t : State} (h : exec i s = .next t) (htime : i.agent ≠ .time)
    (htx : i ≠ .clTxByte) (hinit : i ≠ .adInit) : t.txLine = s.txLine ∧ t.pwmTrace = s.pwmTrace := by
  cases i with
  | clTxByte => exact absurd rfl htx
  | adInit => exact absurd rfl hinit
  | tAdv d => exact absurd rfl htime
  | frameCommand | frameTelem | framePing | framePong => cases h; exact ⟨deliver_txLine _ _, deliver_pwmTrace _ _⟩
  | clRxByte b => cases h; exact ⟨rxByte_txLine s b, rxByte_pwmTrace s b⟩
  | adSetPw | adSetAxis => cases h; exact ⟨writePulse_txLine _ _ _, writePulse_pwmTrace _ _ _⟩
  | pcRise | pcPoll | pcActive | clPoll | clStats | sysReset => cases h; exact ⟨rfl, rfl⟩
  | pcRead ch =>
    change execPcRead ch s = _ at h
    unfold execPcRead at h
    split at h <;> cases h <;> exact ⟨rfl, rfl⟩
  | pcFall c =>
    change execPcFall c s = _ at h
    unfold execPcFall at h
    dsimp only at h
    split_ifs at h <;> cases h <;> exact ⟨rfl, rfl⟩
  | clSend ty p =>
    change execClSend ty p s = _ at h
    unfold execClSend at h
    split at h <;> cases h <;> exact ⟨rfl, rfl⟩
  | adNeutral =>
    change execAdNeutral s = _ at h
    unfold execAdNeutral at h
    split_ifs at h <;> cases h <;> exact ⟨rfl, rfl⟩

/-- CL.TXBYTE moves the head of `tx_fifo`, if there is one, to `tx_line` (rule R168). -/
theorem exec_clTxByte_histories {s t : State} (h : exec .clTxByte s = .next t) :
    t.txLine = s.txLine ++ s.txFifo.take 1 ∧ t.pwmTrace = s.pwmTrace := by
  change execClTxByte s = _ at h
  unfold execClTxByte at h
  split at h <;> next hf => cases h; simp [hf]

/-- T.ADV adds the periods that start in it to `pwm_trace` (rule R205). -/
theorem exec_tAdv_histories {d : Word32} {s t : State} (h : exec (.tAdv d) s = .next t) :
    t.txLine = s.txLine ∧ s.pwmTrace <+: t.pwmTrace := by
  cases h
  obtain ⟨l, hl, -⟩ := advance_trace s d.toNat
  exact ⟨advance_txLine s d.toNat, l, hl.symm⟩

/-- AD.INIT adds at most the first period to `pwm_trace` (rule R192). -/
theorem exec_adInit_histories {s t : State} (h : exec .adInit s = .next t) :
    t.txLine = s.txLine ∧ s.pwmTrace <+: t.pwmTrace := by
  change execAdInit s = _ at h
  unfold execAdInit at h
  dsimp only at h
  split_ifs at h <;> cases h
  · exact ⟨rfl, List.prefix_rfl⟩
  · exact ⟨rfl, List.prefix_append _ _⟩

/-! ### The host's clock -/

/-- The host's clock counts on over a wrap of `now` (assumption 23): from `t` to `d` microseconds later, fewer than 2^TIME_BITS. -/
theorem elapsedMs_advanced (P : Params) (t : Nat) {d : Nat} (h : d < P.timeMod) :
    elapsedMs P ((t + d) % P.timeMod) t = (t + d) / 1000 - t / 1000 := by
  rw [elapsedMs, tsub_advanced P t d h, hostClockMs, hostClockMs]

/-- With no source active the failsafe state is left alone or entered, never left (rule R228). -/
theorem failsafeActive_failsafeCheck_false (P : Params) (H : HostParams) (now : Nat) (v : HostVars) :
    (failsafeCheck P H false now v).failsafeActive = true ↔
      v.failsafeActive = true ∨ H.failsafeTimeoutMs ≤ elapsedMs P now v.lastActiveAt := by
  simp only [failsafeCheck, Bool.false_eq_true, if_false]
  split_ifs with h <;> simp [h]

end Sys2Proof.Machine

namespace Sys2Proof.Proofs

open Sys2Proof Sys2Proof.Machine

/-- Settles O56: the three operations that write a history append to it, and no other operation touches one. -/
theorem historiesOnlyGrow : Obligations.HistoriesOnlyGrow := by
  intro i s t h
  cases i with
  | clTxByte =>
    obtain ⟨hline, htrace⟩ := exec_clTxByte_histories h
    refine ⟨⟨_, hline.symm⟩, htrace ▸ List.prefix_rfl, fun hne => absurd rfl hne, ?_, fun _ _ => htrace⟩
    rw [hline, List.length_append, List.length_take]
    omega
  | tAdv d =>
    obtain ⟨hline, hprefix⟩ := exec_tAdv_histories h
    exact ⟨hline ▸ List.prefix_rfl, hprefix, fun _ => hline, hline ▸ Nat.le_succ _, fun hne => absurd rfl hne⟩
  | adInit =>
    obtain ⟨hline, hprefix⟩ := exec_adInit_histories h
    exact ⟨hline ▸ List.prefix_rfl, hprefix, fun _ => hline, hline ▸ Nat.le_succ _, fun _ hne => absurd rfl hne⟩
  | _ =>
    obtain ⟨hline, htrace⟩ := exec_histories_unchanged h nofun nofun nofun
    exact ⟨hline ▸ List.prefix_rfl, htrace ▸ List.prefix_rfl, fun _ => hline, hline ▸ Nat.le_succ _, fun _ _ => htrace⟩

/-- Settles O59: every test of an elapsed time goes through `elapsedMs`, which a wrap of `now` does not disturb. -/
theorem hostTimesAreTestedAcrossTheWrap : Obligations.HostTimesAreTestedAcrossTheWrap := by
  intro P H v k t d now ms hd hnow hms
  have hclock : elapsedMs P now t = ms := by rw [hnow, hms, elapsedMs_advanced P t hd]
  refine ⟨hclock, ?_, fun n hslot hat => ?_, fun hslot => ?_, fun hlast => ?_⟩
  · rw [stepDue, hclock, decide_eq_true_iff]
  · simp only [slotFresh, hslot, hat, hclock, decide_eq_true_iff]
  · simp only [slotFresh, hslot]
  · rw [failsafeActive_failsafeCheck_false, hlast, hclock]

end Sys2Proof.Proofs
end

section
/-!
PROOFS. What an instruction does to the state, said once, and the owner of every piece of state (spec/10_state.md rules R20, R21,
R35, R36, R45): O55.
-/

namespace Sys2Proof.Machine

/-- Everything an instruction that answers a next state does to the state, with the condition under which it does it. A result
alone stands for every instruction that reads, refuses its operand or finds nothing to do. -/
inductive Effect (s : State) : Instr → State → Prop
  | result {i : Instr} (r : Result) : Effect s i (s.ret r)
  | advance (d : Word32) : Effect s (.tAdv d) ((advance s d.toNat).ret .noResult)
  | rise (c : Chan) : Effect s (.pcRise c) (((s.setRise c s.now).setArmed c true).ret .noResult)
  | fallRejected (c : Chan) (harmed : isArmed s c = true) (hw : inWindow s.params (capturedWidth s c) = false) :
      Effect s (.pcFall c) ((s.setArmed c false).ret .noResult)
  | fallAccepted (c : Chan) (harmed : isArmed s c = true) (hw : inWindow s.params (capturedWidth s c) = true) :
      Effect s (.pcFall c)
        (((s.setArmed c false).setRecord c ⟨BitVec.ofNat 16 (capturedWidth s c), s.now, true⟩).ret .noResult)
  | byteKept {i : Instr} (b : Byte) (issued : List Chunk) (hi : i.agent = .serialRx)
      (hscript : i.stream = .script → issued = []) (hroom : s.rxBuf.length < s.params.rxBufCap) :
      Effect s i (({ s with input := issued ++ s.input }.setRx (s.rxBuf ++ [b])).ret .noResult)
  | byteLost {i : Instr} (issued : List Chunk) (hi : i.agent = .serialRx)
      (hscript : i.stream = .script → issued = []) (hfull : s.params.rxBufCap ≤ s.rxBuf.length) :
      Effect s i (({ s with input := issued ++ s.input }.setCnt (s.cnt.countOverrun s.params)).ret .noResult)
  | poll :
      Effect s .clPoll
        (((s.setRx (poll s.params s.rxBuf s.cnt).buf).setCnt (poll s.params s.rxBuf s.cnt).cnt).ret
          (.frame (poll s.params s.rxBuf s.cnt).frame))
  | queue (u : Byte) (p : List Byte) (hsend : Sendable s.params u p)
      (hroom : s.txFifo.length + 8 + p.length ≤ s.params.txFifoCap) :
      Effect s (.clSend u p) ((s.setTx (s.txFifo ++ encodeFrame s.params u p)).ret (.status .ok))
  | transmit (b : Byte) (rest : List Byte) (hfifo : s.txFifo = b :: rest) :
      Effect s .clTxByte (((s.setTx rest).emit b).ret .noResult)
  | start (hoff : s.pwmEnabled = false) :
      Effect s .adInit
        (((s.setShadow (neutralWidths s.params)).enablePwm.startPeriod (neutralWidths s.params)).ret (.status .ok))
  | neutral {i : Instr} (hi : i = .adInit ∨ i = .adNeutral) (hon : s.pwmEnabled = true) :
      Effect s i ((s.setShadow (neutralWidths s.params)).ret (.status .ok))
  | pulse {i : Instr} (c : Chan) (us : Nat) (hi : (∃ ch w, i = .adSetPw ch w) ∨ ∃ ch a, i = .adSetAxis ch a)
      (hon : s.pwmEnabled = true) :
      Effect s i ((s.setShadow (s.pwShadow.set c (pulseOperand s.params us))).ret (.status .ok))
  | reset : Effect s .sysReset (resetRegisters s)

theorem effect_rxByte (s : State) {i : Instr} (b : Byte) (issued : List Chunk) (hi : i.agent = .serialRx)
    (hscript : i.stream = .script → issued = []) :
    Effect s i ((rxByte { s with input := issued ++ s.input } b).ret .noResult) := by
  rcases rxByte_cases { s with input := issued ++ s.input } b with ⟨hroom, h⟩ | ⟨hfull, h⟩ <;> rw [h]
  · exact .byteKept b issued hi hscript hroom
  · exact .byteLost issued hi hscript hfull

theorem effect_deliver (s : State) {i : Instr} (bytes : List Byte) (hi : i.agent = .serialRx) (hwire : i.stream = .wire) :
    Effect s i (deliver s bytes) := by
  cases bytes with
  | nil => exact .result _
  | cons b rest => exact effect_rxByte s b [_] hi fun hscript => nomatch hwire.symm.trans hscript

theorem effect_writePulse (s : State) {i : Instr} (ch : Byte) (us : Nat)
    (hi : (∃ ch w, i = .adSetPw ch w) ∨ ∃ ch a, i = .adSetAxis ch a) : Effect s i (writePulse s ch us) := by
  rcases writePulse_cases s ch us with ⟨-, h⟩ | ⟨c, -, -, h⟩ | ⟨c, -, hon, h⟩ <;> rw [h]
  · exact .result _
  · exact .result _
  · exact .pulse c us hi hon

/-- Every instruction that answers a next state does one of the things listed. -/
theorem effect_of_exec {i : Instr} {s t : State} (h : exec i s = .next t) : Effect s i t := by
  cases i with
  | frameCommand | frameTelem | framePing | framePong => cases h; exact effect_deliver s _ rfl rfl
  | tAdv d => cases h; exact .advance d
  | pcRise c => cases h; exact .rise c
  | pcFall c =>
    change execPcFall c s = _ at h
    unfold execPcFall at h
    dsimp only at h
    split_ifs at h with harmed hw <;> cases h
    · exact .fallAccepted c harmed hw
    · exact .fallRejected c harmed (Bool.eq_false_iff.mpr hw)
    · exact .result _
  | pcRead ch =>
    change execPcRead ch s = _ at h
    unfold execPcRead at h
    split at h <;> cases h <;> exact .result _
  | pcPoll | pcActive | clStats => cases h; exact .result _
  | clRxByte b => cases h; exact effect_rxByte s b [] rfl fun _ => rfl
  | clPoll => cases h; exact .poll
  | clSend u p =>
    change execClSend u p s = _ at h
    unfold execClSend at h
    split at h
    · next hok =>
      cases h
      obtain ⟨hknown, hlen, htype, hroom⟩ := (sendStatus_ok_iff _ _ _ _).mp hok
      exact .queue u p ⟨hknown, hlen, htype⟩ hroom
    · cases h; exact .result _
  | clTxByte =>
    change execClTxByte s = _ at h
    unfold execClTxByte at h
    split at h
    · cases h; exact .result _
    · next b rest hfifo => cases h; exact .transmit b rest hfifo
  | adInit =>
    change execAdInit s = _ at h
    unfold execAdInit at h
    dsimp only at h
    split_ifs at h with hon <;> cases h
    · exact .neutral (.inl rfl) hon
    · exact .start (Bool.eq_false_iff.mpr hon)
  | adSetPw ch us => cases h; exact effect_writePulse s ch _ (.inl ⟨ch, us, rfl⟩)
  | adSetAxis ch a => cases h; exact effect_writePulse s ch _ (.inr ⟨ch, a, rfl⟩)
  | adNeutral =>
    change execAdNeutral s = _ at h
    unfold execAdNeutral at h
    split_ifs at h with hon <;> cases h
    · exact .neutral (.inr rfl) hon
    · exact .result _
  | sysReset => cases h; exact .reset

/-! ### Who writes each piece of state -/

namespace Effect

variable {i : Instr} {s t : State}

/-- No instruction writes the parameter record (assumption 4). -/
theorem params_eq (h : Effect s i t) : t.params = s.params := by
  cases h with
  | advance d => exact advance_params s _
  | _ => rfl

/-- An instruction puts something before the input, and an operation of a script nothing (assumptions 1, 2). -/
theorem input_eq (h : Effect s i t) : ∃ issued, t.input = issued ++ s.input ∧ (i.stream = .script → issued = []) := by
  cases h with
  | advance d => exact ⟨[], advance_input s _, fun _ => rfl⟩
  | byteKept _ issued _ hscript | byteLost issued _ hscript => exact ⟨issued, rfl, hscript⟩
  | _ => exact ⟨[], rfl, fun _ => rfl⟩

/-- Rule R21. -/
theorem now_eq (h : Effect s i t) (hreset : i ≠ .sysReset) (htime : i.agent ≠ .time) : t.now = s.now := by
  cases h with
  | advance d => exact absurd rfl htime
  | reset => exact absurd rfl hreset
  | _ => rfl

/-- Rules R22 to R24: the capture registers and the record of a channel. -/
theorem capture_eq (h : Effect s i t) (hreset : i ≠ .sysReset) {c : Chan} (hedge : i.agent ≠ .edge c) :
    t.riseTs.get c = s.riseTs.get c ∧ t.armed.get c = s.armed.get c ∧ t.record.get c = s.record.get c := by
  have hother : ∀ {d : Chan}, Agent.edge d ≠ .edge c → c ≠ d := fun hne hcd => hne (congrArg _ hcd.symm)
  cases h with
  | advance d => simp
  | rise d | fallRejected d | fallAccepted d => simp [hother hedge]
  | reset => exact absurd rfl hreset
  | _ => exact ⟨rfl, rfl, rfl⟩

/-- Rule R40. -/
theorem rxBuf_eq (h : Effect s i t) (hreset : i ≠ .sysReset) (hrx : i.agent ≠ .serialRx) (hpoll : i ≠ .clPoll) :
    t.rxBuf = s.rxBuf := by
  cases h with
  | advance d => exact advance_rxBuf s _
  | byteKept _ _ hi | byteLost _ hi => exact absurd hi hrx
  | poll => exact absurd rfl hpoll
  | reset => exact absurd rfl hreset
  | _ => rfl

/-- Rule R36: the counters of the parser. -/
theorem cnt_eq (h : Effect s i t) (hreset : i ≠ .sysReset) (hpoll : i ≠ .clPoll) :
    t.cnt = { s.cnt with overrun := t.cnt.overrun } := by
  cases h with
  | advance d => simp
  | poll => exact absurd rfl hpoll
  | reset => exact absurd rfl hreset
  | _ => rfl

/-- Rule R36: the counter of the receiver. -/
theorem overrun_eq (h : Effect s i t) (hreset : i ≠ .sysReset) (hrx : i.agent ≠ .serialRx) :
    t.cnt.overrun = s.cnt.overrun := by
  cases h with
  | advance d => simp
  | byteKept _ _ hi | byteLost _ hi => exact absurd hi hrx
  | poll => exact (poll_suffix _ _ _).2
  | reset => exact absurd rfl hreset
  | _ => rfl

/-- Rule R41. -/
theorem txFifo_eq (h : Effect s i t) (hreset : i ≠ .sysReset) (hsend : ∀ u p, i ≠ .clSend u p)
    (htx : i.agent ≠ .serialTx) : t.txFifo = s.txFifo := by
  cases h with
  | advance d => exact advance_txFifo s _
  | queue u p => exact absurd rfl (hsend u p)
  | transmit => exact absurd rfl htx
  | reset => exact absurd rfl hreset
  | _ => rfl

/-- Rule R47: the shadow registers. -/
theorem pwShadow_eq (h : Effect s i t) (hreset : i ≠ .sysReset) (hinit : i ≠ .adInit) (hpw : ∀ ch us, i ≠ .adSetPw ch us)
    (haxis : ∀ ch a, i ≠ .adSetAxis ch a) (hneutral : i ≠ .adNeutral) : t.pwShadow = s.pwShadow := by
  cases h with
  | advance d => exact advance_pwShadow s _
  | start => exact absurd rfl hinit
  | neutral hi => exact (hi.elim hinit hneutral).elim
  | pulse c us hi =>
    obtain ⟨ch, w, hi⟩ | ⟨ch, a, hi⟩ := hi
    · exact absurd hi (hpw ch w)
    · exact absurd hi (haxis ch a)
  | reset => exact absurd rfl hreset
  | _ => rfl

/-- Rule R45. -/
theorem pwmEnabled_eq (h : Effect s i t) (hreset : i ≠ .sysReset) (hinit : i ≠ .adInit) :
    t.pwmEnabled = s.pwmEnabled := by
  cases h with
  | advance d => exact advance_pwmEnabled s _
  | start => exact absurd rfl hinit
  | reset => exact absurd rfl hreset
  | _ => rfl

/-- Rules R46, R47: the start of the period and the active widths. -/
theorem period_eq (h : Effect s i t) (hreset : i ≠ .sysReset) (htime : i.agent ≠ .time) (hinit : i ≠ .adInit) :
    t.periodStart = s.periodStart ∧ t.pwActive = s.pwActive := by
  cases h with
  | advance d => exact absurd rfl htime
  | start => exact absurd rfl hinit
  | reset => exact absurd rfl hreset
  | _ => exact ⟨rfl, rfl⟩

end Effect

end Sys2Proof.Machine

namespace Sys2Proof.Proofs

open Sys2Proof Sys2Proof.Machine

/-- Settles O55: every piece of state has the owner that its line of the effects gives it. -/
theorem eachPieceOfStateHasItsOwner : Obligations.EachPieceOfStateHasItsOwner := by
  intro i s t h
  have he := effect_of_exec h
  obtain ⟨issued, hinput, hscript⟩ := he.input_eq
  refine ⟨he.params_eq, fun hs => by rw [hinput, hscript hs, List.nil_append], ⟨issued, hinput.symm⟩, fun hreset => ?_⟩
  exact ⟨he.now_eq hreset, fun _ => he.capture_eq hreset, he.rxBuf_eq hreset, he.cnt_eq hreset, he.overrun_eq hreset,
    he.txFifo_eq hreset, he.pwShadow_eq hreset, he.pwmEnabled_eq hreset, he.period_eq hreset⟩

end Sys2Proof.Proofs
end

section
/-!
PROOFS. The invariant of the registers, from reset on and over every step (spec/10_state.md rules R24, R36, R40, R41, R47,
spec/42_actuation_driver.md rule R205): O52; the pulses on the pins (rules R47, R199): O53.
-/

namespace Sys2Proof.Machine

/-! ### Widths, records and counters -/

theorem pulseInRange_neutral {P : Params} (hv : P.Valid) (c : Chan) : PulseInRange P ((neutralWidths P).get c) := by
  obtain ⟨-, -, ⟨hmin, hmax, -⟩, -⟩ := id hv
  rw [neutralWidths, PerCh.get_both, PulseInRange, neutral_toNat hv]
  omega

theorem pulseInRange_operand {P : Params} (hv : P.Valid) (us : Nat) : PulseInRange P (pulseOperand P us) := by
  obtain ⟨-, -, ⟨hmin, hmax, -⟩, -⟩ := id hv
  rw [PulseInRange, pulseOperand_toNat hv]
  exact clampNat_bounds (by omega)

/-- What the invariant says of the shared record of a channel (rules R24, R25). -/
def RcRecord.InRange (P : Params) (r : RcRecord) : Prop :=
  r.acceptTs < P.timeMod ∧ (r.valid = true → P.rcPulseMinUs ≤ r.widthUs.toNat ∧ r.widthUs.toNat ≤ P.rcPulseMaxUs)

/-- A width of the window survives its narrowing to 16 bits (rule R322). -/
theorem record_inRange_of_inWindow {P : Params} (hv : P.Valid) {w now : Nat} (hw : inWindow P w = true)
    (hnow : now < P.timeMod) : RcRecord.InRange P ⟨BitVec.ofNat 16 w, now, true⟩ := by
  obtain ⟨-, ⟨-, -, hmax⟩, -⟩ := hv
  rw [inWindow_iff] at hw
  refine ⟨hnow, fun _ => ?_⟩
  rwa [length_field (by omega)]

/-- Every counter is below the modulus (rule R36). -/
def Counters.Below (m : Nat) (c : Counters) : Prop :=
  c.ok < m ∧ c.oversize < m ∧ c.crc < m ∧ c.format < m ∧ c.overrun < m

theorem bump_lt (P : Params) (n : Nat) : bump P n < P.cntMod := Nat.mod_lt _ (Nat.two_pow_pos _)

/-- The parser keeps every counter below its modulus. -/
theorem poll_cnt_below (P : Params) (B : List Byte) (c : Counters) (h : c.Below P.cntMod) :
    (poll P B c).cnt.Below P.cntMod := by
  refine poll_induction (P := P) (motive := fun _ c r => c.Below P.cntMod → r.cnt.Below P.cntMod)
    ?wait ?mismatch ?oversize ?badCrc ?unusable ?exposed B c h
  case wait => exact fun _ _ _ h => h
  case mismatch => exact fun _ _ _ ih h => ih h
  case oversize => exact fun _ _ _ ih ⟨hok, _, hcrc, hformat, hover⟩ => ih ⟨hok, bump_lt P _, hcrc, hformat, hover⟩
  case badCrc => exact fun _ _ _ ih ⟨hok, hsize, _, hformat, hover⟩ => ih ⟨hok, hsize, bump_lt P _, hformat, hover⟩
  case unusable => exact fun _ _ _ _ ih ⟨hok, hsize, hcrc, _, hover⟩ => ih ⟨hok, hsize, hcrc, bump_lt P _, hover⟩
  case exposed => exact fun _ _ _ _ _ ⟨_, hsize, hcrc, hformat, hover⟩ => ⟨bump_lt P _, hsize, hcrc, hformat, hover⟩

/-! ### The invariant over the updates of the state -/

theorem onBoth_iff {p : Chan → Prop} : OnBoth p ↔ ∀ c, p c := forall_chan.symm

/-- Rule R55. -/
theorem inv_resetOf {P : Params} (hv : P.Valid) : Inv (State.resetOf P) := by
  have ht := timeMod_pos P
  have hc : 0 < P.cntMod := Nat.two_pow_pos _
  exact ⟨hv, ⟨ht, ht, ⟨ht, ht⟩, ht, ht⟩, ⟨hc, hc, hc, hc, hc⟩,
    ⟨Nat.zero_le _, Nat.zero_le _⟩, ⟨nofun, nofun⟩, nofun, nofun⟩

namespace Inv

variable {s : State}

theorem setRise_now (h : Inv s) (c : Chan) : Inv (s.setRise c s.now) := by
  obtain ⟨hv, ⟨hnow, hstart, hch⟩, hrest⟩ := h
  have hch := onBoth_iff.mp hch
  refine ⟨hv, ⟨hnow, hstart, onBoth_iff.mpr fun d => ⟨?_, (hch d).2⟩⟩, hrest⟩
  exact PerCh.forall_get_set (p := fun _ (ts : Nat) => ts < s.params.timeMod) (fun d => (hch d).1) hnow d

theorem setRecord (h : Inv s) (c : Chan) {r : RcRecord} (hr : r.InRange s.params) : Inv (s.setRecord c r) := by
  obtain ⟨hv, ⟨hnow, hstart, hch⟩, hcnt, hbuf, hrec, hrest⟩ := h
  have hch := onBoth_iff.mp hch
  have hrecords := PerCh.forall_get_set (p := fun _ => RcRecord.InRange s.params) (c := c)
    (fun d => ⟨(hch d).2, onBoth_iff.mp hrec d⟩) hr
  exact ⟨hv, ⟨hnow, hstart, onBoth_iff.mpr fun d => ⟨(hch d).1, (hrecords d).1⟩⟩, hcnt, hbuf,
    onBoth_iff.mpr fun d => (hrecords d).2, hrest⟩

theorem setRx (h : Inv s) {b : List Byte} (hb : b.length ≤ s.params.rxBufCap) : Inv (s.setRx b) := by
  obtain ⟨hv, htimes, hcnt, ⟨-, htx⟩, hrest⟩ := h
  exact ⟨hv, htimes, hcnt, ⟨hb, htx⟩, hrest⟩

theorem setTx (h : Inv s) {b : List Byte} (hb : b.length ≤ s.params.txFifoCap) : Inv (s.setTx b) := by
  obtain ⟨hv, htimes, hcnt, ⟨hrx, -⟩, hrest⟩ := h
  exact ⟨hv, htimes, hcnt, ⟨hrx, hb⟩, hrest⟩

theorem setCnt (h : Inv s) {c : Counters} (hc : c.Below s.params.cntMod) : Inv (s.setCnt c) := by
  obtain ⟨hv, htimes, -, hrest⟩ := h
  exact ⟨hv, htimes, hc, hrest⟩

theorem setShadow (h : Inv s) {p : PerCh Word16} (hp : ∀ c, PulseInRange s.params (p.get c)) : Inv (s.setShadow p) := by
  obtain ⟨hv, htimes, hcnt, hbuf, hrec, hpulse, hphase⟩ := h
  exact ⟨hv, htimes, hcnt, hbuf, hrec, fun hon => ⟨⟨hp _, (hpulse hon).1.2⟩, hp _, (hpulse hon).2.2⟩, hphase⟩

/-- The shadows are in range while the carrier runs (rule R47). -/
theorem pwShadow_inRange (h : Inv s) (hon : s.pwmEnabled = true) (c : Chan) : PulseInRange s.params (s.pwShadow.get c) := by
  obtain ⟨-, -, -, -, -, hpulse, -⟩ := h
  exact (onBoth_iff.mp (hpulse hon) c).1

/-- AD.INIT starts the carrier with the same widths in the shadows and on the pins (rule R192). -/
theorem start (h : Inv s) {p : PerCh Word16} (hp : ∀ c, PulseInRange s.params (p.get c)) :
    Inv ((s.setShadow p).enablePwm.startPeriod p) := by
  obtain ⟨hv, ⟨hnow, -, hch⟩, hcnt, hbuf, hrec, -, -⟩ := h
  obtain ⟨-, -, ⟨-, -, hperiod, -⟩, -⟩ := id hv
  refine ⟨hv, ⟨hnow, hnow, hch⟩, hcnt, hbuf, hrec, fun _ => ⟨⟨hp _, hp _⟩, hp _, hp _⟩, fun _ => ?_⟩
  have hzero : phase ((s.setShadow p).enablePwm.startPeriod p) = 0 := tsub_self _ _
  rw [hzero]
  exact Nat.zero_lt_of_lt hperiod

/-- A move of `now` that stays below the next boundary. -/
theorem addTime (h : Inv s) {d : Nat} (hd : s.pwmEnabled = false ∨ d < toBoundary s) : Inv (addTime s d) := by
  obtain ⟨hv, ⟨-, hstart, hch⟩, hcnt, hbuf, hrec, hpulse, -⟩ := h
  refine ⟨hv, ⟨Nat.mod_lt _ (timeMod_pos _), hstart, hch⟩, hcnt, hbuf, hrec, hpulse, fun (hon : s.pwmEnabled = true) => ?_⟩
  have hshort : d < toBoundary s := hd.resolve_left (by simp [hon])
  calc phase (Machine.addTime s d) = (phase s + d) % s.params.timeMod := tsub_add_mod _ _ _ _
    _ ≤ phase s + d := Nat.mod_le _ _
    _ < s.params.pwmPeriodUs := by rw [toBoundary] at hshort; omega

/-- A boundary puts the shadows on the pins at phase 0 (rule R205). -/
theorem crossBoundary (h : Inv s) : Inv (crossBoundary s) := by
  obtain ⟨hv, ⟨-, -, hch⟩, hcnt, hbuf, hrec, hpulse, -⟩ := h
  obtain ⟨-, -, ⟨-, -, hperiod, -⟩, -⟩ := id hv
  have hnow : (s.now + toBoundary s) % s.params.timeMod < s.params.timeMod := Nat.mod_lt _ (timeMod_pos _)
  refine ⟨hv, ⟨hnow, hnow, hch⟩, hcnt, hbuf, hrec, fun hon => ?_, fun _ => ?_⟩
  · obtain ⟨⟨h0, -⟩, h1, -⟩ := hpulse hon
    exact ⟨⟨h0, h0⟩, h1, h1⟩
  · rw [phase_crossBoundary]
    exact Nat.zero_lt_of_lt hperiod

/-- The whole of T.ADV, boundary by boundary: each lies at a later instant, since the phase is below the period. -/
theorem advance (h : Inv s) (d : Nat) : Inv (advance s d) := by
  induction d using Nat.strong_induction_on generalizing s with
  | _ d ih =>
    by_cases hshort : s.pwmEnabled = false ∨ d < toBoundary s
    · rw [advance_short s d hshort]
      exact h.addTime hshort
    · obtain ⟨hon, hreach⟩ : s.pwmEnabled = true ∧ toBoundary s ≤ d := by simpa using hshort
      obtain ⟨-, -, -, -, -, -, hphase⟩ := id h
      have hlater : 0 < toBoundary s := Nat.sub_pos_of_lt (hphase hon)
      rw [advance_boundary s d (Nat.zero_lt_of_lt (hphase hon)) hon hreach]
      exact ih _ (by omega) h.crossBoundary

end Inv

/-! ### The invariant over an effect -/

/-- Every effect keeps the invariant; the fields that the invariant does not speak of do not matter. -/
theorem Effect.inv {i : Instr} {s t : State} (he : Effect s i t) (h : Inv s) : Inv t := by
  obtain ⟨hv, ⟨hnow, -⟩, hcnt, ⟨hrx, htx⟩, -⟩ := id h
  cases he with
  | result r => exact h
  | advance d => exact h.advance d.toNat
  | rise c => exact h.setRise_now c
  | fallRejected c => exact h
  | fallAccepted c harmed hw => exact h.setRecord c (record_inRange_of_inWindow hv hw hnow)
  | byteKept b issued hi hscript hroom =>
    have hlen : (s.rxBuf ++ [b]).length ≤ s.params.rxBufCap := by rw [List.length_append]; exact hroom
    exact h.setRx hlen
  | byteLost issued =>
    obtain ⟨hok, hsize, hcrc, hformat, -⟩ := hcnt
    exact h.setCnt ⟨hok, hsize, hcrc, hformat, bump_lt _ _⟩
  | poll =>
    have hbuf := (poll_suffix s.params s.rxBuf s.cnt).1.length_le
    exact (h.setRx (hbuf.trans hrx)).setCnt (poll_cnt_below _ _ _ hcnt)
  | queue u p hsend hroom =>
    have hlen : (s.txFifo ++ encodeFrame s.params u p).length ≤ s.params.txFifoCap := by
      rw [List.length_append, encodeFrame, Laws.Encoding.frameBytes_length]
      omega
    exact h.setTx hlen
  | transmit b rest hfifo =>
    rw [hfifo, List.length_cons] at htx
    exact h.setTx (Nat.le_of_succ_le htx)
  | start => exact h.start (pulseInRange_neutral hv)
  | neutral => exact h.setShadow (pulseInRange_neutral hv)
  | pulse c us hi hon =>
    exact h.setShadow (PerCh.forall_get_set (p := fun _ => PulseInRange s.params) (h.pwShadow_inRange hon)
      (pulseInRange_operand hv us))
  | reset => exact inv_resetOf hv

/-- The periods that an effect adds to `pwm_trace` have the widths of the shadows or NEUTRAL_US (rules R192, R205). -/
theorem Effect.traceSafe {i : Instr} {s t : State} (he : Effect s i t) (h : Inv s) (htrace : TraceSafe s) : TraceSafe t := by
  obtain ⟨hv, -⟩ := id h
  cases he with
  | advance d =>
    obtain ⟨l, hl, hwidths⟩ := advance_trace s d.toNat
    intro e hmem
    rw [State.ret_pwmTrace, hl, List.mem_append] at hmem
    rw [State.ret_params, advance_params]
    rcases hmem with hmem | hmem
    · exact htrace e hmem
    · obtain ⟨hon, h0, h1⟩ := hwidths e hmem
      rw [h0, h1]
      exact ⟨h.pwShadow_inRange hon .ch0, h.pwShadow_inRange hon .ch1⟩
  | start =>
    intro e hmem
    rcases List.mem_append.mp hmem with hmem | hmem
    · exact htrace e hmem
    · rw [List.mem_singleton.mp hmem]
      exact ⟨pulseInRange_neutral hv .ch0, pulseInRange_neutral hv .ch1⟩
  | _ => exact htrace

end Sys2Proof.Machine

namespace Sys2Proof.Proofs

open Sys2Proof Sys2Proof.Machine

/-- Settles O52: the step runs one instruction, whose effect keeps the invariant. -/
theorem everyStepKeepsTheInvariant : Obligations.EveryStepKeepsTheInvariant := by
  intro s t hs h
  obtain ⟨i, later, -, hexec, -⟩ := step_next h
  exact (effect_of_exec hexec).inv hs

/-- Settles O53: a period starts with the shadows of a running carrier or at neutral, both in range. -/
theorem everyPulseOnThePinsIsInRange : Obligations.EveryPulseOnThePinsIsInRange := by
  intro s t hs htrace h
  obtain ⟨i, later, -, hexec, -⟩ := step_next h
  exact (effect_of_exec hexec).traceSafe hs htrace

end Sys2Proof.Proofs
end

section
/-!
PROOFS. The frames in `tx_fifo` stay whole (spec/10_state.md rule R41, spec/41_command_link.md rules R165, R168): O54; and the state
after reset (rule R55): O51.
-/

namespace Sys2Proof.Machine

theorem encodeFrame_ne_nil (P : Params) (u : Byte) (p : List Byte) : encodeFrame P u p ≠ [] := by
  rw [← List.length_pos_iff_ne_nil, encodeFrame, Laws.Encoding.frameBytes_length]
  omega

/-- A PING with no payload is sendable under every valid record (rules R83, R91). -/
theorem sendable_ping {P : Params} (hv : P.Valid) : Sendable P P.mtPing [] := by
  obtain ⟨-, -, -, ⟨-, hcommand, -, htelem, -⟩, -⟩ := hv
  refine ⟨(knownType_iff P _).mpr (by simp), Nat.zero_le _, (typeLenOk_iff P _ _).mpr ⟨?_, ?_⟩⟩
  · exact fun h => absurd h.symm hcommand
  · exact fun h => absurd h.symm htelem

/-- An empty queue is what is left of a frame sent to its end. -/
theorem framed_nil {P : Params} (hv : P.Valid) : Framed P [] :=
  ⟨⟨P.mtPing, []⟩, (encodeFrame P P.mtPing []).length, [], sendable_ping hv, nofun, by simp [framesBytes]⟩

/-- A whole frame goes behind the others. -/
theorem Framed.append_frame {P : Params} {fifo : List Byte} (h : Framed P fifo) {u : Byte} {p : List Byte}
    (hsend : Sendable P u p) : Framed P (fifo ++ encodeFrame P u p) := by
  obtain ⟨first, sent, fs, hfirst, hfs, rfl⟩ := h
  refine ⟨first, sent, fs ++ [⟨u, p⟩], hfirst, fun f hf => ?_, by simp [framesBytes]⟩
  rcases List.mem_append.mp hf with hf | hf
  · exact hfs f hf
  · rw [List.mem_singleton.mp hf]
    exact hsend

/-- The head byte is the next one of the frame being sent, or, where that frame is through, the first one of the next frame. -/
theorem Framed.of_cons {P : Params} {b : Byte} {rest : List Byte} (h : Framed P (b :: rest)) : Framed P rest := by
  obtain ⟨first, sent, fs, hfirst, hfs, heq⟩ := h
  rcases List.cons_eq_append_iff.mp heq with ⟨-, hnext⟩ | ⟨left, hleft, rfl⟩
  · cases fs with
    | nil => cases hnext
    | cons f fs =>
      rw [List.forall_mem_cons] at hfs
      refine ⟨f, 1, fs, hfs.1, hfs.2, ?_⟩
      rw [← List.drop_append_of_le_length (List.length_pos_iff_ne_nil.mpr (encodeFrame_ne_nil P _ _))]
      exact congrArg (List.drop 1) hnext.symm
  · refine ⟨first, sent + 1, fs, hfirst, hfs, ?_⟩
    rw [← List.tail_drop, hleft, List.tail_cons]

/-- CL.SEND puts a whole frame behind the others, CL.TXBYTE takes the head byte, SYS.RESET empties the queue
(rules R165, R168, R55). -/
theorem Effect.framed {i : Instr} {s t : State} (he : Effect s i t) (hv : s.params.Valid)
    (h : Framed s.params s.txFifo) : Framed t.params t.txFifo := by
  cases he with
  | advance d => simpa using h
  | queue u p hsend => exact h.append_frame hsend
  | transmit b rest hfifo =>
    rw [hfifo] at h
    exact h.of_cons
  | reset => exact framed_nil hv
  | _ => exact h

end Sys2Proof.Machine

namespace Sys2Proof.Proofs

open Sys2Proof Sys2Proof.Machine

/-- Settles O54: a step queues a whole frame, takes one byte from the head, empties the queue or leaves it. -/
theorem everyStepKeepsFramesWhole : Obligations.EveryStepKeepsFramesWhole := by
  intro s t hv hframed h
  obtain ⟨i, later, -, hexec, -⟩ := step_next h
  exact (effect_of_exec hexec).framed hv hframed

/-- Settles O51: the registers start at values in range, the trace and the queue empty. -/
theorem resetMeetsTheInvariant : Obligations.ResetMeetsTheInvariant :=
  fun _ hv => ⟨inv_resetOf hv, nofun, framed_nil hv, rfl⟩

end Sys2Proof.Proofs
end

section
/-!
PROOFS. What changes the shared record of a channel (spec/20_memory.md rules R66, R69, spec/40_pulse_capture.md rule R122): O57.
-/

namespace Sys2Proof.Machine

/-- Rules R66, R122: an instruction that changes the record of a channel is a reset or an accepted fall of that channel, which
writes all three parts. -/
theorem Effect.record_changed {i : Instr} {s t : State} (h : Effect s i t) {c : Chan}
    (hne : t.record.get c ≠ s.record.get c) :
    i = .sysReset ∨ (i = .pcFall c ∧ isArmed s c = true ∧ inWindow s.params (capturedWidth s c) = true ∧
      t.record.get c = ⟨BitVec.ofNat 16 (capturedWidth s c), s.now, true⟩) := by
  cases h with
  | reset => exact .inl rfl
  | fallAccepted d harmed hw =>
    by_cases hcd : c = d
    · subst hcd
      exact .inr ⟨rfl, harmed, hw, PerCh.get_set_self _ _ _⟩
    · exact absurd (PerCh.get_set_other _ _ hcd) hne
  | advance d => exact absurd (congrArg (PerCh.get · c) (advance_record s _)) hne
  | _ => exact absurd rfl hne

/-- A captured width of the window survives its narrowing to 16 bits (rules R122, R322). -/
theorem narrowed_toNat_of_inWindow {P : Params} (hv : P.Valid) {w : Nat} (hw : inWindow P w = true) :
    (BitVec.ofNat 16 w).toNat = w := by
  obtain ⟨-, ⟨-, -, hmax⟩, -⟩ := hv
  have hle := ((inWindow_iff P w).mp hw).2
  exact length_field (by omega)

end Sys2Proof.Machine

namespace Sys2Proof.Proofs

open Sys2Proof Sys2Proof.Machine

/-- Settles O57: only a reset and an accepted fall change the record, and the window fits the 16 bits of the width. -/
theorem sharedRecordIsWrittenWhole : Obligations.SharedRecordIsWrittenWhole := by
  intro i s t c hv h hne
  refine ((effect_of_exec h).record_changed hne).imp_right fun ⟨hi, harmed, hw, hrecord⟩ => ?_
  have hbounds := (inWindow_iff _ _).mp hw
  rw [hrecord, narrowed_toNat_of_inWindow hv hw]
  exact ⟨hi, harmed, rfl, rfl, rfl, hbounds⟩

end Sys2Proof.Proofs
end

section
/-!
PROOFS. What decodes and what spells no operation (spec/30_encoding.md rules R80, R100 to R103, R108;
spec/60_exceptions.md rule R282): O1, O2, O3, O4.
-/

namespace Sys2Proof

open Machine

/-! ### Whole scripts -/

/-- A script that begins with an encoded operation is that operation and then the rest of the script (rule R100). -/
theorem decodeScript_encode_append {P : Params} {i : Instr} (hk : i.stream = .script) (hw : WellFormed P i = true)
    (tail : List Byte) : decodeScript (encode P i ++ tail) = (decodeScript tail).map (i :: ·) := by
  obtain ⟨b, bs, he⟩ := encode_eq_cons P i
  have hd : decodeOp (b :: (bs ++ tail)) = .ok (i, tail) := by
    rw [← List.cons_append, ← he, decodeOp_encode_append hk hw]
  rw [he, List.cons_append, decodeScript_cons, hd]
  cases h : decodeScript tail <;> simp only [h, Except.map]

/-- Encoded operations in front of a script are decoded one by one, none running into the next or into the script
(rules R100 to R102). -/
theorem decodeScript_encodeScript_append {P : Params} {is : List Instr}
    (his : ∀ i ∈ is, i.stream = .script ∧ WellFormed P i = true) (tail : List Byte) :
    decodeScript (encodeScript P is ++ tail) = (decodeScript tail).map (is ++ ·) := by
  induction is with
  | nil => exact (id_map _).symm
  | cons i is ih =>
    rw [List.forall_mem_cons] at his
    obtain ⟨⟨hk, hw⟩, his⟩ := his
    rw [encodeScript_cons, List.append_assoc, decodeScript_encode_append hk hw, ih his]
    cases decodeScript tail <;> rfl

/-- A script whose first operation is ill-formed is ill-formed (rules R103, R282). -/
theorem decodeScript_of_decodeOp_error {bs : List Byte} {e : DecodeError} (hne : bs ≠ []) (h : decodeOp bs = .error e) :
    decodeScript bs = .error e := by
  cases bs with
  | nil => exact absurd rfl hne
  | cons b bs => rw [decodeScript_cons, h]

/-! ### Operands that are cut short, and channels without an edge agent -/

theorem decodeOpD_of_short {bs : List Byte} (h : bs.length < 4) : decodeOpD bs = .error .truncated := by
  unfold decodeOpD
  split
  · simp only [List.length_cons] at h; omega
  · rfl

theorem decodeOpW_of_short {bs : List Byte} (h : bs.length < 3) : decodeOpW bs = .error .truncated := by
  unfold decodeOpW
  split
  · simp only [List.length_cons] at h; omega
  · rfl

theorem decodeOpF_of_short {bs : List Byte} (h : bs.length < 5) : decodeOpF bs = .error .truncated := by
  unfold decodeOpF
  split
  · simp only [List.length_cons] at h; omega
  · rfl

/-- The operands of CL.SEND end early inside the type and the length, or the payload is shorter than the length says
(rules R100, R103). -/
theorem decodeOpS_take (t : Byte) {p : List Byte} {k : Nat} (hp : p.length < 65536) (hk : k < p.length + 3) :
    decodeOpS ((t :: (u16le (BitVec.ofNat 16 p.length) ++ p)).take k) = .error .truncated := by
  match k with
  | 0 | 1 | 2 => rfl
  | k + 3 =>
    have hshort : (p.take k).length < p.length := by rw [List.length_take]; omega
    simp only [u16le, List.cons_append, List.nil_append, List.take_succ_cons, decodeOpS, le16_u16le, length_field hp,
      if_pos hshort]

theorem decodeEdge_noSuchEdge {ch : Byte} (h : 2 ≤ ch.toNat) (mk : Chan → Instr) (rest : List Byte) :
    decodeEdge mk (ch :: rest) = .error (.noSuchEdge ch) := by
  have hnone : Chan.ofByte ch = none := channelOf_none h
  simp only [decodeEdge, hnone]

/-- An encoded operation that is cut short spells no operation: the opcode is missing, or operand bytes are (rule R103). -/
theorem decodeOp_take_encode {P : Params} {i : Instr} {k : Nat} (hk : i.stream = .script) (hw : WellFormed P i = true)
    (hcut : k < (encode P i).length) : decodeOp ((encode P i).take k) = .error .truncated := by
  cases k with
  | zero => rfl
  | succ k =>
    cases i with
    | frameCommand | frameTelem | framePing | framePong => cases hk
    | pcPoll | pcActive | clPoll | clTxByte | clStats | adInit | adNeutral | sysReset =>
      exact absurd (Nat.lt_of_succ_lt_succ hcut) k.not_lt_zero
    | pcRise ch | pcFall ch | pcRead ch | clRxByte b =>
      obtain rfl : k = 0 := Nat.lt_one_iff.mp (Nat.lt_of_succ_lt_succ hcut)
      rfl
    | tAdv d => exact decodeOpD_of_short ((List.length_take_le ..).trans_lt (Nat.lt_of_succ_lt_succ hcut))
    | adSetPw ch us => exact decodeOpW_of_short ((List.length_take_le ..).trans_lt (Nat.lt_of_succ_lt_succ hcut))
    | adSetAxis ch a => exact decodeOpF_of_short ((List.length_take_le ..).trans_lt (Nat.lt_of_succ_lt_succ hcut))
    | clSend t p =>
      exact decodeOpS_take t (by simpa [WellFormed, lengthFits] using hw) (Nat.lt_of_succ_lt_succ hcut)

end Sys2Proof

namespace Sys2Proof.Proofs

open Sys2Proof Sys2Proof.Machine

/-- Settles O1: an operation is read back by its opcode and its format, a frame by its header and its payload's layout. -/
theorem decodeGivesBackEncodedInstruction : Obligations.DecodeGivesBackEncodedInstruction := by
  intro P i rest hv hw
  cases hk : i.stream with
  | script => exact decodeOp_encode_append hk hw rest
  | wire => exact decodeFrame_encode_append hv hk hw rest

/-- Settles O3: nothing follows the last operation. -/
theorem decodeScriptGivesBackOperations : Obligations.DecodeScriptGivesBackOperations := by
  intro P is his
  simpa [Except.map] using decodeScript_encodeScript_append his []

/-- Settles O4: what is ill-formed alone stays so behind well-formed operations. -/
theorem illFormedScriptsSpellNoOperation : Obligations.IllFormedScriptsSpellNoOperation := by
  refine ⟨fun b rest hb => ?_, fun op ch rest hop hch => ?_, fun P i k => decodeOp_take_encode,
    fun P is tail e his hne he => ?_⟩
  · simp only [List.mem_cons, List.not_mem_nil, or_false, not_or] at hb
    simp only [decodeOp, hb, if_false]
  · rcases hop with rfl | rfl
    · exact decodeEdge_noSuchEdge hch .pcRise rest
    · exact decodeEdge_noSuchEdge hch .pcFall rest
  · rw [decodeScript_encodeScript_append his, decodeScript_of_decodeOp_error hne he]
    rfl

/-- Settles O2, by running the decoder. -/
theorem specWordsDecode : Obligations.SpecWordsDecode :=
  ⟨rfl, rfl, rfl, rfl, rfl, rfl, rfl, rfl⟩

end Sys2Proof.Proofs
end

section
/-!
PROOFS. The fields of a frame, the predicate of an accepted frame and the payloads (spec/30_encoding.md rules R80, R87, R90, R92,
R95, R96), and the parser on an encoded frame (spec/41_command_link.md rules R156, R160): O34, O36, O37.
-/

namespace Sys2Proof.Machine

/-! ### The fields of a frame with bytes after it -/

section
variable (P : Params) (t : Byte) (p rest : List Byte) (crc : Word16)

theorem frameBody_length : (frameBody P t p).length = 4 + p.length := by
  simp only [frameBody, u16le, List.length_append, List.length_cons, List.length_nil]

theorem word16At_frameBytes_length : word16At (frameBytes P t p crc ++ rest) 4 = BitVec.ofNat 16 p.length :=
  le16_u16le _

theorem word16At_frameBytes_crc : word16At (frameBytes P t p crc ++ rest) (6 + p.length) = crc := by
  have hlen : ([P.preamble0, P.preamble1] ++ frameBody P t p).length = 6 + p.length := by
    rw [List.length_append, frameBody_length, ← Nat.add_assoc]; rfl
  rw [frameBytes, List.append_assoc]
  exact (word16At_append (i := 0) hlen).trans (word16At_u16le crc rest)

/-- The bytes that the CRC covers (rule R86). -/
theorem slice_frameBytes_body : slice (frameBytes P t p crc ++ rest) 2 (4 + p.length) = frameBody P t p := by
  have hdrop : (frameBytes P t p crc ++ rest).drop 2 = frameBody P t p ++ (u16le crc ++ rest) :=
    List.append_assoc _ _ _
  rw [slice, hdrop, List.take_left' (frameBody_length P t p)]

theorem slice_frameBytes_payload : slice (frameBytes P t p crc ++ rest) 6 p.length = p := by
  rw [slice, frameBytes_append]
  exact List.take_left

end

/-! ### Accepted frames -/

/-- Rule R96: an accepted frame is a candidate of the parser that is usable and fills the byte sequence. -/
theorem frameAccepted_iff (P : Params) (f : List Byte) :
    frameAccepted P f = true ↔ ∃ L, CandidateAt P f L ∧ UsableAt P f L ∧ f.length = 8 + L := by
  simp only [frameAccepted, CandidateAt, UsableAt, HeaderAt, Bool.and_eq_true, decide_eq_true_eq, beq_iff_eq]
  constructor
  · rintro ⟨⟨⟨⟨⟨⟨⟨⟨h8, h0⟩, h1⟩, hmax⟩, hlen⟩, hcrc⟩, hver⟩, htype⟩, hfit⟩
    exact ⟨_, ⟨⟨by omega, h0, h1, rfl⟩, hmax, hlen.ge, hcrc⟩, ⟨hver, htype, hfit⟩, hlen⟩
  · rintro ⟨_, ⟨⟨-, h0, h1, rfl⟩, hmax, -, hcrc⟩, ⟨hver, htype, hfit⟩, hlen⟩
    exact ⟨⟨⟨⟨⟨⟨⟨⟨by omega, h0⟩, h1⟩, hmax⟩, hlen⟩, hcrc⟩, hver⟩, htype⟩, hfit⟩

section
variable {P : Params} {t : Byte} {p : List Byte} (hv : P.Valid) (hs : Sendable P t p) (rest : List Byte)
include hv hs

/-- An encoded frame is there whole, its length fits the field and its CRC matches (rules R84, R95). -/
theorem candidateAt_encodeFrame : CandidateAt P (encodeFrame P t p ++ rest) p.length := by
  obtain ⟨-, -, -, -, -, hmax, -⟩ := hv
  obtain ⟨-, hlen, -⟩ := hs
  have htotal : 8 + p.length ≤ (encodeFrame P t p ++ rest).length := by
    rw [List.length_append, encodeFrame, Laws.Encoding.frameBytes_length]; omega
  refine ⟨⟨by omega, rfl, rfl, ?_⟩, hlen, htotal, ?_⟩
  · rw [encodeFrame, word16At_frameBytes_length, length_field (by omega)]
  · rw [encodeFrame, word16At_frameBytes_crc, slice_frameBytes_body]

omit hv in
/-- The version, the type and the length of a frame that CL.SEND accepts are usable (rules R159, R165). -/
theorem usableAt_encodeFrame : UsableAt P (encodeFrame P t p ++ rest) p.length := by
  obtain ⟨hknown, -, hfit⟩ := hs
  exact ⟨rfl, hknown, hfit⟩

theorem frameAccepted_encodeFrame : frameAccepted P (encodeFrame P t p) = true := by
  refine (frameAccepted_iff P _).mpr ⟨p.length, ?_, ?_, Laws.Encoding.frameBytes_length P t p _⟩
  · simpa using candidateAt_encodeFrame hv hs []
  · simpa using usableAt_encodeFrame hs []

end

/-! ### The parser on an encoded frame -/

/-- A usable candidate at the head of the buffer is exposed: the other outcomes of a pass contradict it (rule R156). -/
theorem scan_of_usable {P : Params} {B : List Byte} {L : Nat} (hc : CandidateAt P B L) (hu : UsableAt P B L) :
    scan P B = .exposed (8 + L) ⟨byteAt B 3, slice B 6 L⟩ := by
  obtain ⟨⟨h6, h0, h1, rfl⟩, hmax, hlen, hcrc⟩ := id hc
  rcases scan_cases P B with ⟨-, hwait⟩ | ⟨-, hmis⟩ |
    ⟨L, ⟨-, -, -, rfl⟩, ⟨-, hbig⟩ | ⟨-, -, -, hbad⟩ | ⟨-, -, hun⟩ | ⟨he, -⟩⟩
  · omega
  · rcases hmis with ⟨-, h⟩ | ⟨-, -, h⟩
    · exact absurd h0 h
    · exact absurd h1 h
  · omega
  · exact absurd hcrc hbad
  · exact absurd hu hun
  · exact he

/-- A sendable frame at the head of the buffer is returned with its type and payload, counted, and only it is removed
(rules R95, R160). -/
theorem poll_encodeFrame_append {P : Params} {t : Byte} {p : List Byte} (hv : P.Valid) (hs : Sendable P t p)
    (rest : List Byte) (c : Counters) :
    poll P (encodeFrame P t p ++ rest) c = ⟨rest, c.countOk P, some ⟨t, p⟩⟩ := by
  have hpayload : slice (encodeFrame P t p ++ rest) 6 p.length = p := slice_frameBytes_payload P t p rest _
  have hdrop : (encodeFrame P t p ++ rest).drop (8 + p.length) = rest :=
    List.drop_left' (Laws.Encoding.frameBytes_length P t p _)
  rw [poll_eq, scan_of_usable (candidateAt_encodeFrame hv hs rest) (usableAt_encodeFrame hs rest)]
  dsimp only
  rw [hdrop, hpayload]
  rfl

end Sys2Proof.Machine

namespace Sys2Proof.Proofs

open Sys2Proof Sys2Proof.Machine

/-- Settles O36: the fields of an encoded frame read back what the checks of CL.SEND asked for. -/
theorem encodedFramesAreAccepted : Obligations.EncodedFramesAreAccepted :=
  fun _ _ _ hv hs => frameAccepted_encodeFrame hv hs

/-- Settles O37, field by field of each layout. -/
theorem payloadsUnpackToWhatWasPacked : Obligations.PayloadsUnpackToWhatWasPacked := by
  refine ⟨fun t s => ⟨rfl, (if_pos rfl).trans ?_⟩, fun P m hv hs =>
    ⟨Laws.Encoding.packTelem_length hv m, unpackTelem_packTelem hv hs⟩⟩
  obtain ⟨ht, hs⟩ := word32At_packCommand t s
  rw [ht, hs]

/-- Settles O34, by running the CRC. -/
theorem crcCheckValues : Obligations.CrcCheckValues :=
  ⟨by decide +kernel, rfl, by decide +kernel⟩

end Sys2Proof.Proofs
end

section
/-!
PROOFS. A frame of the line arrives byte by byte and is polled (spec/30_encoding.md rules R80, R90 to R92, R106;
spec/41_command_link.md rules R152, R156, R160; spec/45_common_semantics.md rule R329): O41, O42.
-/

namespace Sys2Proof

open Machine

namespace Machine

/-! ### Bytes arriving -/

/-- Bytes that fit are appended and nothing else changes. -/
theorem afterArrival_of_fits {s : State} {bytes : List Byte} (hcnt : s.cnt.overrun < s.params.cntMod)
    (hfits : s.rxBuf.length + bytes.length ≤ s.params.rxBufCap) :
    afterArrival s bytes = (s.setRx (s.rxBuf ++ bytes)).ret .noResult := by
  have hlost : bytes.length - (s.params.rxBufCap - s.rxBuf.length) = 0 := by omega
  simp only [afterArrival, List.take_of_length_le (Nat.le_sub_of_add_le' hfits), hlost, Nat.add_zero,
    Nat.mod_eq_of_lt hcnt]
  rfl

/-- One received byte is the arrival of a sequence of one byte (rule R152). -/
theorem rxByte_ret_noResult {s : State} (hcnt : s.cnt.overrun < s.params.cntMod) (b : Byte) :
    (rxByte s b).ret .noResult = afterArrival s [b] := by
  rcases rxByte_cases s b with ⟨hroom, h⟩ | ⟨hfull, h⟩
  · rw [h, afterArrival_of_fits (bytes := [b]) hcnt hroom]
  · simp only [h, afterArrival, Nat.sub_eq_zero_of_le hfull, List.take_zero, List.append_nil]
    rfl

/-- A sequence of bytes arrives as its first byte and then the others: where the buffer is full the counts add up, else one place
less is left. -/
theorem afterArrival_afterArrival_singleton (s : State) (b : Byte) (bs : List Byte) :
    afterArrival (afterArrival s [b]) bs = afterArrival s (b :: bs) := by
  unfold afterArrival
  rcases hroom : s.params.rxBufCap - s.rxBuf.length with _ | room
  · simp [hroom, Nat.add_assoc, Nat.add_comm 1]
  · have hleft : s.params.rxBufCap - (s.rxBuf.length + 1) = room := by omega
    simp [hleft]

theorem afterArrival_overrun_lt (s : State) (bytes : List Byte) :
    (afterArrival s bytes).cnt.overrun < s.params.cntMod :=
  Nat.mod_lt _ (Nat.two_pow_pos _)

/-- `s` with what the environment issues next replaced (assumption 1). -/
def State.withInput (s : State) (input : List Chunk) : State := { s with input := input }

/-- The script of the bytes of a sequence, one CL.RXBYTE each (rule R106). -/
def rxScript (bs : List Byte) : List Byte := bs.flatMap fun b => [0x20, b]

theorem exec_clRxByte {s : State} (hcnt : s.cnt.overrun < s.params.cntMod) (b : Byte) (input : List Chunk) :
    exec (.clRxByte b) (s.withInput input) = .next ((afterArrival s [b]).withInput input) :=
  congrArg Host.Outcome.next (rxByte_ret_noResult (s := s.withInput input) hcnt b)

/-- What a frame does is what CL.RXBYTE of its first byte does, with its other bytes before the rest of the input
(rules R152, R329). -/
theorem exec_frame_eq_clRxByte {s : State} {i : Instr} {b : Byte} {rest : List Byte} (hwire : i.stream = .wire)
    (henc : encode s.params i = b :: rest) :
    exec i s = exec (.clRxByte b) (s.withInput (.script (rxScript rest) :: s.input)) := by
  have hdeliver : exec i s = .next (deliver s (encode s.params i)) := by
    cases i with
    | frameCommand | frameTelem | framePing | framePong => rfl
    | _ => cases hwire
  rw [hdeliver, henc, deliver_cons]
  rfl

/-! ### Runs of received bytes -/

theorem core_run_succ {M : Host.Core} {s t : M.State} (h : M.step s = .next t) (k : Nat) :
    M.run (k + 1) s = M.run k t := by
  rw [Host.Core.run, h]

/-- The step on a script of received bytes takes the first one. -/
theorem step_rxScript {s : State} (hv : s.params.Valid) (hcnt : s.cnt.overrun < s.params.cntMod) (b : Byte)
    (bs : List Byte) (later : List Chunk) :
    step (s.withInput (.script (rxScript (b :: bs)) :: later)) =
      .next ((afterArrival s [b]).withInput (pushScript (rxScript bs) later)) := by
  have hnext : nextInstr s.params (.script (rxScript (b :: bs)) :: later) =
      .ok (.clRxByte b, pushScript (rxScript bs) later) :=
    nextInstr_script rfl (decodeScript_rxBytes bs)
  exact (step_of_nextInstr (s := s.withInput (.script (rxScript (b :: bs)) :: later)) hv hnext).trans (exec_clRxByte hcnt b _)

/-- A script of received bytes runs in as many steps as it has bytes, and is used up (rule R106 CL.RXBYTES). -/
theorem run_rxScript {s : State} (hv : s.params.Valid) (hcnt : s.cnt.overrun < s.params.cntMod) (b : Byte)
    (bs : List Byte) (later : List Chunk) :
    Host.Core.run Sys2Proof.core (bs.length + 1) (s.withInput (.script (rxScript (b :: bs)) :: later)) =
      .next ((afterArrival s (b :: bs)).withInput later) := by
  refine (core_run_succ (step_rxScript hv hcnt b bs later) _).trans ?_
  induction bs generalizing s b with
  | nil => rfl
  | cons c cs ih =>
    have hcnt' := afterArrival_overrun_lt s [b]
    have hstep := step_rxScript (s := afterArrival s [b]) hv hcnt' c cs later
    rw [← afterArrival_afterArrival_singleton s b (c :: cs)]
    exact (core_run_succ hstep _).trans (ih (s := afterArrival s [b]) hv hcnt' c)

/-- A well-formed frame in front of the input runs in as many steps as it has bytes: they have arrived, and nothing of it is
left in the input (assumption 2). -/
theorem run_frame {s : State} {i : Instr} (hv : s.params.Valid) (hcnt : s.cnt.overrun < s.params.cntMod)
    (hwire : i.stream = .wire) (hw : WellFormed s.params i = true) :
    Host.Core.run Sys2Proof.core (encode s.params i).length
        (s.withInput (.wire (encode s.params i) :: s.input)) =
      .next (afterArrival s (encode s.params i)) := by
  obtain ⟨b, c, bs, henc⟩ : ∃ b c bs, encode s.params i = b :: c :: bs := by
    cases i with
    | frameCommand | frameTelem | framePing | framePong => exact ⟨_, _, _, rfl⟩
    | _ => cases hwire
  have hstep : step (s.withInput (.wire (encode s.params i) :: s.input)) =
      .next ((afterArrival s [b]).withInput (.script (rxScript (c :: bs)) :: s.input)) :=
    calc
      _ = exec i s :=
        step_of_nextInstr (s := s.withInput (.wire (encode s.params i) :: s.input)) hv
          (nextInstr_encode_wire hv hwire hw s.input)
      _ = exec (.clRxByte b) (s.withInput _) := exec_frame_eq_clRxByte hwire henc
      _ = _ := exec_clRxByte hcnt b _
  rw [henc] at hstep ⊢
  rw [← afterArrival_afterArrival_singleton]
  exact (core_run_succ hstep _).trans (run_rxScript (s := afterArrival s [b]) hv (afterArrival_overrun_lt s [b]) c bs s.input)

end Machine

/-! ### The bytes of the four frames -/

theorem encode_frameCommand (P : Params) (throttle steering : F32) (crc : Word16) :
    encode P (.frameCommand throttle steering crc) =
      [P.preamble0, P.preamble1, P.protoVersion, P.mtCommand, 8, 0] ++ u32le throttle ++ u32le steering ++ u16le crc := by
  have hlength : (packCommand throttle steering).length = 8 := rfl
  have hfield : u16le (BitVec.ofNat 16 8) = [8, 0] := rfl
  rw [encode, frameBytes, frameBody, hlength, hfield, packCommand]
  simp only [List.append_assoc, List.cons_append, List.nil_append]

theorem encode_frameTelem {P : Params} (hv : P.Valid) (m : Telem) (crc : Word16) :
    encode P (.frameTelem m crc) =
      [P.preamble0, P.preamble1, P.protoVersion, P.mtTelem, BitVec.ofNat 8 (22 + P.telemStatusBytes), 0] ++ u16le m.seq ++
        (if P.telemStatusBytes = 1 then [m.status.setWidth 8] else u16le m.status) ++
        u16le m.imu0 ++ u16le m.imu1 ++ u16le m.imu2 ++ u16le m.imu3 ++ u16le m.imu4 ++ u16le m.imu5 ++
        u32le m.throttle ++ u32le m.steering ++ u16le crc := by
  have hlength : u16le (BitVec.ofNat 16 (packTelem P m).length) = [BitVec.ofNat 8 (22 + P.telemStatusBytes), 0] := by
    rw [Laws.Encoding.packTelem_length hv, Params.telemPayloadLen]
    obtain ⟨-, -, -, -, -, -, -, -, h1 | h2, -⟩ := hv
    · rw [h1]; rfl
    · rw [h2]; rfl
  have hstatus : packStatus P m.status = if P.telemStatusBytes = 1 then [m.status.setWidth 8] else u16le m.status := by
    rw [packStatus, BitVec.setWidth_eq_extractLsb' (by decide)]
  rw [encode, frameBytes, frameBody, hlength, packTelem, hstatus]
  simp only [List.append_assoc, List.cons_append, List.nil_append]

end Sys2Proof

namespace Sys2Proof.Proofs

open Sys2Proof Sys2Proof.Machine

/-- Settles O41: the bytes written out are the frame's encoding, which is delivered as CL.RXBYTE of each byte. -/
theorem framesArriveByteByByte : Obligations.FramesArriveByteByByte := by
  intro s i crc b rest hv _ hcnt hframe
  obtain ⟨hwire, henc⟩ : i.stream = .wire ∧ encode s.params i = b :: rest := by
    rcases hframe with ⟨x, y, rfl, hb⟩ | ⟨m, rfl, hb⟩ | ⟨p, rfl, hb⟩ | ⟨p, rfl, hb⟩
    · exact ⟨rfl, (encode_frameCommand s.params x y crc).trans hb.symm⟩
    · exact ⟨rfl, (encode_frameTelem hv m crc).trans hb.symm⟩
    · exact ⟨rfl, hb.symm⟩
    · exact ⟨rfl, hb.symm⟩
  have hexec := exec_frame_eq_clRxByte hwire henc
  refine ⟨hexec.trans (exec_clRxByte hcnt b _), hexec, fun hw => ?_⟩
  have hrun := run_frame hv hcnt hwire hw
  rwa [henc] at hrun

/-- Settles O42: the frame arrives whole at the head of an empty buffer, and is one that CL.SEND would have queued. -/
theorem arrivedFrameIsPolled : Obligations.ArrivedFrameIsPolled := by
  intro s i t p hv hempty hcnt hsend hw hframe
  obtain ⟨hwire, henc⟩ : i.stream = .wire ∧ encode s.params i = encodeFrame s.params t p := by
    rcases hframe with ⟨x, y, c, rfl, rfl, rfl, rfl⟩ | ⟨m, c, rfl, rfl, rfl, rfl⟩ | ⟨c, rfl, rfl, rfl⟩ |
      ⟨c, rfl, rfl, rfl⟩ <;> exact ⟨rfl, rfl⟩
  have hlen : (encodeFrame s.params t p).length = 8 + p.length := Laws.Encoding.frameBytes_length _ _ _ _
  have hfits : s.rxBuf.length + (encodeFrame s.params t p).length ≤ s.params.rxBufCap := by
    obtain ⟨-, -, -, -, -, -, hcap, -⟩ := hv
    obtain ⟨-, hmax, -⟩ := hsend
    rw [hempty, hlen, List.length_nil]
    omega
  have hrun := run_frame hv hcnt hwire hw
  rw [afterArrival_of_fits hcnt (by rwa [henc]), henc, hlen, hempty, List.nil_append] at hrun
  have hpoll := poll_encodeFrame_append hv hsend [] s.cnt
  rw [List.append_nil] at hpoll
  refine ⟨_, _, by rw [henc]; exact hrun, rfl, ?_⟩
  simp only [State.ret_params, State.setRx_params, State.ret_rxBuf, State.setRx_rxBuf, State.ret_cnt, State.setRx_cnt,
    hpoll]
  exact ⟨rfl, rfl, rfl, rfl⟩

end Sys2Proof.Proofs
end

section
/-!
PROOFS. The operations of PulseCapture, and a whole pulse from its rise to its reading (spec/40_pulse_capture.md rules R121 to
R123, R126 to R129): O12, O13, O14, O15, O16, O17.
-/

namespace Sys2Proof.Machine

/-! ### Edges -/

/-- Rule R121. -/
theorem exec_pcRise (c : Chan) (s : State) :
    exec (.pcRise c) s = .next (((s.setRise c s.now).setArmed c true).ret .noResult) := rfl

/-- Rule R122 (d): a fall without a rise. -/
theorem exec_pcFall_of_not_armed {c : Chan} {s : State} (h : isArmed s c = false) :
    exec (.pcFall c) s = .next (s.ret .noResult) :=
  if_neg (Bool.eq_false_iff.mp h)

/-- Rule R122 (b): a rejected width uses up the rise and nothing else. -/
theorem exec_pcFall_of_rejected {c : Chan} {s : State} (h : isArmed s c = true)
    (hw : inWindow s.params (capturedWidth s c) = false) :
    exec (.pcFall c) s = .next ((s.setArmed c false).ret .noResult) :=
  (if_pos h).trans (if_neg (Bool.eq_false_iff.mp hw))

/-- The state that a fall with an accepted width leaves: the rise is used up, the width recorded with its acceptance time
(rule R122). -/
def acceptedFall (s : State) (c : Chan) : State :=
  ((s.setArmed c false).setRecord c ⟨BitVec.ofNat 16 (capturedWidth s c), s.now, true⟩).ret .noResult

theorem acceptedFall_record (s : State) (c : Chan) :
    (acceptedFall s c).record.get c = ⟨BitVec.ofNat 16 (capturedWidth s c), s.now, true⟩ :=
  PerCh.get_set_self _ _ _

theorem exec_pcFall_of_accepted {c : Chan} {s : State} (h : isArmed s c = true)
    (hw : inWindow s.params (capturedWidth s c) = true) : exec (.pcFall c) s = .next (acceptedFall s c) :=
  (if_pos h).trans (if_pos hw)

/-! ### Readings -/

/-- Rule R126 (d). -/
theorem exec_pcRead_of_no_channel {ch : Byte} (h : 2 ≤ ch.toNat) (s : State) :
    exec (.pcRead ch) s = .next (s.ret (.axis none)) := by
  show execPcRead ch s = _
  rw [execPcRead, channelOf_none h]

/-- Rule R126. -/
theorem exec_pcRead_toByte (c : Chan) (s : State) :
    exec (.pcRead c.toByte) s = .next (s.ret (.axis (readChannel s c))) := by
  show execPcRead c.toByte s = _
  rw [execPcRead, channelOf_toByte]

/-- Rule R127: fresh is what a channel is that reads an axis. -/
theorem isSome_readChannel (s : State) (c : Chan) : (readChannel s c).isSome = fresh s c := by
  cases h : fresh s c <;> simp [readChannel, h]

/-- Rule R128: both channels read an axis. -/
theorem isSome_pollSample (s : State) : (pollSample s).isSome = (fresh s .ch0 && fresh s .ch1) := by
  rw [← isSome_readChannel, ← isSome_readChannel, pollSample]
  cases readChannel s .ch0 <;> cases readChannel s .ch1 <;> rfl

/-- A channel whose record was accepted at this very instant is fresh, since the timeout is at least a millisecond (rule R7). -/
theorem readChannel_of_accepted_now {s : State} (hv : s.params.Valid) {c : Chan} {w : Word16}
    (h : s.record.get c = ⟨w, s.now, true⟩) : readChannel s c = some (pulseToAxis s.params w.toNat) := by
  obtain ⟨⟨-, -, htimeout, -⟩, -⟩ := hv
  rw [readChannel_eq, h, tsub_self, if_pos ⟨rfl, by omega⟩]

/-! ### A pulse -/

theorem execAll_cons {i : Instr} {s t : State} (h : exec i s = .next t) (is : List Instr) :
    execAll (i :: is) s = execAll is t := by
  rw [execAll, h]

/-- `s` at the fall of a pulse on channel `c` that rose in it `w` microseconds before, with the carrier running or not
(rules R121, R205). -/
def atFall (s : State) (c : Chan) (w : Nat) : State :=
  (advance (((s.setRise c s.now).setArmed c true).ret .noResult) w).ret .noResult

theorem execAll_rise_advance (s : State) (c : Chan) (w : Word32) (is : List Instr) :
    execAll (.pcRise c :: .tAdv w :: is) s = execAll is (atFall s c w.toNat) :=
  (execAll_cons (exec_pcRise c s) _).trans (execAll_cons rfl _)

@[simp] theorem atFall_params (s : State) (c : Chan) (w : Nat) : (atFall s c w).params = s.params :=
  advance_params _ _

theorem isArmed_atFall (s : State) (c : Chan) (w : Nat) : isArmed (atFall s c w) c = true := by
  simp [isArmed, atFall]

/-- Rule R123: the width is the time passed, across a wrap of `now` too. -/
theorem capturedWidth_atFall (s : State) (c : Chan) {w : Nat} (hw : w < s.params.timeMod) :
    capturedWidth (atFall s c w) c = w := by
  have hnow : (atFall s c w).now = (s.now + w) % s.params.timeMod := advance_now _ _
  have hrise : (atFall s c w).riseTs.get c = s.now := by simp [atFall]
  rw [capturedWidth, atFall_params, hnow, hrise, tsub_advanced _ _ _ hw]

/-- Rules R122, R126: an accepted width is read at once, in the state that the fall leaves. -/
theorem execAll_fall_read {s : State} (hv : s.params.Valid) {c : Chan} (harmed : isArmed s c = true)
    (hw : inWindow s.params (capturedWidth s c) = true) :
    ∃ t, execAll [.pcFall c, .pcRead c.toByte] s = .next t ∧
      t.result = .axis (some (pulseToAxis s.params (capturedWidth s c))) := by
  have hread : readChannel (acceptedFall s c) c =
      some (pulseToAxis s.params (BitVec.ofNat 16 (capturedWidth s c)).toNat) :=
    readChannel_of_accepted_now (s := acceptedFall s c) hv (acceptedFall_record s c)
  refine ⟨_, (execAll_cons (exec_pcFall_of_accepted harmed hw) _).trans (execAll_cons (exec_pcRead_toByte c _) []), ?_⟩
  rw [State.ret_result, hread, narrowed_toNat_of_inWindow hv hw]

end Sys2Proof.Machine

namespace Sys2Proof.Proofs

open Sys2Proof Sys2Proof.Machine

/-- Settles O12: a rise writes two registers of its channel. -/
theorem riseRecordsTimestamp : Obligations.RiseRecordsTimestamp := fun c s =>
  ⟨_, exec_pcRise c s, PerCh.get_set_self _ _ _, PerCh.get_set_self _ _ _,
    fun _ hd => ⟨PerCh.get_set_other _ _ hd, PerCh.get_set_other _ _ hd⟩, rfl, rfl⟩

/-- Settles O13: the three outcomes of a fall, of which an accepted width fits 16 bits. -/
theorem fallRecordsWidthInsideWindow : Obligations.FallRecordsWidthInsideWindow := by
  rintro c s _ hmax rfl
  refine ⟨exec_pcFall_of_not_armed, fun harmed hout => ?_, fun harmed hlo hhi => ?_⟩
  · have hw : inWindow s.params (capturedWidth s c) = false := by
      rw [Bool.eq_false_iff, ne_eq, inWindow_iff, capturedWidth]
      omega
    exact ⟨_, exec_pcFall_of_rejected harmed hw, PerCh.get_set_self _ _ _, fun _ hd => PerCh.get_set_other _ _ hd,
      rfl, rfl⟩
  · refine ⟨_, exec_pcFall_of_accepted harmed ((inWindow_iff _ _).mpr ⟨hlo, hhi⟩), PerCh.get_set_self _ _ _, ?_⟩
    rw [acceptedFall_record]
    exact ⟨length_field (Nat.lt_succ_of_le (hhi.trans hmax)), rfl, rfl,
      fun _ hd => ⟨PerCh.get_set_other _ _ hd, PerCh.get_set_other _ _ hd⟩, rfl, rfl⟩

/-- Settles O14: the byte names no channel, or the channel it is the byte of. -/
theorem readGivesAxisOfFreshChannel : Obligations.ReadGivesAxisOfFreshChannel := by
  refine fun ch s => ⟨fun h => exec_pcRead_of_no_channel h s, ?_⟩
  rintro c rfl
  rw [← readChannel_eq]
  exact exec_pcRead_toByte c s

/-- Settles O15: PC.POLL reads what the two PC.READ read. -/
theorem pollSamplesBothChannels : Obligations.PollSamplesBothChannels := by
  intro s t0 t1 r0 r1 h0 h1 hr0 hr1
  obtain rfl := Host.Outcome.next.inj ((exec_pcRead_toByte .ch0 s).symm.trans h0)
  obtain rfl := Host.Outcome.next.inj ((exec_pcRead_toByte .ch1 s).symm.trans h1)
  obtain rfl := Result.axis.inj hr0
  obtain rfl := Result.axis.inj hr1
  rfl

/-- Settles O16: a sample needs an axis of each channel, and a channel reads one when it is fresh. -/
theorem activeExactlyWhenPollGivesSample : Obligations.ActiveExactlyWhenPollGivesSample := by
  refine fun s => ⟨_, _, rfl, rfl, ?_, ?_⟩
  · rw [isSome_pollSample]
  · simp only [Bool.and_eq_true, fresh_iff, forall_chan]

/-- Settles O17: the width captured is the operand of the advance, and it is in the window. -/
theorem pulseIsReadBackAsItsAxis : Obligations.PulseIsReadBackAsItsAxis := by
  intro s c w hs hlo hhi
  obtain ⟨hv, -⟩ := hs
  have htime : w.toNat < s.params.timeMod := by
    obtain ⟨⟨hbits, -⟩, -⟩ := hv
    exact w.isLt.trans_le (Nat.pow_le_pow_right two_pos hbits)
  have hwidth := capturedWidth_atFall s c htime
  have hfall := execAll_fall_read (s := atFall s c w.toNat) (by rwa [atFall_params]) (isArmed_atFall s c w.toNat)
    (by rw [hwidth, atFall_params, inWindow_iff]; exact ⟨hlo, hhi⟩)
  rwa [hwidth, atFall_params, ← execAll_rise_advance] at hfall

end Sys2Proof.Proofs
end

section
/-!
PROOFS. PulseToAxis is the exact clamped ratio, rounded once, and what follows from that (spec/40_pulse_capture.md rules R124,
R125): O19, O20.
-/

namespace Sys2Proof.Machine

/-! ### Rounding -/

/-- Rounding to nearest is monotonic: of two values in the wrong order, one would be nearer to the other's ratio (rule R11). -/
theorem NearestEven.toRat_le_of_lt {a b : F32} {p q : ℚ} (ha : NearestEven a p) (hb : NearestEven b q) (hpq : p < q) :
    f32ToRat a ≤ f32ToRat b := by
  obtain ⟨hafin, ha⟩ := ha
  obtain ⟨hbfin, hb⟩ := hb
  have hp := (ha b hbfin).1
  have hq := (hb a hafin).1
  by_contra! hlt
  have hmid : f32ToRat a + f32ToRat b ≤ 2 * p := by nlinarith [sq_le_sq.mpr hp]
  have hmid' : 2 * q ≤ f32ToRat a + f32ToRat b := by nlinarith [sq_le_sq.mpr hq]
  linarith

/-- RN32 of 1 with either sign. -/
theorem rn32_self (neg : Bool) {d : Nat} (hd : 0 < d) : rn32 neg d d = if neg then 0xBF800000 else 0x3F800000 := by
  have hexp : negExp d d = 0 := by simp [negExp]
  have hround : roundTiesEven (d * 2 ^ 23) d = 2 ^ 23 := by
    simp [roundTiesEven, Nat.mul_div_cancel_left _ hd, hd]
  rw [rn32, if_neg hd.ne', hexp]
  simp only [Nat.zero_min, Nat.add_zero, hround]
  cases neg <;> rfl

/-! ### The ratio of rule R124 -/

/-- The exact ratio of a width on its side of neutral, before the clamp (rule R124). -/
def pulseRatio (P : Params) (w : Nat) : ℚ :=
  if w ≤ P.neutralUs then ((w : ℚ) - P.neutralUs) / ((P.neutralUs : ℚ) - P.minUs)
  else ((w : ℚ) - P.neutralUs) / ((P.maxUs : ℚ) - P.neutralUs)

theorem signed_min_one (neg : Bool) {x : ℚ} (hx : 0 ≤ x) : signed neg (min x 1) = max (-1) (min 1 (signed neg x)) := by
  cases neg with
  | false =>
    show min x 1 = max (-1) (min 1 x)
    rw [min_comm, max_eq_right (le_min (by norm_num) (by linarith))]
  | true =>
    show -min x 1 = max (-1) (min 1 (-x))
    rw [← max_neg_neg, max_comm, min_eq_right (by linarith : -x ≤ 1)]

/-- A numerator limited to the denominator is the clamp of rule R124. -/
theorem nearestEven_rn32_min (neg : Bool) (n : Nat) {d : Nat} (hd : 0 < d) :
    NearestEven (rn32 neg (min n d) d) (max (-1) (min 1 (signed neg (n / d)))) := by
  have hone : (d : ℚ) / d = 1 := div_self (by exact_mod_cast hd.ne')
  have h := nearestEven_rn32 neg hd (min_le_right n d)
  rwa [Nat.cast_min, ← min_div_div_right d.cast_nonneg, hone, signed_min_one neg (by positivity)] at h

section
variable {P : Params} (hv : P.Valid)
include hv

/-- Rule R124: the clamped ratio, rounded once. -/
theorem nearestEven_pulseToAxis (w : Nat) : NearestEven (pulseToAxis P w) (max (-1) (min 1 (pulseRatio P w))) := by
  obtain ⟨-, -, ⟨hmin, hmax, -⟩, -⟩ := hv
  rw [pulseToAxis, pulseRatio]
  split_ifs with hw
  · rw [← neg_sub, neg_div, ← Nat.cast_sub hw, ← Nat.cast_sub hmin.le]
    exact nearestEven_rn32_min true _ (Nat.sub_pos_of_lt hmin)
  · rw [← Nat.cast_sub (Nat.le_of_not_le hw), ← Nat.cast_sub hmax.le]
    exact nearestEven_rn32_min false _ (Nat.sub_pos_of_lt hmax)

theorem pulseRatio_minUs : pulseRatio P P.minUs = -1 := by
  obtain ⟨-, -, ⟨hmin, -⟩, -⟩ := hv
  have hspan : (P.neutralUs : ℚ) - P.minUs ≠ 0 := sub_ne_zero.mpr (by exact_mod_cast hmin.ne')
  rw [pulseRatio, if_pos hmin.le, ← neg_sub, neg_div, div_self hspan]

theorem pulseRatio_maxUs : pulseRatio P P.maxUs = 1 := by
  obtain ⟨-, -, ⟨-, hmax, -⟩, -⟩ := hv
  have hspan : (P.maxUs : ℚ) - P.neutralUs ≠ 0 := sub_ne_zero.mpr (by exact_mod_cast hmax.ne')
  rw [pulseRatio, if_neg hmax.not_ge, div_self hspan]

/-- Each segment is increasing, and they meet at neutral, where the ratio is 0. -/
theorem pulseRatio_strictMono : StrictMono (pulseRatio P) := by
  obtain ⟨-, -, ⟨hmin, hmax, -⟩, -⟩ := hv
  have hlo : (0 : ℚ) < P.neutralUs - P.minUs := sub_pos.mpr (by exact_mod_cast hmin)
  have hhi : (0 : ℚ) < P.maxUs - P.neutralUs := sub_pos.mpr (by exact_mod_cast hmax)
  intro w v hwv
  have hstep : (w : ℚ) - P.neutralUs < v - P.neutralUs := sub_lt_sub_right (by exact_mod_cast hwv) _
  unfold pulseRatio
  split_ifs with hwlow hvlow hvlow
  · exact div_lt_div_of_pos_right hstep hlo
  · have hw0 : (w : ℚ) - P.neutralUs ≤ 0 := sub_nonpos.mpr (by exact_mod_cast hwlow)
    have hv0 : (0 : ℚ) < v - P.neutralUs := sub_pos.mpr (by exact_mod_cast Nat.lt_of_not_le hvlow)
    exact (div_nonpos_of_nonpos_of_nonneg hw0 hlo.le).trans_lt (div_pos hv0 hhi)
  · omega
  · exact div_lt_div_of_pos_right hstep hhi

/-! ### The axis -/

omit hv in
theorem clampNat_le_clampNat {q r lo hi : Nat} (h : lo ≤ hi) (hqr : q ≤ r) : clampNat q lo hi ≤ clampNat r lo hi := by
  unfold clampNat
  split_ifs <;> omega

/-- Rule R125: widths outside [MIN_US, MAX_US] have the axis of the nearer end. -/
theorem pulseToAxis_clampNat (w : Nat) : pulseToAxis P (clampNat w P.minUs P.maxUs) = pulseToAxis P w := by
  obtain ⟨-, -, ⟨hmin, hmax, -⟩, -⟩ := hv
  unfold clampNat
  split_ifs with hlow hhigh
  · rw [pulseToAxis, pulseToAxis, if_pos hmin.le, if_pos (by omega), min_self, min_eq_right (by omega)]
  · rw [pulseToAxis, pulseToAxis, if_neg hmax.not_ge, if_neg (by omega), min_self, min_eq_right (by omega)]
  · rfl

/-- Between the ends the clamp of rule R124 does nothing. -/
theorem nearestEven_pulseToAxis_of_mem {w : Nat} (hlo : P.minUs ≤ w) (hhi : w ≤ P.maxUs) :
    NearestEven (pulseToAxis P w) (pulseRatio P w) := by
  have hmono := (pulseRatio_strictMono hv).monotone
  have h := nearestEven_pulseToAxis hv w
  rwa [min_eq_right (pulseRatio_maxUs hv ▸ hmono hhi), max_eq_right (pulseRatio_minUs hv ▸ hmono hlo)] at h

/-- Rule R125: rounding keeps the order of the ratios, which are different for different widths between the ends. -/
theorem pulseToAxis_monotone : Monotone fun w => f32ToRat (pulseToAxis P w) := by
  obtain ⟨-, -, ⟨hmin, hmax, -⟩, -⟩ := id hv
  have hends : P.minUs ≤ P.maxUs := (hmin.trans hmax).le
  intro w v hwv
  dsimp only
  rw [← pulseToAxis_clampNat hv w, ← pulseToAxis_clampNat hv v]
  obtain ⟨hwlo, hwhi⟩ := clampNat_bounds (q := w) hends
  obtain ⟨hvlo, hvhi⟩ := clampNat_bounds (q := v) hends
  rcases (clampNat_le_clampNat hends hwv).eq_or_lt with heq | hlt
  · rw [heq]
  · exact (nearestEven_pulseToAxis_of_mem hv hwlo hwhi).toRat_le_of_lt (nearestEven_pulseToAxis_of_mem hv hvlo hvhi)
      (pulseRatio_strictMono hv hlt)

omit hv in
theorem pulseToAxis_neutralUs : pulseToAxis P P.neutralUs = 0x00000000 := by
  rw [pulseToAxis, if_pos le_rfl, Nat.sub_self, Nat.zero_min]
  rfl

theorem pulseToAxis_minUs : pulseToAxis P P.minUs = 0xBF800000 := by
  obtain ⟨-, -, ⟨hmin, -⟩, -⟩ := hv
  rw [pulseToAxis, if_pos hmin.le, min_self, rn32_self true (Nat.sub_pos_of_lt hmin)]
  rfl

theorem pulseToAxis_maxUs : pulseToAxis P P.maxUs = 0x3F800000 := by
  obtain ⟨-, -, ⟨-, hmax, -⟩, -⟩ := hv
  rw [pulseToAxis, if_neg hmax.not_ge, min_self, rn32_self false (Nat.sub_pos_of_lt hmax)]
  rfl

/-- Rule R125: the axis of a width lies between those of the ends. -/
theorem pulseToAxis_mem_unit (w : Nat) : -1 ≤ f32ToRat (pulseToAxis P w) ∧ f32ToRat (pulseToAxis P w) ≤ 1 := by
  obtain ⟨-, -, ⟨hmin, hmax, -⟩, -⟩ := id hv
  have hminus : f32ToRat 0xBF800000 = -1 := by decide +kernel
  have hplus : f32ToRat 0x3F800000 = 1 := by decide +kernel
  obtain ⟨hlo, hhi⟩ := clampNat_bounds (q := w) (hmin.trans hmax).le
  rw [← pulseToAxis_clampNat hv w, ← hminus, ← hplus, ← pulseToAxis_minUs hv, ← pulseToAxis_maxUs hv]
  exact ⟨pulseToAxis_monotone hv hlo, pulseToAxis_monotone hv hhi⟩

end

end Sys2Proof.Machine

namespace Sys2Proof.Proofs

open Sys2Proof Sys2Proof.Machine

/-- Settles O19: PulseToAxis rounds the magnitude of the ratio, limited to 1, with the sign of its side. -/
theorem pulseToAxisRoundsTheExactRatio : Obligations.PulseToAxisRoundsTheExactRatio :=
  fun _ w hv => ⟨nearestEven_pulseToAxis hv w, pulseToAxis_neutralUs⟩

/-- Settles O20: the order and the range follow from the rounding to nearest and from the values at the ends. -/
theorem pulseToAxisIsMonotonicOntoUnitRange : Obligations.PulseToAxisIsMonotonicOntoUnitRange := by
  refine fun P hv => ⟨fun w => ?_, fun _ _ hwv => pulseToAxis_monotone hv hwv, pulseToAxis_neutralUs,
    pulseToAxis_minUs hv, pulseToAxis_maxUs hv⟩
  obtain ⟨hlo, hhi⟩ := pulseToAxis_mem_unit hv w
  exact ⟨hlo, hhi, (nearestEven_pulseToAxis hv w).1⟩

end Sys2Proof.Proofs
end

section
/-!
PROOFS. The CRC tells apart any two byte sequences that differ in one byte (spec/30_encoding.md rule R87, spec/41_command_link.md rule
R158): O35.
-/

namespace Sys2Proof.Machine

/-- A shift to the left loses the highest bit only. -/
theorem eq_of_shiftLeft_one_of_msb {x y : Word16} (hshift : x <<< 1 = y <<< 1) (hmsb : x.msb = y.msb) : x = y := by
  rw [← BitVec.toNat_inj, BitVec.toNat_shiftLeft, BitVec.toNat_shiftLeft] at hshift
  rw [BitVec.msb_eq_decide, BitVec.msb_eq_decide, decide_eq_decide] at hmsb
  apply BitVec.eq_of_toNat_eq
  omega

/-- With an odd polynomial the bit shifted out stands in bit 0 afterwards, so a shift can be undone (rule R87). -/
theorem crcShift_injective {poly : Word16} (hodd : poly.getLsbD 0 = true) : Function.Injective (crcShift poly) := by
  have hbit (x : Word16) : (crcShift poly x).getLsbD 0 = x.msb := by
    unfold crcShift
    split_ifs with hx <;> simp [hx, hodd]
  intro x y h
  have hmsb : x.msb = y.msb := by rw [← hbit x, h, hbit y]
  refine eq_of_shiftLeft_one_of_msb ?_ hmsb
  unfold crcShift at h
  rw [hmsb] at h
  split_ifs at h
  · exact (BitVec.xor_left_inj _).mp h
  · exact h

/-- A byte enters the high half of the register with all its bits. -/
theorem highByte_injective : Function.Injective fun b : Byte => b.setWidth 16 <<< 8 := by
  intro a b h
  simp only [← BitVec.toNat_inj, BitVec.toNat_shiftLeft, BitVec.toNat_setWidth] at h
  apply BitVec.eq_of_toNat_eq
  omega

section
variable {P : Params} (hodd : P.crcPoly.getLsbD 0 = true)
include hodd

/-- Registers that differ before a byte differ after it. -/
theorem crcByte_injective_register (b : Byte) : Function.Injective fun crc => crcByte P crc b :=
  ((crcShift_injective hodd).iterate 8).comp fun _ _ h => (BitVec.xor_left_inj _).mp h

/-- From one register, bytes that differ leave registers that differ. -/
theorem crcByte_injective_byte (crc : Word16) : Function.Injective (crcByte P crc) := by
  have hin : Function.Injective fun b : Byte => if P.crcRefIn then b.reverse else b := by
    cases P.crcRefIn
    · exact Function.injective_id
    · exact Function.LeftInverse.injective fun _ => BitVec.reverse_reverse_eq
  exact ((crcShift_injective hodd).iterate 8).comp fun _ _ h => hin (highByte_injective ((BitVec.xor_right_inj _).mp h))

/-- Registers that differ before a byte sequence differ after it. -/
theorem foldl_crcByte_injective (data : List Byte) : Function.Injective fun crc => data.foldl (crcByte P) crc := by
  induction data with
  | nil => exact Function.injective_id
  | cons b data ih => exact ih.comp (crcByte_injective_register hodd b)

/-- One changed byte changes the CRC, whatever the initial value, the reflections and the final mask are. -/
theorem crc16_ne_of_byte_ne (before after : List Byte) {a b : Byte} (hab : a ≠ b) :
    crc16 P (before ++ a :: after) ≠ crc16 P (before ++ b :: after) := by
  have hout : Function.Injective fun crc : Word16 => (if P.crcRefOut then crc.reverse else crc) ^^^ P.crcXorOut := by
    intro x y h
    have h := (BitVec.xor_left_inj _).mp h
    split_ifs at h
    · exact Function.LeftInverse.injective (fun _ => BitVec.reverse_reverse_eq) h
    · exact h
  intro h
  have hreg := hout h
  rw [List.foldl_append, List.foldl_append] at hreg
  exact hab (crcByte_injective_byte hodd _ (foldl_crcByte_injective hodd after hreg))

end

end Sys2Proof.Machine

namespace Sys2Proof.Proofs

open Sys2Proof Sys2Proof.Machine

/-- Settles O35: the polynomial 0x1021 is odd, so no later byte brings two registers together again. -/
theorem crcDetectsEveryChangedByte : Obligations.CrcDetectsEveryChangedByte :=
  fun before after _ _ hab => crc16_ne_of_byte_ne (P := Params.default) rfl before after hab

end Sys2Proof.Proofs
end

section
/-!
PROOFS. The parser of CL.POLL pass by pass (spec/41_command_link.md rules R156 to R162), and the operations of CommandLink (rules R152,
R165, R168, R172): O26 to O33, O38 to O40.
-/

namespace Sys2Proof.Machine

/-! ### What one pass of the parser finds -/

/-- Where the tests of rule R156 run out of bytes, the buffer is what rule R161 leaves after a None result. -/
theorem waitsForMore_iff (P : Params) (B : List Byte) :
    WaitsForMore P B ↔
      (B.length < 1 ∨ byteAt B 0 = P.preamble0 ∧ (B.length < 2 ∨ byteAt B 1 = P.preamble1 ∧ (B.length < 6 ∨
        (word16At B 4).toNat ≤ P.maxPayloadLen ∧ B.length < 8 + (word16At B 4).toNat))) := by
  constructor
  · rintro ⟨h0, h1, hlength⟩
    refine (Nat.lt_or_ge B.length 1).imp_right fun hlen => ⟨h0 hlen, ?_⟩
    refine (Nat.lt_or_ge B.length 2).imp_right fun hlen => ⟨h1 hlen, ?_⟩
    exact (Nat.lt_or_ge B.length 6).imp_right hlength
  · rintro (hlen | ⟨h0, hlen | ⟨h1, hlen | hlength⟩⟩)
    · exact ⟨by omega, by omega, by omega⟩
    · exact ⟨fun _ => h0, by omega, by omega⟩
    · exact ⟨fun _ => h0, fun _ => h1, by omega⟩
    · exact ⟨fun _ => h0, fun _ => h1, fun _ => hlength⟩

/-- A pass waits exactly on what may still become a frame (rules R156, R161). -/
theorem scan_eq_wait_iff (P : Params) (B : List Byte) : scan P B = .wait ↔ WaitsForMore P B := by
  rcases scan_cases P B with ⟨he, hwait⟩ | ⟨he, hmis⟩ | ⟨L, ⟨h6, -, -, rfl⟩, hcase⟩
  · exact iff_of_true he ((waitsForMore_iff P B).mpr hwait)
  · rw [he]
    refine iff_of_false nofun fun ⟨h0, h1, _⟩ => ?_
    rcases hmis with ⟨hlen, h⟩ | ⟨hlen, -, h⟩
    · exact h (h0 hlen)
    · exact h (h1 hlen)
  · refine iff_of_false ?_ fun ⟨_, _, hlength⟩ => ?_
    · rcases hcase with ⟨he, -⟩ | ⟨he, -⟩ | ⟨he, -⟩ | ⟨he, -⟩ <;> rw [he] <;> nofun
    · have := hlength h6
      rcases hcase with ⟨-, h⟩ | ⟨-, -, h, -⟩ | ⟨-, ⟨-, -, h, -⟩, -⟩ | ⟨-, ⟨-, -, h, -⟩, -⟩ <;> omega

theorem scan_of_preamble0_ne {P : Params} {B : List Byte} (hlen : 1 ≤ B.length) (h : byteAt B 0 ≠ P.preamble0) :
    scan P B = .mismatch := by
  rw [scan, if_neg (Nat.not_lt.mpr hlen), if_pos h]

theorem scan_of_preamble1_ne {P : Params} {B : List Byte} (hlen : 2 ≤ B.length) (h0 : byteAt B 0 = P.preamble0)
    (h : byteAt B 1 ≠ P.preamble1) : scan P B = .mismatch := by
  rw [scan, if_neg (by omega), if_neg (not_not.mpr h0), if_neg (by omega), if_pos h]

/-- Behind a complete header the pass depends on the declared length, the CRC and the fields alone. -/
theorem scan_of_header {P : Params} {B : List Byte} {L : Nat} (hh : HeaderAt P B L) :
    scan P B =
      if P.maxPayloadLen < L then .oversize
      else if B.length < 8 + L then .wait
      else if word16At B (6 + L) ≠ crc16 P (slice B 2 (4 + L)) then .badCrc
      else if byteAt B 2 = P.protoVersion ∧ knownType P (byteAt B 3) ∧ typeLenOk P (byteAt B 3) L then
        .exposed (8 + L) ⟨byteAt B 3, slice B 6 L⟩
      else .unusable (8 + L) := by
  obtain ⟨h6, h0, h1, rfl⟩ := hh
  rw [scan, if_neg (by omega), if_neg (not_not.mpr h0), if_neg (by omega), if_neg (not_not.mpr h1), if_neg (by omega)]

theorem scan_of_oversize {P : Params} {B : List Byte} {L : Nat} (hh : HeaderAt P B L) (hmax : P.maxPayloadLen < L) :
    scan P B = .oversize := by
  rw [scan_of_header hh, if_pos hmax]

theorem scan_of_crc_ne {P : Params} {B : List Byte} {L : Nat} (hh : HeaderAt P B L) (hmax : L ≤ P.maxPayloadLen)
    (hlen : 8 + L ≤ B.length) (hcrc : word16At B (6 + L) ≠ crc16 P (slice B 2 (4 + L))) : scan P B = .badCrc := by
  rw [scan_of_header hh, if_neg (Nat.not_lt.mpr hmax), if_neg (Nat.not_lt.mpr hlen), if_pos hcrc]

theorem scan_of_not_usable {P : Params} {B : List Byte} {L : Nat} (hc : CandidateAt P B L) (hu : ¬ UsableAt P B L) :
    scan P B = .unusable (8 + L) := by
  obtain ⟨hh, hmax, hlen, hcrc⟩ := hc
  rw [scan_of_header hh, if_neg (Nat.not_lt.mpr hmax), if_neg (Nat.not_lt.mpr hlen), if_neg (not_not.mpr hcrc)]
  exact if_neg hu

/-- A frame is exposed from a usable candidate only (rules R158 to R160). -/
theorem usable_of_scan_exposed {P : Params} {B : List Byte} {n : Nat} {f : Frame} (h : scan P B = .exposed n f) :
    ∃ L, n = 8 + L ∧ f = ⟨byteAt B 3, slice B 6 L⟩ ∧ CandidateAt P B L ∧ UsableAt P B L := by
  rcases scan_cases P B with ⟨he, -⟩ | ⟨he, -⟩ | ⟨L, -, ⟨he, -⟩ | ⟨he, -⟩ | ⟨he, -⟩ | ⟨he, hc, hu⟩⟩ <;>
    cases he.symm.trans h
  exact ⟨L, rfl, rfl, hc, hu⟩

/-- Version, type and per-type length written out (rules R83, R90, R92, R159). -/
theorem usableAt_iff (P : Params) (B : List Byte) (L : Nat) :
    UsableAt P B L ↔
      byteAt B 2 = P.protoVersion ∧ byteAt B 3 ∈ [P.mtCommand, P.mtTelem, P.mtPing, P.mtPong] ∧
        (byteAt B 3 = P.mtCommand → L = 8) ∧ (byteAt B 3 = P.mtTelem → L = 22 + P.telemStatusBytes) := by
  rw [UsableAt, knownType_iff, typeLenOk_iff]

/-! ### A call of the parser -/

/-- What CL.POLL leaves of the state and returns, given what the parser leaves and returns. -/
def polled (s : State) (r : Polled) : State := ((s.setRx r.buf).setCnt r.cnt).ret (.frame r.frame)

theorem exec_clPoll {s : State} {r : Polled} (h : poll s.params s.rxBuf s.cnt = r) :
    exec .clPoll s = .next (polled s r) :=
  congrArg (fun r => Host.Outcome.next (polled s r)) h

/-- CL.POLL answers alike where the parser does: it reads nothing else of the buffer and the counters. -/
theorem exec_clPoll_continues {s : State} {B : List Byte} {c : Counters}
    (h : poll s.params s.rxBuf s.cnt = poll s.params B c) :
    exec .clPoll s = exec .clPoll ((s.setRx B).setCnt c) :=
  exec_clPoll h

@[simp] theorem Counters.countOk_countOk (P : Params) (c : Counters) :
    (c.countOk P).countOk P = { c with ok := (c.ok + 2) % 2 ^ P.cntBits } := by
  simp [Counters.countOk, bump, Params.cntMod]

/-- A call counts a frame exactly when it returns one (rule R160). -/
theorem poll_cnt_ok (P : Params) (B : List Byte) (c : Counters) :
    (poll P B c).cnt.ok = if (poll P B c).frame.isSome = true then bump P c.ok else c.ok := by
  refine poll_induction (P := P) (motive := fun _ c r => r.cnt.ok = if r.frame.isSome = true then bump P c.ok else c.ok)
    ?wait ?mismatch ?oversize ?badCrc ?unusable ?exposed B c
  case wait | exposed => intros; rfl
  case mismatch | oversize | badCrc => exact fun _ _ _ ih => ih
  case unusable => exact fun _ _ _ _ ih => ih

/-- After a None result the last pass waited (rule R161). -/
theorem waitsForMore_of_poll_none (P : Params) (B : List Byte) (c : Counters) (h : (poll P B c).frame = none) :
    WaitsForMore P (poll P B c).buf := by
  refine poll_induction (P := P) (motive := fun _ _ r => r.frame = none → WaitsForMore P r.buf)
    ?wait ?mismatch ?oversize ?badCrc ?unusable ?exposed B c h
  case wait => exact fun B _ hs _ => (scan_eq_wait_iff P B).mp hs
  case mismatch | oversize | badCrc => exact fun _ _ _ ih => ih
  case unusable => exact fun _ _ _ _ ih => ih
  case exposed => exact fun _ _ _ _ _ => nofun

/-- The beginning of a possible frame is shorter than the largest frame. -/
theorem WaitsForMore.length_lt {P : Params} {B : List Byte} (h : WaitsForMore P B) : B.length < P.maxPayloadLen + 8 := by
  obtain ⟨-, -, hlength⟩ := h
  omega

/-! ### The frame a call returns -/

section
variable {A : List Byte} (R : List Byte)

theorem word16At_append_left {i : Nat} (h : i + 1 < A.length) : word16At (A ++ R) i = word16At A i := by
  rw [word16At, word16At, byteAt_append_left (by omega), byteAt_append_left h]

theorem slice_append_left {i n : Nat} (h : i + n ≤ A.length) : slice (A ++ R) i n = slice A i n := by
  rw [slice, slice, List.drop_append_of_le_length (by omega),
    List.take_append_of_le_length (by rw [List.length_drop]; omega)]

/-- The checks of a candidate read its own bytes only. -/
theorem candidateAt_append {P : Params} {L : Nat} (hlen : 8 + L ≤ A.length) :
    CandidateAt P (A ++ R) L ↔ CandidateAt P A L := by
  have h6 : 6 ≤ A.length := by omega
  simp only [CandidateAt, HeaderAt, byteAt_append_left (A := A) (B := R) (show 0 < A.length by omega),
    byteAt_append_left (A := A) (B := R) (show 1 < A.length by omega),
    word16At_append_left R (show 4 + 1 < A.length by omega),
    word16At_append_left R (show 6 + L + 1 < A.length by omega),
    slice_append_left R (show 2 + (4 + L) ≤ A.length by omega), List.length_append, hlen, h6,
    Nat.le_add_right_of_le hlen, Nat.le_add_right_of_le h6]

theorem usableAt_append {P : Params} {L : Nat} (hlen : 4 ≤ A.length) : UsableAt P (A ++ R) L ↔ UsableAt P A L := by
  rw [UsableAt, UsableAt, byteAt_append_left (i := 2) (by omega), byteAt_append_left (i := 3) (by omega)]

end

/-- `f` stood in `B` as a whole accepted frame in front of what is left, `rest` (rules R96, R160). -/
def StoodWhole (P : Params) (B rest : List Byte) (f : Frame) : Prop :=
  ∃ before frame : List Byte, B = before ++ frame ++ rest ∧ frameAccepted P frame = true ∧
    f.type = byteAt frame 3 ∧ f.payload = slice frame 6 (frame.length - 8)

/-- Bytes dropped earlier stood in front. -/
theorem StoodWhole.of_drop {P : Params} {B rest : List Byte} {f : Frame} {n : Nat} (h : StoodWhole P (B.drop n) rest f) :
    StoodWhole P B rest f := by
  obtain ⟨before, frame, hB, hframe⟩ := h
  refine ⟨B.take n ++ before, frame, ?_, hframe⟩
  rw [List.append_assoc, List.append_assoc, ← List.append_assoc before, ← hB, List.take_append_drop]

/-- An exposed frame stood at the head of the buffer. -/
theorem stoodWhole_of_scan_exposed {P : Params} {B : List Byte} {n : Nat} {f : Frame} (h : scan P B = .exposed n f) :
    StoodWhole P B (B.drop n) f := by
  obtain ⟨L, rfl, rfl, hc, hu⟩ := usable_of_scan_exposed h
  obtain ⟨A, R, rfl, hlen⟩ : ∃ A R, B = A ++ R ∧ A.length = 8 + L :=
    ⟨B.take (8 + L), B.drop (8 + L), (List.take_append_drop _ _).symm, List.length_take_of_le hc.2.2.1⟩
  have hwhole : frameAccepted P A = true :=
    (frameAccepted_iff P A).mpr ⟨L, (candidateAt_append R hlen.ge).mp hc, (usableAt_append R (by omega)).mp hu, hlen⟩
  refine ⟨[], A, by rw [List.drop_left' hlen]; rfl, hwhole, byteAt_append_left (by omega), ?_⟩
  rw [hlen, Nat.add_sub_cancel_left]
  exact slice_append_left R (by omega)

theorem stoodWhole_of_poll_some {P : Params} {B : List Byte} {c : Counters} {f : Frame}
    (h : (poll P B c).frame = some f) : StoodWhole P B (poll P B c).buf f := by
  refine poll_induction (P := P) (motive := fun B _ r => r.frame = some f → StoodWhole P B r.buf f)
    ?wait ?mismatch ?oversize ?badCrc ?unusable ?exposed B c h
  case wait => exact fun _ _ _ => nofun
  case mismatch | oversize | badCrc => exact fun _ _ _ ih hf => (ih hf).of_drop
  case unusable => exact fun _ _ _ _ ih hf => (ih hf).of_drop
  case exposed => rintro B _ n _ hs ⟨⟩; exact stoodWhole_of_scan_exposed hs

/-! ### Encoded frames and garbage in front of them -/

/-- A sendable frame alone in the buffer is returned and leaves it empty. -/
theorem poll_encodeFrame {P : Params} {t : Byte} {p : List Byte} (hv : P.Valid) (hs : Sendable P t p) (c : Counters) :
    poll P (encodeFrame P t p) c = ⟨[], c.countOk P, some ⟨t, p⟩⟩ := by
  simpa only [List.append_nil] using poll_encodeFrame_append hv hs [] c

/-- Bytes that are no first preamble byte are dropped one by one and nothing is counted (rules R156, R162). -/
theorem poll_garbage_append {P : Params} {garbage : List Byte} (hg : ∀ b ∈ garbage, b ≠ P.preamble0) (B : List Byte)
    (c : Counters) : poll P (garbage ++ B) c = poll P B c := by
  induction garbage with
  | nil => rfl
  | cons b garbage ih =>
    rw [List.forall_mem_cons] at hg
    have hscan : scan P (b :: garbage ++ B) = .mismatch := scan_of_preamble0_ne (Nat.succ_pos _) hg.1
    rw [poll_eq, hscan]
    exact ih hg.2

/-! ### Bytes in, frames and bytes out -/

/-- Rule R152, with room. -/
theorem exec_clRxByte_of_room {s : State} (h : s.rxBuf.length < s.params.rxBufCap) (b : Byte) :
    exec (.clRxByte b) s = .next ((s.setRx (s.rxBuf ++ [b])).ret .noResult) :=
  congrArg (fun t : State => Host.Outcome.next (t.ret .noResult)) (if_pos h)

/-- Rule R152, with no room. -/
theorem exec_clRxByte_of_full {s : State} (h : s.params.rxBufCap ≤ s.rxBuf.length) (b : Byte) :
    exec (.clRxByte b) s = .next ((s.setCnt (s.cnt.countOverrun s.params)).ret .noResult) :=
  congrArg (fun t : State => Host.Outcome.next (t.ret .noResult)) (if_neg (Nat.not_lt.mpr h))

/-- Received bytes that fit are appended in order. -/
theorem execAll_rxBytesOps {s : State} {bs : List Byte} (h : s.rxBuf.length + bs.length ≤ s.params.rxBufCap) :
    ∃ r, execAll (rxBytesOps bs) s = .next ((s.setRx (s.rxBuf ++ bs)).ret r) := by
  induction bs generalizing s with
  | nil => exact ⟨s.result, by rw [List.append_nil]; rfl⟩
  | cons b bs ih =>
    rw [List.length_cons] at h
    obtain ⟨r, hr⟩ := ih (s := (s.setRx (s.rxBuf ++ [b])).ret .noResult) (by simp; omega)
    refine ⟨r, (execAll_cons (exec_clRxByte_of_room (by omega) b) _).trans (hr.trans ?_)⟩
    simp [State.setRx, State.ret]

/-- Rule R168, an empty queue. -/
theorem exec_clTxByte_of_nil {s : State} (h : s.txFifo = []) : exec .clTxByte s = .next (s.ret .noResult) := by
  change execClTxByte s = _
  rw [execClTxByte, h]

/-- Rule R168, a byte to send. -/
theorem exec_clTxByte_of_cons {s : State} {b : Byte} {rest : List Byte} (h : s.txFifo = b :: rest) :
    exec .clTxByte s = .next (((s.setTx rest).emit b).ret .noResult) := by
  change execClTxByte s = _
  rw [execClTxByte, h]

/-- Draining puts the whole queue on the line in order and changes nothing else. -/
theorem execAll_drainOps (s : State) :
    ∃ r, execAll (drainOps s) s =
      .next { s with txFifo := [], txLine := s.txLine ++ s.txFifo, result := r } := by
  unfold drainOps
  induction hfifo : s.txFifo generalizing s with
  | nil =>
    have hs : s = { s with txFifo := [] } := by rw [← hfifo]
    exact ⟨s.result, by rw [List.append_nil]; exact congrArg Host.Outcome.next hs⟩
  | cons b rest ih =>
    obtain ⟨r, hr⟩ := ih (((s.setTx rest).emit b).ret .noResult) rfl
    refine ⟨r, (execAll_cons (exec_clTxByte_of_cons hfifo) _).trans (hr.trans ?_)⟩
    simp [State.setTx, State.emit, State.ret]

/-- The checks of CL.SEND written out, in their order (rule R165). -/
theorem sendStatus_eq (P : Params) (queued : Nat) (t : Byte) (n : Nat) :
    sendStatus P queued t n =
      if t ∉ [P.mtCommand, P.mtTelem, P.mtPing, P.mtPong] then .badType
      else if P.maxPayloadLen < n then .tooLong
      else if t = P.mtCommand ∧ n ≠ 8 ∨ t = P.mtTelem ∧ n ≠ 22 + P.telemStatusBytes then .badLen
      else if P.txFifoCap < queued + 8 + n then .txFull
      else .ok := by
  have hfit : t = P.mtCommand ∧ n ≠ 8 ∨ t = P.mtTelem ∧ n ≠ 22 + P.telemStatusBytes ↔ typeLenOk P t n = false := by
    rw [← Bool.not_eq_true, typeLenOk_iff, not_and_or, Classical.not_imp, Classical.not_imp]
  simp only [sendStatus, ← knownType_iff, hfit, Bool.not_eq_true, Bool.not_eq_true']

theorem exec_clSend_of_ok {s : State} {t : Byte} {p : List Byte}
    (h : sendStatus s.params s.txFifo.length t p.length = .ok) :
    exec (.clSend t p) s = .next ((s.setTx (s.txFifo ++ encodeFrame s.params t p)).ret (.status .ok)) := by
  change execClSend t p s = _
  rw [execClSend, h]

theorem exec_clSend_of_ne_ok {s : State} {t : Byte} {p : List Byte} {c : Status}
    (h : sendStatus s.params s.txFifo.length t p.length = c) (hc : c ≠ .ok) :
    exec (.clSend t p) s = .next (s.ret (.status c)) := by
  change execClSend t p s = _
  unfold execClSend
  split
  · next hok => exact absurd (h.symm.trans hok) hc
  · rw [h]

end Sys2Proof.Machine

namespace Sys2Proof.Proofs

open Sys2Proof Sys2Proof.Machine

/-- Settles O26, by whether the buffer has room. -/
theorem receivedByteIsKeptOrCounted : Obligations.ReceivedByteIsKeptOrCounted :=
  fun b _ => ⟨fun h => exec_clRxByte_of_room h b, fun h => exec_clRxByte_of_full h b⟩

/-- Settles O27: each hypothesis decides what one pass finds, and the parser is that pass and then a call again. -/
theorem pollFollowsTheParserLoop : Obligations.PollFollowsTheParserLoop := by
  intro s L hL
  have hpass := poll_eq s.params s.rxBuf s.cnt
  refine ⟨fun hwait => ?_, fun hmis => ?_, fun h6 h0 h1 => ?_⟩
  · rw [hL] at hwait
    rw [(scan_eq_wait_iff _ _).mpr ((waitsForMore_iff _ _).mpr hwait)] at hpass
    exact exec_clPoll hpass
  · have hscan : scan s.params s.rxBuf = .mismatch := by
      rcases hmis with ⟨hlen, h⟩ | ⟨hlen, h0, h⟩
      · exact scan_of_preamble0_ne hlen h
      · exact scan_of_preamble1_ne hlen h0 h
    rw [hscan] at hpass
    exact exec_clPoll_continues hpass
  have hh : HeaderAt s.params s.rxBuf L := ⟨h6, h0, h1, hL.symm⟩
  refine ⟨fun hmax => ?_, fun hmax hlen => ⟨fun hcrc => ?_, fun hcrc => ?_⟩⟩
  · rw [scan_of_oversize hh hmax] at hpass
    exact exec_clPoll_continues hpass
  · rw [scan_of_crc_ne hh hmax hlen hcrc] at hpass
    exact exec_clPoll_continues hpass
  have hc : CandidateAt s.params s.rxBuf L := ⟨hh, hmax, hlen, hcrc⟩
  refine ⟨fun hun => ?_, fun hu => ?_⟩
  · have hun : ¬ UsableAt s.params s.rxBuf L := by
      rw [usableAt_iff]
      tauto
    rw [scan_of_not_usable hc hun] at hpass
    exact exec_clPoll_continues hpass
  · rw [scan_of_usable hc ((usableAt_iff _ _ _).mpr hu)] at hpass
    exact exec_clPoll hpass

/-- Settles O28, by induction over the passes. -/
theorem pollWritesOnlyBufferAndCounters : Obligations.PollWritesOnlyBufferAndCounters := by
  intro s
  obtain ⟨hsuffix, hoverrun⟩ := poll_suffix s.params s.rxBuf s.cnt
  exact ⟨_, _, exec_clPoll rfl, rfl, hsuffix, hoverrun, poll_cnt_ok s.params s.rxBuf s.cnt, rfl⟩

/-- Settles O29: the last pass found the frame at the head, behind what the earlier passes dropped. -/
theorem pollExposesOnlyAcceptedFrames : Obligations.PollExposesOnlyAcceptedFrames := by
  rintro s _ f - ⟨⟩ hresult
  exact stoodWhole_of_poll_some (Result.frame.inj hresult)

/-- Settles O30: the last pass waited, and a buffer it waits on is shorter than the largest frame. -/
theorem pollNoneLeavesPrefixOfAFrame : Obligations.PollNoneLeavesPrefixOfAFrame := by
  rintro s _ ⟨-, -, -, -, -, -, hcap, -⟩ ⟨⟩ hresult
  have hwait := waitsForMore_of_poll_none _ _ _ (Result.frame.inj hresult)
  exact ⟨hwait, hwait.length_lt, hwait.length_lt.trans_le hcap⟩

/-- Settles O31: every status but ST_OK is returned with nothing changed. -/
theorem sendQueuesWholeFrameOrNothing : Obligations.SendQueuesWholeFrameOrNothing := by
  intro t p s
  have hstatus := sendStatus_eq s.params s.txFifo.length t p.length
  split_ifs at hstatus ⊢
  · exact exec_clSend_of_ne_ok hstatus nofun
  · exact exec_clSend_of_ne_ok hstatus nofun
  · exact exec_clSend_of_ne_ok hstatus nofun
  · exact exec_clSend_of_ok hstatus
  · exact exec_clSend_of_ne_ok hstatus nofun

/-- Settles O32, by whether the queue is empty. -/
theorem transmitTakesHeadByte : Obligations.TransmitTakesHeadByte :=
  fun _ => ⟨exec_clTxByte_of_nil, fun _ _ => exec_clTxByte_of_cons⟩

/-- Settles O33: the counters returned are those of the state. -/
theorem statsReturnsTheFiveCounters : Obligations.StatsReturnsTheFiveCounters :=
  fun s => ⟨s.cnt, rfl, rfl, rfl, rfl, rfl, rfl⟩

/-- Settles O38: the first pass exposes the frame. -/
theorem pollReturnsEncodedFrame : Obligations.PollReturnsEncodedFrame := by
  intro s t p rest hv hs hbuf
  have hpoll := poll_encodeFrame_append hv hs rest s.cnt
  rw [← hbuf] at hpoll
  exact exec_clPoll hpoll

/-- Settles O39: the queue and the line carry the encoded frame, which fits the empty buffer and is exposed there. -/
theorem sentFrameArrivesUnchanged : Obligations.SentFrameArrivesUnchanged := by
  intro s t p hv hs htx hrx
  obtain ⟨-, -, -, -, -, -, hrxCap, htxCap, -⟩ := id hv
  obtain ⟨hknown, hmax, hfit⟩ := id hs
  have hlen : (encodeFrame s.params t p).length = 8 + p.length := Laws.Encoding.frameBytes_length _ _ _ _
  have hok : sendStatus s.params s.txFifo.length t p.length = .ok :=
    (sendStatus_ok_iff _ _ _ _).mpr ⟨hknown, hmax, hfit, by rw [htx, List.length_nil]; omega⟩
  have hfits : s.rxBuf.length + (encodeFrame s.params t p).length ≤ s.params.rxBufCap := by
    rw [hrx, hlen, List.length_nil]
    omega
  have hsend := exec_clSend_of_ok hok
  rw [htx, List.nil_append] at hsend
  obtain ⟨r, hdrain⟩ := execAll_drainOps ((s.setTx (encodeFrame s.params t p)).ret (.status .ok))
  obtain ⟨r', hreceive⟩ := execAll_rxBytesOps (bs := encodeFrame s.params t p)
    (s := { s with txFifo := [], txLine := s.txLine ++ encodeFrame s.params t p, result := r }) hfits
  have hpoll : poll s.params (s.rxBuf ++ encodeFrame s.params t p) s.cnt = ⟨[], s.cnt.countOk s.params, some ⟨t, p⟩⟩ := by
    rw [hrx, List.nil_append, poll_encodeFrame hv hs]
  exact ⟨_, _, _, _, hsend, hdrain, rfl, rfl, hreceive, exec_clPoll hpoll, rfl, rfl⟩

/-- Settles O40: each call returns the frame that stands first once the garbage is dropped. -/
theorem parserResynchronisesAcrossGarbage : Obligations.ParserResynchronisesAcrossGarbage := by
  intro s t u p q garbage hv hs hs' hg hbuf
  have hfirst : poll s.params s.rxBuf s.cnt =
      ⟨garbage ++ encodeFrame s.params u q, s.cnt.countOk s.params, some ⟨t, p⟩⟩ := by
    rw [hbuf, List.append_assoc, poll_encodeFrame_append hv hs]
  have hsecond (c : Counters) : poll s.params (garbage ++ encodeFrame s.params u q) c =
      ⟨[], c.countOk s.params, some ⟨u, q⟩⟩ := by
    rw [poll_garbage_append hg, poll_encodeFrame hv hs']
  exact ⟨_, _, exec_clPoll hfirst, exec_clPoll (hsecond _), rfl, rfl, rfl, Counters.countOk_countOk _ _⟩

end Sys2Proof.Proofs
end

section
/-!
PROOFS. The advance of the clock over period boundaries (spec/42_actuation_driver.md rule R205): O9, O10, O11.
-/

namespace Sys2Proof.Machine

/-! ### One pass -/

theorem exec_tAdv (d : Word32) (s : State) : exec (.tAdv d) s = .next ((advance s d.toNat).ret .noResult) := rfl

/-- A boundary is a whole period after the one before it (rule R205). -/
theorem now_crossBoundary {s : State} (hphase : phase s < s.params.pwmPeriodUs) :
    (crossBoundary s).now = (s.periodStart + s.params.pwmPeriodUs) % s.params.timeMod := by
  have hnow : (s.periodStart + phase s) % s.params.timeMod = s.now % s.params.timeMod := add_tsub_mod _ _ _
  calc (crossBoundary s).now = (s.now + toBoundary s) % s.params.timeMod := rfl
    _ = (s.periodStart + phase s + toBoundary s) % s.params.timeMod := by rw [Nat.add_mod, ← hnow, ← Nat.add_mod]
    _ = (s.periodStart + s.params.pwmPeriodUs) % s.params.timeMod := by rw [toBoundary]; congr 1; omega

/-- An advance is short, or crosses a boundary and goes on from there, at phase 0, with less time (rule R205). -/
theorem advance_induction_boundary {motive : Nat → State → Prop}
    (short : ∀ d s, (s.pwmEnabled = true → phase s < s.params.pwmPeriodUs) → s.pwmEnabled = false ∨ d < toBoundary s →
      motive d s)
    (boundary : ∀ d s, s.pwmEnabled = true → phase s < s.params.pwmPeriodUs → toBoundary s ≤ d →
      motive (d - toBoundary s) (crossBoundary s) → motive d s)
    {s : State} (hphase : s.pwmEnabled = true → phase s < s.params.pwmPeriodUs) (d : Nat) : motive d s := by
  induction d using Nat.strong_induction_on generalizing s with
  | _ d ih =>
    by_cases hshort : s.pwmEnabled = false ∨ d < toBoundary s
    · exact short d s hphase hshort
    · obtain ⟨hon, hreach⟩ : s.pwmEnabled = true ∧ toBoundary s ≤ d := by simpa using hshort
      have hlater : 0 < toBoundary s := Nat.sub_pos_of_lt (hphase hon)
      have hzero : phase (crossBoundary s) < (crossBoundary s).params.pwmPeriodUs := by
        rw [phase_crossBoundary]
        exact Nat.zero_lt_of_lt (hphase hon)
      exact boundary d s hon (hphase hon) hreach (ih _ (by omega) fun _ => hzero)

/-! ### All passes at once -/

/-- `s` with `n` periods started in it, all with the shadow widths, and `d` microseconds passed. -/
def afterPeriods (s : State) (n d : Nat) : State :=
  { s with
    now := (s.now + d) % s.params.timeMod
    periodStart := (s.periodStart + n * s.params.pwmPeriodUs) % s.params.timeMod
    pwActive := if n = 0 then s.pwActive else s.pwShadow
    pwmTrace := s.pwmTrace ++ (List.range n).map fun k =>
      ⟨(s.periodStart + (k + 1) * s.params.pwmPeriodUs) % s.params.timeMod, s.pwShadow.ch0, s.pwShadow.ch1⟩ }

theorem afterPeriods_zero {s : State} (hstart : s.periodStart < s.params.timeMod) (d : Nat) :
    afterPeriods s 0 d = addTime s d := by
  simp [afterPeriods, addTime, State.setNow, Nat.mod_eq_of_lt hstart]

/-- The first of the periods starts at the next boundary, the others follow from it. -/
theorem afterPeriods_succ {s : State} (hphase : phase s < s.params.pwmPeriodUs) {n d : Nat} (hd : toBoundary s ≤ d) :
    afterPeriods s (n + 1) d = afterPeriods (crossBoundary s) n (d - toBoundary s) := by
  have hnow : ((s.now + toBoundary s) % s.params.timeMod + (d - toBoundary s)) % s.params.timeMod =
      (s.now + d) % s.params.timeMod := by
    rw [Nat.mod_add_mod, Nat.add_assoc, Nat.add_sub_cancel' hd]
  have hfirst : (s.now + toBoundary s) % s.params.timeMod = _ := now_crossBoundary hphase
  have hperiods (k : Nat) : s.periodStart + s.params.pwmPeriodUs + k * s.params.pwmPeriodUs =
      s.periodStart + (k + 1) * s.params.pwmPeriodUs := by ring
  simp only [afterPeriods, crossBoundary, addTime, State.startPeriod, State.setNow, hnow]
  simp [hfirst, hperiods, List.range_succ_eq_map, Function.comp_def]

/-- Rule R205 in closed form. -/
theorem advance_eq_afterPeriods {s : State} (hon : s.pwmEnabled = true) (hstart : s.periodStart < s.params.timeMod)
    (hphase : phase s < s.params.pwmPeriodUs) (d : Nat) :
    advance s d = afterPeriods s ((phase s + d) / s.params.pwmPeriodUs) d := by
  refine advance_induction_boundary (motive := fun d s => s.pwmEnabled = true → s.periodStart < s.params.timeMod →
      advance s d = afterPeriods s ((phase s + d) / s.params.pwmPeriodUs) d)
    ?short ?boundary (fun _ => hphase) d hon hstart
  case short =>
    intro d s _ hshort hon hstart
    have hshort := hshort.resolve_left (by simp [hon])
    have hnone : (phase s + d) / s.params.pwmPeriodUs = 0 := Nat.div_eq_of_lt (by rw [toBoundary] at hshort; omega)
    rw [advance_short s d (.inr hshort), hnone, afterPeriods_zero hstart]
  case boundary =>
    intro d s hon hphase hreach ih _ _
    have hperiod := Nat.zero_lt_of_lt hphase
    have hcount : (phase s + d) / s.params.pwmPeriodUs = (d - toBoundary s) / s.params.pwmPeriodUs + 1 := by
      rw [toBoundary] at hreach ⊢
      rw [Nat.div_eq_sub_div hperiod (by omega)]
      congr 2
      omega
    rw [advance_boundary s d hperiod hon hreach, hcount, afterPeriods_succ hphase hreach,
      ih hon (Nat.mod_lt _ (timeMod_pos _)), phase_crossBoundary, Nat.zero_add, params_crossBoundary]

/-! ### Two advances -/

theorem runPeriods_ret (k r : Nat) (s : State) (x : Result) :
    runPeriods k r (s.ret x) = ((runPeriods k r s).1.ret x, (runPeriods k r s).2) := by
  induction k generalizing r s with
  | zero => rfl
  | succ k ih =>
    rw [runPeriods_succ, runPeriods_succ]
    by_cases hpass : s.pwmEnabled = true ∧ toBoundary s ≤ r
    · rw [if_pos hpass, if_pos (show (s.ret x).pwmEnabled = true ∧ toBoundary (s.ret x) ≤ r from hpass)]
      exact ih (r - toBoundary s) (crossBoundary s)
    · rw [if_neg hpass, if_neg (show ¬((s.ret x).pwmEnabled = true ∧ toBoundary (s.ret x) ≤ r) from hpass)]

/-- The result of the operation before plays no part in the advance. -/
theorem advance_ret (s : State) (x : Result) (d : Nat) : advance (s.ret x) d = (advance s d).ret x := by
  simp only [advance, State.ret_params, runPeriods_ret]
  rfl

theorem addTime_addTime (s : State) (a b : Nat) : addTime (addTime s a) b = addTime s (a + b) := by
  simp [addTime, Nat.add_assoc]

/-- With a period that fits the counter, a move of `now` below the boundary brings the boundary nearer (assumption 7). -/
theorem toBoundary_addTime {s : State} (hfits : s.params.pwmPeriodUs ≤ s.params.timeMod) {d : Nat} (hd : d < toBoundary s) :
    toBoundary (addTime s d) = toBoundary s - d := by
  have hphase : phase (addTime s d) = (phase s + d) % s.params.timeMod := tsub_add_mod _ _ _ _
  rw [toBoundary] at hd
  rw [toBoundary, toBoundary, params_addTime, hphase, Nat.mod_eq_of_lt (by omega), Nat.sub_add_eq]

/-- A boundary is the same instant from wherever before it the clock runs to it. -/
theorem crossBoundary_addTime {s : State} (hfits : s.params.pwmPeriodUs ≤ s.params.timeMod) {d : Nat}
    (hd : d < toBoundary s) : crossBoundary (addTime s d) = crossBoundary s := by
  have h := toBoundary_addTime hfits hd
  rw [crossBoundary, h, addTime_addTime, Nat.add_sub_cancel' hd.le]
  rfl

/-- Rule R205, corner case. -/
theorem advance_advance {s : State} (hfits : s.params.pwmPeriodUs ≤ s.params.timeMod)
    (hphase : s.pwmEnabled = true → phase s < s.params.pwmPeriodUs) (a b : Nat) :
    advance (advance s a) b = advance s (a + b) := by
  refine advance_induction_boundary (motive := fun a s => s.params.pwmPeriodUs ≤ s.params.timeMod →
      advance (advance s a) b = advance s (a + b)) ?short ?boundary hphase a hfits
  case short =>
    intro a s hphase hshort hfits
    rw [advance_short s a hshort]
    by_cases hon : s.pwmEnabled = false
    · rw [advance_short (addTime s a) b (.inl hon), advance_short s _ (.inl hon), addTime_addTime]
    have hon : s.pwmEnabled = true := by simpa using hon
    have hshort := hshort.resolve_left (by simp [hon])
    have hperiod := Nat.zero_lt_of_lt (hphase hon)
    have hnext := toBoundary_addTime hfits hshort
    rcases Nat.lt_or_ge (a + b) (toBoundary s) with hshort' | hreach
    · rw [advance_short (addTime s a) b (.inr (by omega)), advance_short s _ (.inr hshort'), addTime_addTime]
    · rw [advance_boundary (addTime s a) b hperiod hon (by omega), advance_boundary s _ hperiod hon hreach,
        crossBoundary_addTime hfits hshort, hnext]
      congr 1
      omega
  case boundary =>
    intro a s hon hphase hreach ih hfits
    have hperiod := Nat.zero_lt_of_lt hphase
    rw [advance_boundary s a hperiod hon hreach, advance_boundary s (a + b) hperiod hon (by omega), ih hfits]
    congr 1
    omega

end Sys2Proof.Machine

namespace Sys2Proof.Proofs

open Sys2Proof Sys2Proof.Machine

/-- Settles O9: the loop of the rule makes no pass, or its first pass crosses the boundary. -/
theorem advanceFollowsItsRule : Obligations.AdvanceFollowsItsRule := by
  intro s d
  refine ⟨fun hshort => ?_, ?_⟩
  · rw [exec_tAdv, advance_short s d.toNat hshort]
    rfl
  · rintro _ _ hon hphase rfl hreach rfl
    have hrest : (BitVec.ofNat 32 (d.toNat - toBoundary s)).toNat = d.toNat - toBoundary s :=
      Nat.mod_eq_of_lt ((Nat.sub_le _ _).trans_lt d.isLt)
    change exec (.tAdv d) s = exec (.tAdv (BitVec.ofNat 32 (d.toNat - toBoundary s))) (crossBoundary s)
    rw [exec_tAdv, exec_tAdv, advance_boundary s d.toNat (Nat.zero_lt_of_lt hphase) hon hreach, hrest]

/-- Settles O10, by induction over the boundaries passed. -/
theorem advanceStartsEveryPeriodPassed : Obligations.AdvanceStartsEveryPeriodPassed := by
  rintro s d _ hon - hstart hphase rfl
  rw [exec_tAdv, advance_eq_afterPeriods hon hstart hphase]
  rfl

/-- Settles O11: the first advance ends on the way to some boundary, and the second goes on to the same one. -/
theorem splitAdvanceEqualsWhole : Obligations.SplitAdvanceEqualsWhole := by
  rintro s _ a b - hfits hphase hsum ⟨⟩
  rw [exec_tAdv, exec_tAdv, advance_ret, State.ret_ret, advance_advance hfits hphase, BitVec.toNat_add,
    Nat.mod_eq_of_lt hsum]

end Sys2Proof.Proofs
end

section
/-!
PROOFS. AxisToPulse and the round trips (spec/42_actuation_driver.md rules R195, R197): O21 to O25.
-/

namespace Sys2Proof.Machine

/-! ### The mapping on exact values -/

/-- Rule R11: half a unit up, then down to the integer. -/
theorem roundHaz_eq_floor (n : Nat) {d : Nat} (hd : 0 < d) : roundHaz n d = ⌊(n : ℚ) / d + 1 / 2⌋₊ := by
  have hd' : (d : ℚ) ≠ 0 := by exact_mod_cast hd.ne'
  rw [roundHaz, ← Nat.floor_div_eq_div (K := ℚ)]
  congr 1
  push_cast
  field_simp

theorem f32Den_pos (a : F32) : 0 < f32Den a := by
  unfold f32Den
  split_ifs <;> positivity

theorem f32ToRat_nonneg {a : F32} (hneg : f32Neg a = false) : 0 ≤ f32ToRat a := by
  rw [f32ToRat, hneg, if_neg Bool.false_ne_true]
  positivity

theorem f32ToRat_nonpos {a : F32} (hneg : f32Neg a = true) : f32ToRat a ≤ 0 := by
  rw [f32ToRat, hneg, if_pos rfl, neg_nonpos]
  positivity

theorem abs_f32ToRat (a : F32) : |f32ToRat a| = (f32Num a : ℚ) / f32Den a := by
  have hmag : |(f32Num a : ℚ) / f32Den a| = f32Num a / f32Den a := abs_of_nonneg (by positivity)
  rw [f32ToRat]
  split_ifs
  · rw [abs_neg, hmag]
  · exact hmag

theorem f32ToRat_zero : f32ToRat 0x00000000 = 0 := by decide +kernel

theorem f32ToRat_neg_zero : f32ToRat 0x80000000 = 0 := by decide +kernel

theorem f32IsNaN_of_finite {a : F32} (h : f32Exp a < 255) : f32IsNaN a = false := by
  simp [f32IsNaN, h.ne]

/-- The span of the side of neutral that the axis lies on (rule R195). -/
def sideSpan (P : Params) (x : ℚ) : Nat := if 0 ≤ x then P.maxUs - P.neutralUs else P.neutralUs - P.minUs

/-- How far from neutral the pulse of an axis is: the magnitude, clamped, times the span, half a microsecond going outwards
(rule R195). -/
def pulseOffset (P : Params) (x : ℚ) : Nat := ⌊min |x| 1 * sideSpan P x + 1 / 2⌋₊

/-- AxisToPulse of an exact value (rule R195). -/
def pulseOfRat (P : Params) (x : ℚ) : Nat :=
  if 0 ≤ x then P.neutralUs + pulseOffset P x else P.neutralUs - pulseOffset P x

theorem roundHaz_clampedNum (a : F32) (span : Nat) :
    roundHaz (clampedNum a * span) (f32Den a) = ⌊min |f32ToRat a| 1 * span + 1 / 2⌋₊ := by
  have hd : (f32Den a : ℚ) ≠ 0 := by exact_mod_cast (f32Den_pos a).ne'
  have hclamp : (clampedNum a : ℚ) / f32Den a = min |f32ToRat a| 1 := by
    rw [abs_f32ToRat, clampedNum, Nat.cast_min, ← min_div_div_right (f32Den a).cast_nonneg, div_self hd]
  rw [roundHaz_eq_floor _ (f32Den_pos a), ← hclamp, Nat.cast_mul, mul_div_right_comm]

/-- At zero the side does not matter. -/
theorem mul_sideSpan_of_nonneg (P : Params) {x : ℚ} (h : 0 ≤ x) :
    x * sideSpan P x = x * (P.maxUs - P.neutralUs : Nat) := by
  rw [sideSpan, if_pos h]

theorem mul_sideSpan_of_nonpos (P : Params) {x : ℚ} (h : x ≤ 0) :
    x * sideSpan P x = x * (P.neutralUs - P.minUs : Nat) := by
  rcases h.eq_or_lt with rfl | hlt
  · simp
  · rw [sideSpan, if_neg hlt.not_ge]

theorem pulseOfRat_zero (P : Params) : pulseOfRat P 0 = P.neutralUs := by
  norm_num [pulseOfRat, pulseOffset]

/-- AxisToPulse takes its operand by value: the sign of a zero does not matter (rule R325). -/
theorem axisToPulse_eq (P : Params) {a : F32} (hnan : f32IsNaN a = false) :
    axisToPulse P a = pulseOfRat P (f32ToRat a) := by
  rw [axisToPulse, hnan, if_neg Bool.false_ne_true, roundHaz_clampedNum, roundHaz_clampedNum]
  cases hneg : f32Neg a with
  | false =>
    have hx := f32ToRat_nonneg hneg
    rw [pulseOfRat, pulseOffset, sideSpan, if_pos hx, if_pos hx, if_neg Bool.false_ne_true]
  | true =>
    rcases (f32ToRat_nonpos hneg).eq_or_lt with hzero | hlt
    · rw [hzero, pulseOfRat_zero]
      norm_num
    · rw [pulseOfRat, pulseOffset, sideSpan, if_neg hlt.not_ge, if_neg hlt.not_ge, if_pos rfl]

section
variable (P : Params) {x : ℚ}

/-! ### Range and order -/

theorem pulseOffset_le (x : ℚ) : pulseOffset P x ≤ sideSpan P x := by
  have hle : min |x| 1 * (sideSpan P x : ℚ) ≤ sideSpan P x :=
    mul_le_of_le_one_left (Nat.cast_nonneg _) (min_le_right _ _)
  rw [← Nat.lt_succ_iff, pulseOffset, Nat.floor_lt (by positivity)]
  push_cast
  linarith

/-- Beyond 1 the clamp gives the whole span (rule R195). -/
theorem pulseOffset_of_one_le (h : 1 ≤ |x|) : pulseOffset P x = sideSpan P x := by
  rw [pulseOffset, min_eq_right h, one_mul, Nat.floor_eq_iff (by positivity)]
  constructor <;> linarith

theorem pulseOffset_le_pulseOffset {y : ℚ} (hspan : sideSpan P x = sideSpan P y) (h : |x| ≤ |y|) :
    pulseOffset P x ≤ pulseOffset P y := by
  unfold pulseOffset
  rw [hspan]
  gcongr

/-- The offset grows with the magnitude on either side, and the sides meet at neutral (rule R197 (c)). -/
theorem pulseOfRat_monotone : Monotone (pulseOfRat P) := by
  intro x y hxy
  unfold pulseOfRat
  split_ifs with hx hy hy
  · have := pulseOffset_le_pulseOffset P (x := x) (y := y) (by rw [sideSpan, sideSpan, if_pos hx, if_pos hy])
      (abs_le_abs_of_nonneg hx hxy)
    omega
  · exact absurd (hx.trans hxy) hy
  · omega
  · have := pulseOffset_le_pulseOffset P (x := y) (y := x) (by rw [sideSpan, sideSpan, if_neg hx, if_neg hy])
      (abs_le_abs_of_nonpos (le_of_not_ge hy) hxy)
    omega

end

section
variable {P : Params} (hv : P.Valid)
include hv

theorem pulseOfRat_mem (x : ℚ) : P.minUs ≤ pulseOfRat P x ∧ pulseOfRat P x ≤ P.maxUs := by
  obtain ⟨-, -, ⟨hmin, hmax, -⟩, -⟩ := hv
  have hle := pulseOffset_le P x
  rw [sideSpan] at hle
  unfold pulseOfRat
  split_ifs at hle ⊢ <;> omega

theorem pulseOfRat_of_one_le {x : ℚ} (h : 1 ≤ x) : pulseOfRat P x = P.maxUs := by
  obtain ⟨-, -, ⟨-, hmax, -⟩, -⟩ := hv
  have hx : 0 ≤ x := zero_le_one.trans h
  rw [pulseOfRat, if_pos hx, pulseOffset_of_one_le P (h.trans (le_abs_self x)), sideSpan, if_pos hx]
  omega

theorem pulseOfRat_of_le_neg_one {x : ℚ} (h : x ≤ -1) : pulseOfRat P x = P.minUs := by
  obtain ⟨-, -, ⟨hmin, -⟩, -⟩ := hv
  have hx : ¬ 0 ≤ x := by linarith
  rw [pulseOfRat, if_neg hx, pulseOffset_of_one_le P (by linarith [neg_le_abs x]), sideSpan, if_neg hx]
  omega

/-- Rule R195: a NaN and both zeros give NEUTRAL_US, so every pattern a width between the ends. -/
theorem axisToPulse_mem (a : F32) : P.minUs ≤ axisToPulse P a ∧ axisToPulse P a ≤ P.maxUs := by
  cases hnan : f32IsNaN a with
  | false => exact axisToPulse_eq P hnan ▸ pulseOfRat_mem hv _
  | true =>
    obtain ⟨-, -, ⟨hmin, hmax, -⟩, -⟩ := hv
    rw [axisToPulse, if_pos hnan]
    omega

/-! ### The rounding of rule R195 -/

theorem pulseOfRat_sub_neutralUs (x : ℚ) :
    (pulseOfRat P x : ℚ) - P.neutralUs = if 0 ≤ x then (pulseOffset P x : ℚ) else -pulseOffset P x := by
  obtain ⟨-, -, ⟨hmin, -⟩, -⟩ := hv
  have hle := pulseOffset_le P x
  unfold pulseOfRat
  split_ifs with hx
  · push_cast
    ring
  · rw [sideSpan, if_neg hx] at hle
    rw [Nat.cast_sub (by omega)]
    ring

theorem abs_pulseOfRat_sub_neutralUs (x : ℚ) : |(pulseOfRat P x : ℚ) - P.neutralUs| = pulseOffset P x := by
  rw [pulseOfRat_sub_neutralUs hv]
  split_ifs
  · exact Nat.abs_cast _
  · rw [abs_neg, Nat.abs_cast]

/-- On either side the pulse is as far from the exact value as its offset is from the exact offset. -/
theorem abs_pulseOfRat_sub_exact (x : ℚ) :
    |(pulseOfRat P x : ℚ) - (P.neutralUs + x * sideSpan P x)| = |pulseOffset P x - |x| * sideSpan P x| := by
  rw [← sub_sub, pulseOfRat_sub_neutralUs hv]
  split_ifs with hx
  · rw [abs_of_nonneg hx]
  · rw [abs_of_neg (lt_of_not_ge hx), ← abs_neg]
    congr 1
    ring

omit hv in
theorem pulseOffset_near {x : ℚ} (h : |x| ≤ 1) :
    |x| * sideSpan P x - 1 / 2 < pulseOffset P x ∧ (pulseOffset P x : ℚ) ≤ |x| * sideSpan P x + 1 / 2 := by
  rw [pulseOffset, min_eq_left h]
  have hup := Nat.lt_floor_add_one (|x| * (sideSpan P x : ℚ) + 1 / 2)
  exact ⟨by linarith, Nat.floor_le (by positivity)⟩

/-- Rules R195, R11: at most half a microsecond from the exact value. -/
theorem abs_pulseOfRat_sub_exact_le {x : ℚ} (h : |x| ≤ 1) :
    |(pulseOfRat P x : ℚ) - (P.neutralUs + x * sideSpan P x)| ≤ 1 / 2 := by
  obtain ⟨hlo, hhi⟩ := pulseOffset_near (P := P) h
  rw [abs_pulseOfRat_sub_exact hv, abs_le]
  constructor <;> linarith

/-- Rules R195, R11: half way between two integers the one further from neutral. -/
theorem abs_pulseOfRat_sub_neutralUs_of_tie {x : ℚ} (h : |x| ≤ 1)
    (htie : |(pulseOfRat P x : ℚ) - (P.neutralUs + x * sideSpan P x)| = 1 / 2) :
    |(pulseOfRat P x : ℚ) - P.neutralUs| = |x * sideSpan P x| + 1 / 2 := by
  obtain ⟨hlo, -⟩ := pulseOffset_near (P := P) h
  rw [abs_pulseOfRat_sub_exact hv] at htie
  rw [abs_pulseOfRat_sub_neutralUs hv, abs_mul, Nat.abs_cast]
  rcases eq_or_eq_neg_of_abs_eq htie with hup | hdown <;> linarith

end

/-! ### One rounding to binary32 -/

/-- What RN32 scales is the ratio in units of its place. -/
theorem scaled_mul_f32Unit (n d : Nat) {k : Nat} (hk : k ≤ 126) :
    ((n * 2 ^ (23 + k) : Nat) : ℚ) / d * f32Unit (126 - k) = n / d := by
  have hpow : (2 : ℚ) ^ 149 = 2 ^ (23 + k) * 2 ^ (126 - k) := by rw [← pow_add]; congr 1; omega
  rw [f32Unit, hpow]
  push_cast
  field_simp

theorem f32Unit_le {g : Nat} (hg : g ≤ 126) : f32Unit g ≤ 1 / 2 ^ 23 := by
  have hpow : (2 : ℚ) ^ g ≤ 2 ^ 126 := pow_le_pow_right₀ one_le_two hg
  rw [f32Unit, div_le_iff₀ (by positivity)]
  linarith

/-- Up to 1 a place is at most 2^-23 wide, and RN32 is off by at most half of it (rule R11). -/
theorem abs_f32ToRat_rn32_sub_le (neg : Bool) {n d : Nat} (hd : 0 < d) (hnd : n ≤ d) :
    |f32ToRat (rn32 neg n d) - signed neg (n / d)| ≤ 1 / 2 ^ 24 := by
  rcases Nat.eq_zero_or_pos n with rfl | hn
  · rw [show rn32 neg 0 d = 0x00000000 from rfl, f32ToRat_zero]
    cases neg <;> norm_num [signed]
  obtain ⟨k, hk⟩ : ∃ k, k = min (negExp n d) 126 := ⟨_, rfl⟩
  obtain ⟨hlt, hnormal⟩ := rn32_scaled hn hnd hk
  have hg : 126 - k ≤ 126 := Nat.sub_le _ _
  have hr := roundsTo_roundTiesEven (n * 2 ^ (23 + k)) hd
  have hm : roundTiesEven (n * 2 ^ (23 + k)) d ≤ 2 ^ 24 := hr.le_of_le (by exact_mod_cast hlt)
  have hmn := hnormal.imp_right fun h => hr.le_of_ge (k := 2 ^ 23) (by exact_mod_cast h)
  rw [rn32_eq_packF32 neg hn hk, f32ToRat_packF32 neg hg hm hmn, ← scaled_mul_f32Unit n d (k := k) (by omega),
    abs_signed_sub_signed, ← sub_mul, abs_mul, abs_of_pos (f32Unit_pos _)]
  calc _ ≤ 1 / 2 * (1 / 2 ^ 23 : ℚ) := mul_le_mul hr.1 (f32Unit_le hg) (f32Unit_pos _).le (by norm_num)
    _ = 1 / 2 ^ 24 := by norm_num

theorem exists_signed_div (q : ℚ) (hq : |q| ≤ 1) :
    ∃ (neg : Bool) (n d : Nat), 0 < d ∧ n ≤ d ∧ q = signed neg (n / d) := by
  have habs : |q| = (q.num.natAbs : ℚ) / q.den := by
    rw [Nat.cast_natAbs, Int.cast_abs, ← Nat.abs_cast q.den, ← abs_div, Rat.num_div_den]
  have hle : q.num.natAbs ≤ q.den := by
    rw [habs, div_le_one (by exact_mod_cast q.den_pos)] at hq
    exact_mod_cast hq
  rcases abs_choice q with h | h
  · exact ⟨false, _, _, q.den_pos, hle, by rw [← habs, h]; rfl⟩
  · exact ⟨true, _, _, q.den_pos, hle, by rw [← habs, h]; exact (neg_neg q).symm⟩

/-- The binary32 nearest to a value in [-1, 1] is no farther from it than its RN32. -/
theorem NearestEven.abs_sub_le {b : F32} {q : ℚ} (h : NearestEven b q) (hq : |q| ≤ 1) : |f32ToRat b - q| ≤ 1 / 2 ^ 24 := by
  obtain ⟨neg, n, d, hd, hnd, rfl⟩ := exists_signed_div q hq
  obtain ⟨hfin, -⟩ := nearestEven_rn32 neg hd hnd
  exact ((h.2 _ hfin).1).trans (abs_f32ToRat_rn32_sub_le neg hd hnd)

/-! ### The round trips of rule R197 -/

section
variable {P : Params} (hv : P.Valid)
include hv

theorem abs_pulseRatio_le_one {w : Nat} (hlo : P.minUs ≤ w) (hhi : w ≤ P.maxUs) : |pulseRatio P w| ≤ 1 := by
  have hmono := (pulseRatio_strictMono hv).monotone
  exact abs_le.mpr ⟨pulseRatio_minUs hv ▸ hmono hlo, pulseRatio_maxUs hv ▸ hmono hhi⟩

/-- PulseToAxis is off by one rounding. -/
theorem abs_pulseToAxis_sub_pulseRatio_le {w : Nat} (hlo : P.minUs ≤ w) (hhi : w ≤ P.maxUs) :
    |f32ToRat (pulseToAxis P w) - pulseRatio P w| ≤ 1 / 2 ^ 24 :=
  (nearestEven_pulseToAxis_of_mem hv hlo hhi).abs_sub_le (abs_pulseRatio_le_one hv hlo hhi)

theorem f32IsNaN_pulseToAxis (w : Nat) : f32IsNaN (pulseToAxis P w) = false :=
  f32IsNaN_of_finite (nearestEven_pulseToAxis hv w).1

omit hv in
theorem f32ToRat_pulseToAxis_neutralUs : f32ToRat (pulseToAxis P P.neutralUs) = 0 := by
  rw [pulseToAxis_neutralUs, f32ToRat_zero]

/-- The axis of a width lies on the width's side of neutral: it is measured with the span that the width's ratio has. -/
theorem exists_span_pulseToAxis (w : Nat) :
    ∃ span : Nat, (span = P.maxUs - P.neutralUs ∨ span = P.neutralUs - P.minUs) ∧
      f32ToRat (pulseToAxis P w) * sideSpan P (f32ToRat (pulseToAxis P w)) = f32ToRat (pulseToAxis P w) * span ∧
      pulseRatio P w * span = w - P.neutralUs := by
  obtain ⟨-, -, ⟨hmin, hmax, -⟩, -⟩ := id hv
  have hmono := pulseToAxis_monotone hv
  rcases Nat.lt_or_ge P.neutralUs w with hw | hw
  · have hx : 0 ≤ f32ToRat (pulseToAxis P w) := f32ToRat_pulseToAxis_neutralUs (P := P) ▸ hmono hw.le
    refine ⟨_, .inl rfl, mul_sideSpan_of_nonneg P hx, ?_⟩
    rw [pulseRatio, if_neg hw.not_ge, Nat.cast_sub hmax.le,
      div_mul_cancel₀ _ (sub_ne_zero.mpr (by exact_mod_cast hmax.ne'))]
  · have hx : f32ToRat (pulseToAxis P w) ≤ 0 := f32ToRat_pulseToAxis_neutralUs (P := P) ▸ hmono hw
    refine ⟨_, .inr rfl, mul_sideSpan_of_nonpos P hx, ?_⟩
    rw [pulseRatio, if_pos hw, Nat.cast_sub hmin.le,
      div_mul_cancel₀ _ (sub_ne_zero.mpr (by exact_mod_cast hmin.ne'))]

/-- Rule R197 (b): one rounding of the axis moves the exact pulse by less than half a microsecond. -/
theorem pulseOfRat_pulseToAxis {w : Nat} (hlo : P.minUs ≤ w) (hhi : w ≤ P.maxUs)
    (hneg : P.neutralUs - P.minUs < 2 ^ 22) (hpos : P.maxUs - P.neutralUs < 2 ^ 22) :
    pulseOfRat P (f32ToRat (pulseToAxis P w)) = w := by
  obtain ⟨span, hspan, hside, hratio⟩ := exists_span_pulseToAxis hv w
  have hround := abs_pulseToAxis_sub_pulseRatio_le hv hlo hhi
  have hpulse := abs_pulseOfRat_sub_exact_le hv (abs_le.mpr (pulseToAxis_mem_unit hv w))
  rw [hside] at hpulse
  generalize f32ToRat (pulseToAxis P w) = x at hround hpulse ⊢
  have hlt : (span : ℚ) ≤ 2 ^ 22 := by exact_mod_cast (by omega : span ≤ 2 ^ 22)
  have herr : P.neutralUs + x * span - w = (x - pulseRatio P w) * span := by
    rw [sub_mul, hratio]
    ring
  have hexact : |P.neutralUs + x * span - w| ≤ 1 / 4 := by
    rw [herr, abs_mul, Nat.abs_cast]
    calc |x - pulseRatio P w| * span ≤ 1 / 2 ^ 24 * 2 ^ 22 := mul_le_mul hround hlt span.cast_nonneg (by positivity)
      _ = 1 / 4 := by norm_num
  have hnear : |((pulseOfRat P x : ℤ) - (w : ℤ) : ℚ)| < 1 := by
    have := abs_sub_le (pulseOfRat P x : ℚ) (P.neutralUs + x * span) w
    push_cast
    linarith
  have hzero : (pulseOfRat P x : ℤ) - (w : ℤ) = 0 := Int.abs_lt_one_iff.mp (by exact_mod_cast hnear)
  omega

/-- The ratio of a pulse is taken on the side of its axis; at neutral it is 0 on both. -/
theorem pulseRatio_pulseOfRat (x : ℚ) :
    pulseRatio P (pulseOfRat P x) = ((pulseOfRat P x : ℚ) - P.neutralUs) / sideSpan P x := by
  obtain ⟨-, -, ⟨hmin, hmax, -⟩, -⟩ := hv
  rw [pulseRatio, sideSpan]
  split_ifs with hw hx hx
  · have hneutral : pulseOfRat P x = P.neutralUs :=
      le_antisymm hw (by rw [pulseOfRat, if_pos hx]; exact Nat.le_add_right _ _)
    rw [hneutral, sub_self, zero_div, zero_div]
  · rw [Nat.cast_sub hmin.le]
  · rw [Nat.cast_sub hmax.le]
  · exact absurd (by rw [pulseOfRat, if_neg hx]; exact Nat.sub_le _ _) hw

theorem sideSpan_pos (x : ℚ) : 0 < sideSpan P x := by
  obtain ⟨-, -, ⟨hmin, hmax, -⟩, -⟩ := hv
  unfold sideSpan
  split_ifs <;> omega

/-- Rule R197 (a): the rounding to the microsecond, over the span. -/
theorem abs_pulseRatio_pulseOfRat_sub_le {x : ℚ} (h : |x| ≤ 1) :
    |pulseRatio P (pulseOfRat P x) - x| ≤ 1 / 2 / sideSpan P x := by
  have hspan : (0 : ℚ) < sideSpan P x := by exact_mod_cast sideSpan_pos hv x
  have herr : ((pulseOfRat P x : ℚ) - P.neutralUs) / sideSpan P x - x =
      ((pulseOfRat P x : ℚ) - (P.neutralUs + x * sideSpan P x)) / sideSpan P x := by
    field_simp
    ring
  rw [pulseRatio_pulseOfRat hv, herr, abs_div, Nat.abs_cast]
  exact div_le_div_of_nonneg_right (abs_pulseOfRat_sub_exact_le hv h) hspan.le

theorem cast_sideSpan (x : ℚ) :
    (sideSpan P x : ℚ) = if 0 ≤ x then (P.maxUs : ℚ) - P.neutralUs else (P.neutralUs : ℚ) - P.minUs := by
  obtain ⟨-, -, ⟨hmin, hmax, -⟩, -⟩ := hv
  unfold sideSpan
  split_ifs
  · exact Nat.cast_sub hmax.le
  · exact Nat.cast_sub hmin.le

end

end Sys2Proof.Machine

namespace Sys2Proof.Proofs

open Sys2Proof Sys2Proof.Machine

/-- Settles O21: the clamp keeps the offset within the span, and uses all of it from 1 on. -/
theorem axisToPulseStaysInRange : Obligations.AxisToPulseStaysInRange := by
  intro P a hv
  have hone (hle : f32Den a ≤ f32Num a) : 1 ≤ |f32ToRat a| := by
    rw [abs_f32ToRat, one_le_div (by exact_mod_cast f32Den_pos a)]
    exact_mod_cast hle
  refine ⟨axisToPulse_mem hv a, fun hnan => if_pos hnan, ?_, fun hnan hneg hle => ?_, fun hnan hneg hle => ?_⟩
  · rintro (rfl | rfl)
    · rw [axisToPulse_eq P (by decide), f32ToRat_zero, pulseOfRat_zero]
    · rw [axisToPulse_eq P (by decide), f32ToRat_neg_zero, pulseOfRat_zero]
  · rw [axisToPulse_eq P hnan, pulseOfRat_of_one_le hv]
    exact abs_of_nonneg (f32ToRat_nonneg hneg) ▸ hone hle
  · rw [axisToPulse_eq P hnan, pulseOfRat_of_le_neg_one hv]
    have := abs_of_nonpos (f32ToRat_nonpos hneg) ▸ hone hle
    linarith

/-- Settles O22: the offset from neutral is rounded, half way outwards. -/
theorem axisToPulseRoundsToNearestMicrosecond : Obligations.AxisToPulseRoundsToNearestMicrosecond := by
  rintro P a _ hv hnan hle rfl
  have hone : |f32ToRat a| ≤ 1 := by
    rw [abs_f32ToRat, div_le_one (by exact_mod_cast f32Den_pos a)]
    exact_mod_cast hle
  have hside : f32ToRat a * (if f32Neg a = true then ((P.neutralUs - P.minUs : Nat) : ℚ)
      else ((P.maxUs - P.neutralUs : Nat) : ℚ)) = f32ToRat a * sideSpan P (f32ToRat a) := by
    split_ifs with hneg
    · exact (mul_sideSpan_of_nonpos P (f32ToRat_nonpos hneg)).symm
    · exact (mul_sideSpan_of_nonneg P (f32ToRat_nonneg (Bool.eq_false_iff.mpr hneg))).symm
  rw [hside, axisToPulse_eq P hnan]
  exact ⟨abs_pulseOfRat_sub_exact_le hv hone, abs_pulseOfRat_sub_neutralUs_of_tie hv hone⟩

/-- Settles O23: the mapping depends on the value alone, and is monotonic in it. -/
theorem axisToPulseIsMonotonic : Obligations.AxisToPulseIsMonotonic := by
  intro P a b _ ha hb hle
  rw [axisToPulse_eq P ha, axisToPulse_eq P hb]
  exact pulseOfRat_monotone P hle

/-- Settles O24: the axis is within 2^-24 of the exact ratio of the width, which is a quarter of a microsecond at most. -/
theorem widthSurvivesRoundTripThroughAxis : Obligations.WidthSurvivesRoundTripThroughAxis := by
  intro P w hv hneg hpos hlo hhi
  rw [axisToPulse_eq P (f32IsNaN_pulseToAxis hv w), pulseOfRat_pulseToAxis hv hlo hhi hneg hpos]

/-- Settles O25: the rounding to the microsecond on the way to the pulse, and one of at most 2^-24 on the way back. -/
theorem axisSurvivesRoundTripWithinHalfMicrosecond : Obligations.AxisSurvivesRoundTripWithinHalfMicrosecond := by
  intro P a hv hnan hlo hhi
  rw [axisToPulse_eq P hnan, ← cast_sideSpan hv]
  generalize f32ToRat a = x at hlo hhi ⊢
  obtain ⟨hmin, hmax⟩ := pulseOfRat_mem hv x
  calc |f32ToRat (pulseToAxis P (pulseOfRat P x)) - x|
      ≤ |f32ToRat (pulseToAxis P (pulseOfRat P x)) - pulseRatio P (pulseOfRat P x)| +
          |pulseRatio P (pulseOfRat P x) - x| := abs_sub_le _ _ _
    _ ≤ 1 / 2 ^ 24 + 1 / 2 / sideSpan P x :=
        add_le_add (abs_pulseToAxis_sub_pulseRatio_le hv hmin hmax)
          (abs_pulseRatio_pulseOfRat_sub_le hv (abs_le.mpr ⟨hlo, hhi⟩))
    _ < 1 / 2 / sideSpan P x + 6 / 10 ^ 8 := by linarith [show (1 / 2 ^ 24 : ℚ) < 6 / 10 ^ 8 by norm_num]

end Sys2Proof.Proofs
end

section
/-!
PROOFS. The operations of ActuationDriver, the waveform on its pins and the reset (spec/42_actuation_driver.md rules R192, R194,
R196, R198, R199, R207; spec/70_reset_and_hazards.md rule R302): O43 to O49.
-/

namespace Sys2Proof.Machine

/-! ### The operations -/

/-- Rule R192, the first time. -/
theorem exec_adInit_of_off {s : State} (h : s.pwmEnabled = false) :
    exec .adInit s = .next
      (((s.setShadow (neutralWidths s.params)).enablePwm.startPeriod (neutralWidths s.params)).ret (.status .ok)) :=
  if_neg (Bool.eq_false_iff.mp h)

/-- Rule R192, while the carrier runs. -/
theorem exec_adInit_of_on {s : State} (h : s.pwmEnabled = true) :
    exec .adInit s = .next ((s.setShadow (neutralWidths s.params)).ret (.status .ok)) :=
  if_pos h

theorem exec_adNeutral_of_on {s : State} (h : s.pwmEnabled = true) :
    exec .adNeutral s = .next ((s.setShadow (neutralWidths s.params)).ret (.status .ok)) :=
  if_pos h

theorem exec_adNeutral_of_off {s : State} (h : s.pwmEnabled = false) :
    exec .adNeutral s = .next (s.ret (.status .notInit)) :=
  if_neg (Bool.eq_false_iff.mp h)

theorem exec_adSetPw (ch : Byte) (us : Word16) (s : State) :
    exec (.adSetPw ch us) s = .next (writePulse s ch us.toNat) := rfl

theorem exec_adSetAxis (ch : Byte) (a : F32) (s : State) :
    exec (.adSetAxis ch a) s = .next (writePulse s ch (axisToPulse s.params a)) := rfl

theorem exec_sysReset (s : State) : exec .sysReset s = .next (resetRegisters s) := rfl

theorem writePulse_of_no_channel {ch : Byte} (h : 2 ≤ ch.toNat) (s : State) (us : Nat) :
    writePulse s ch us = s.ret (.status .badChannel) := by
  rw [writePulse, channelOf_none h]

theorem writePulse_toByte_of_off {s : State} (h : s.pwmEnabled = false) (c : Chan) (us : Nat) :
    writePulse s c.toByte us = s.ret (.status .notInit) := by
  rw [writePulse, channelOf_toByte]
  exact if_neg (Bool.eq_false_iff.mp h)

theorem writePulse_toByte_of_on {s : State} (h : s.pwmEnabled = true) (c : Chan) (us : Nat) :
    writePulse s c.toByte us =
      (s.setShadow (s.pwShadow.set c (pulseOperand s.params us))).ret (.status .ok) := by
  rw [writePulse, channelOf_toByte]
  exact if_pos h

/-- The axis operand needs no clamp of its width (rule R196). -/
theorem pulseOperand_axisToPulse {P : Params} (hv : P.Valid) (a : F32) :
    (pulseOperand P (axisToPulse P a)).toNat = axisToPulse P a := by
  obtain ⟨hlo, hhi⟩ := axisToPulse_mem hv a
  rw [pulseOperand_toNat hv, clampNat_of_mem hlo hhi]

theorem axisToPulse_narrowed {P : Params} (hv : P.Valid) (a : F32) :
    (BitVec.ofNat 16 (axisToPulse P a)).toNat = axisToPulse P a := by
  obtain ⟨-, hhi⟩ := axisToPulse_mem hv a
  obtain ⟨-, -, ⟨-, -, -, hmax⟩, -⟩ := hv
  exact length_field (Nat.lt_succ_of_le (hhi.trans hmax))

/-! ### The pins -/

/-- Rule R199 at phase `k` of the period, with a period that fits the counter (assumption 7). -/
theorem pinHigh_at_phase {s : State} (hon : s.pwmEnabled = true) (c : Chan) {k : Nat} (hk : k < s.params.timeMod) :
    pinHigh s c ((s.periodStart + k) % s.params.timeMod) = decide (k < (s.pwActive.get c).toNat) := by
  rw [pinHigh, hon, Bool.true_and, tsub_advanced _ _ _ hk]

theorem countP_range_lt {m n : Nat} (h : m ≤ n) : (List.range n).countP (fun k => decide (k < m)) = m := by
  rw [List.countP_eq_length_filter, ← List.Ico.zero_bot, List.Ico.filter_lt_of_ge h, List.Ico.length, Nat.sub_zero]

/-! ### The pulse in progress -/

/-- The clock, the carrier and what is on the pins are the same. -/
structure SameCarrier (s t : State) : Prop where
  params : t.params = s.params
  now : t.now = s.now
  pwmEnabled : t.pwmEnabled = s.pwmEnabled
  periodStart : t.periodStart = s.periodStart
  pwActive : t.pwActive = s.pwActive
  pwmTrace : t.pwmTrace = s.pwmTrace

/-- Rules R192, R194, R198: while the carrier runs, the host writes the shadows only. -/
theorem Effect.sameCarrier_of_host {i : Instr} {s t : State} (he : Effect s i t) (hhost : i.agent = .host)
    (hon : s.pwmEnabled = true) : SameCarrier s t := by
  cases he with
  | result | poll | queue | neutral | pulse => exact ⟨rfl, rfl, rfl, rfl, rfl, rfl⟩
  | byteKept _ _ hi | byteLost _ hi => exact nomatch hi.symm.trans hhost
  | start hoff => exact nomatch hoff.symm.trans hon
  | _ => exact nomatch hhost

theorem SameCarrier.phase_eq {s t : State} (h : SameCarrier s t) : phase t = phase s := by
  rw [phase, phase, h.params, h.now, h.periodStart]

/-- Rule R205: an advance that ends at the next boundary crosses it and no other. -/
theorem advance_toBoundary {s : State} (hon : s.pwmEnabled = true) (hphase : phase s < s.params.pwmPeriodUs) :
    advance s (toBoundary s) = addTime (crossBoundary s) 0 := by
  have hperiod := Nat.zero_lt_of_lt hphase
  rw [advance_boundary s _ hperiod hon le_rfl, Nat.sub_self, advance_short _ 0 (.inr ?_)]
  rwa [toBoundary, phase_crossBoundary, params_crossBoundary]

end Sys2Proof.Machine

namespace Sys2Proof.Proofs

open Sys2Proof Sys2Proof.Machine

/-- Settles O43, by whether the carrier runs. -/
theorem initStartsCarrierOnceAtNeutral : Obligations.InitStartsCarrierOnceAtNeutral := by
  rintro s _ rfl
  exact ⟨exec_adInit_of_off, exec_adInit_of_on⟩

/-- Settles O44: the byte names no channel, or it is the byte of one, and the clamp fits 16 bits. -/
theorem setPulseWritesClampedShadow : Obligations.SetPulseWritesClampedShadow := by
  intro ch us s hv
  refine ⟨fun hch => ?_, fun hch hoff => ?_, ?_⟩
  · rw [exec_adSetPw, writePulse_of_no_channel hch]
    rfl
  · obtain ⟨c, -, rfl⟩ := channelOf_some hch
    rw [exec_adSetPw, writePulse_toByte_of_off hoff]
    rfl
  · rintro c (rfl : ch = c.toByte) hon
    refine ⟨_, congrArg Host.Outcome.next (writePulse_toByte_of_on hon c us.toNat), ?_, fun d hd => ?_, rfl, rfl⟩
    · rw [State.ret_pwShadow, State.setShadow_pwShadow, PerCh.get_set_self, pulseOperand_toNat hv]
      rfl
    · exact PerCh.get_set_other _ _ hd

/-- Settles O45: both operations are one write, and the mapped width is between the ends already. -/
theorem setAxisIsSetPulseOfMappedAxis : Obligations.SetAxisIsSetPulseOfMappedAxis := by
  intro ch a s hv
  refine ⟨?_, _, exec_adSetAxis ch a s, ?_⟩
  · rw [exec_adSetAxis, exec_adSetPw, axisToPulse_narrowed hv]
  · rintro c (rfl : ch = c.toByte) hon
    rw [writePulse_toByte_of_on hon]
    refine ⟨?_, rfl⟩
    rw [State.ret_pwShadow, State.setShadow_pwShadow, PerCh.get_set_self, pulseOperand_axisToPulse hv]

/-- Settles O46, by whether the carrier runs. -/
theorem neutralWritesBothShadows : Obligations.NeutralWritesBothShadows := by
  rintro s _ rfl
  exact ⟨exec_adNeutral_of_on, exec_adNeutral_of_off⟩

/-- Settles O47: the phase of the `k`-th microsecond is `k`, as the period fits the counter. -/
theorem pinIsHighForTheActiveWidth : Obligations.PinIsHighForTheActiveWidth := by
  refine fun s c => ⟨fun hoff t => by rw [pinHigh, hoff, Bool.false_and], fun hon hwidth hfits _ => ?_⟩
  have hpin (k : Nat) (hk : k < s.params.pwmPeriodUs) := pinHigh_at_phase hon c (hk.trans_le hfits)
  refine ⟨fun k hk => by rw [hpin k hk, decide_eq_true_iff], ?_⟩
  rw [List.countP_congr (q := fun k => decide (k < (s.pwActive.get c).toNat)), countP_range_lt hwidth]
  intro k hk
  rw [hpin k (List.mem_range.mp hk)]

/-- Settles O48: the host leaves the carrier, which crosses one boundary with the shadows it finds. -/
theorem writeReachesPinAtNextBoundary : Obligations.WriteReachesPinAtNextBoundary := by
  intro s t i d hs hhost hon h
  obtain ⟨-, -, -, -, -, -, hphase⟩ := hs
  have hsame := (effect_of_exec h).sameCarrier_of_host hhost hon
  refine ⟨hsame.pwActive, hsame.periodStart, hsame.pwmTrace, fun hd => ⟨_, exec_tAdv d t, ?_⟩⟩
  have hreach : d.toNat = toBoundary t := by rw [hd, toBoundary, hsame.phase_eq, hsame.params, phase]
  have hphase : phase t < t.params.pwmPeriodUs := by
    rw [hsame.phase_eq, hsame.params]
    exact hphase hon
  rw [hreach, advance_toBoundary (hsame.pwmEnabled.trans hon) hphase, ← hsame.now, ← hsame.params, ← hsame.pwmTrace]
  exact ⟨rfl, rfl⟩

/-- Settles O49: the reset keeps the record, the input and the histories only. -/
theorem resetWritesEveryRegister : Obligations.ResetWritesEveryRegister := by
  rintro s _ rfl
  exact ⟨_, exec_sysReset s, rfl, rfl, rfl, rfl, rfl, rfl, rfl, rfl, rfl, rfl, rfl, rfl, rfl, rfl⟩

end Sys2Proof.Proofs
end

section
/-!
PROOFS. The host's control software outside the block (spec/43_host_software.md rules R225, R226, R228, R230, R231): the slew limiter
by the distance it leaves, O58; the Arbiter and the FailsafeMonitor, O60.
-/

namespace Sys2Proof.Machine

/-! ### The slew limiter -/

/-- At its target the slew limiter stays, whatever the rate (rule R231). -/
@[simp] theorem slew_self (rate : ℚ) (ms : Nat) (target : ℚ) : slew rate ms target target = target := by
  simp [slew]

/-- Within one step of the target the slew limiter answers the target (rule R230). -/
theorem slew_of_near {rate target current : ℚ} {ms : Nat} (hnear : |target - current| ≤ rate * ms / 1000) :
    slew rate ms target current = target :=
  if_pos hnear

/-- The three things a step of the slew limiter can do: it is within a step of the target, or more than one below or above it
(rule R230, for a rate of 0 or more). -/
theorem slew_cases {rate : ℚ} (hrate : 0 ≤ rate) (ms : Nat) (target current : ℚ) :
    (|target - current| ≤ rate * ms / 1000 ∧ slew rate ms target current = target) ∨
      (rate * ms / 1000 < target - current ∧ slew rate ms target current = current + rate * ms / 1000) ∨
      (rate * ms / 1000 < current - target ∧ slew rate ms target current = current - rate * ms / 1000) := by
  have hmove : 0 ≤ rate * ms / 1000 := by positivity
  rcases le_or_gt |target - current| (rate * ms / 1000) with hnear | hfar
  · exact .inl ⟨hnear, slew_of_near hnear⟩
  · rcases lt_abs.mp hfar with hbelow | habove
    · exact .inr (.inl ⟨hbelow, by rw [slew, if_neg hfar.not_ge, if_pos (by linarith)]⟩)
    · rw [neg_sub] at habove
      exact .inr (.inr ⟨habove, by rw [slew, if_neg hfar.not_ge, if_neg (by linarith), if_pos (by linarith)]⟩)

section
variable {rate : ℚ} (hrate : 0 ≤ rate) (ms : Nat) (target current : ℚ)
include hrate

/-- A step takes its whole length off the distance to the target, down to 0 (rule R230): convergence rests on this alone. -/
theorem abs_target_sub_slew :
    |target - slew rate ms target current| = max 0 (|target - current| - rate * ms / 1000) := by
  have hmove : 0 ≤ rate * ms / 1000 := by positivity
  obtain ⟨hnear, heq⟩ | ⟨hbelow, heq⟩ | ⟨habove, heq⟩ := slew_cases hrate ms target current <;> rw [heq]
  · rw [sub_self, abs_zero, max_eq_left (by linarith)]
  · rw [abs_of_pos (by linarith), abs_of_pos (by linarith), max_eq_right (by linarith)]
    ring
  · rw [abs_of_neg (by linarith), abs_of_neg (by linarith), max_eq_right (by linarith)]
    ring

/-- From below the slew limiter rises, and not past the target (rule R231). -/
theorem slew_mem_Icc_of_le (hle : current ≤ target) : slew rate ms target current ∈ Set.Icc current target := by
  have hmove : 0 ≤ rate * ms / 1000 := by positivity
  obtain ⟨-, heq⟩ | ⟨hbelow, heq⟩ | ⟨habove, -⟩ := slew_cases hrate ms target current
  · rw [heq]
    exact ⟨hle, le_rfl⟩
  · rw [heq]
    exact ⟨by linarith, by linarith⟩
  · linarith

/-- From above the slew limiter falls, and not past the target (rule R231). -/
theorem slew_mem_Icc_of_ge (hge : target ≤ current) : slew rate ms target current ∈ Set.Icc target current := by
  have hmove : 0 ≤ rate * ms / 1000 := by positivity
  obtain ⟨-, heq⟩ | ⟨hbelow, -⟩ | ⟨habove, heq⟩ := slew_cases hrate ms target current
  · rw [heq]
    exact ⟨le_rfl, hge⟩
  · linarith
  · rw [heq]
    exact ⟨by linarith, by linarith⟩

/-- The slew limiter moves by one step at most (rule R230). -/
theorem abs_slew_sub_current_le : |slew rate ms target current - current| ≤ rate * ms / 1000 := by
  have hmove : 0 ≤ rate * ms / 1000 := by positivity
  obtain ⟨hnear, heq⟩ | ⟨-, heq⟩ | ⟨-, heq⟩ := slew_cases hrate ms target current <;> rw [heq]
  · exact hnear
  · rw [add_sub_cancel_left, abs_of_nonneg hmove]
  · rw [sub_sub_cancel_left, abs_neg, abs_of_nonneg hmove]

/-- As many steps as cover the distance end at the target (rule R231). -/
theorem slew_iterate_eq_target (n : Nat) (hdist : |target - current| ≤ n * (rate * ms / 1000)) :
    (slew rate ms target)^[n] current = target := by
  induction n generalizing current with
  | zero =>
    rw [Nat.cast_zero, zero_mul, abs_nonpos_iff, sub_eq_zero] at hdist
    exact hdist.symm
  | succ n ih =>
    rw [Function.iterate_succ_apply]
    apply ih
    rw [abs_target_sub_slew hrate]
    push_cast at hdist
    exact max_le (by positivity) (by linarith)

end

/-! ### The Arbiter and the FailsafeMonitor -/

/-- The Arbiter takes the RC sample and empties the slot, whatever is in it (rule R226). -/
theorem arbitrate_some (P : Params) (H : HostParams) (x : Sample) (now : Nat) (v : HostVars) :
    arbitrate P H (some x) now v =
      { v with commandedThrottle := x.throttle, commandedSteering := x.steering, slot := none } := rfl

/-- The network source is not active while RC is (rule R225). -/
theorem networkActive_of_rcActive (P : Params) (H : HostParams) (v : HostVars) (now : Nat) :
    networkActive P H v true now = false := rfl

/-- An active source ends failsafe at once (rule R228). -/
theorem failsafeActive_failsafeCheck_true (P : Params) (H : HostParams) (now : Nat) (v : HostVars) :
    (failsafeCheck P H true now v).failsafeActive = false := rfl

/-- In failsafe the target is exactly neutral, whatever is commanded (rule R228). -/
theorem targetOf_of_failsafeActive {v : HostVars} (h : v.failsafeActive = true) : targetOf v = (0, 0) :=
  if_pos h

end Sys2Proof.Machine

namespace Sys2Proof.Proofs

open Sys2Proof Sys2Proof.Machine

/-- Settles O58, from the distance that one step leaves (`abs_target_sub_slew`). -/
theorem slewLimiterConvergesWithoutOvershoot : Obligations.SlewLimiterConvergesWithoutOvershoot := by
  rintro rate ms target current _ rfl
  refine ⟨slew_self rate ms target, fun hrate => ?_⟩
  refine ⟨slew_mem_Icc_of_le hrate ms target current, slew_mem_Icc_of_ge hrate ms target current,
    abs_slew_sub_current_le hrate ms target current, fun hne hmove => ?_, slew_of_near, fun hfar => ?_,
    slew_iterate_eq_target hrate ms target current⟩
  · have haway : 0 < |target - current| := abs_pos.mpr (sub_ne_zero.mpr hne.symm)
    rw [abs_target_sub_slew hrate]
    exact max_lt haway (sub_lt_self _ hmove)
  · rw [abs_target_sub_slew hrate, max_eq_right (sub_nonneg.mpr hfar.le)]

/-- Settles O60: an RC sample decides the Arbiter, and failsafe decides the target. -/
theorem rcOverridesNetworkAndFailsafeForcesNeutral : Obligations.RcOverridesNetworkAndFailsafeForcesNeutral := by
  intro P H v w x now hw
  rw [arbitrate_some] at hw
  subst hw
  refine ⟨rfl, rfl, rfl, networkActive_of_rcActive P H v now, fun hlate => ?_, failsafeActive_failsafeCheck_true P H now v⟩
  exact targetOf_of_failsafeActive ((failsafeActive_failsafeCheck_false P H now v).mpr (.inr hlate))

end Sys2Proof.Proofs
end

section
/-!
PROOFS. No operation faults and none is refused (spec/60_exceptions.md rules R260, R282): O8.
-/

namespace Sys2Proof.Proofs

open Sys2Proof Sys2Proof.Machine

/-- Settles O8: most operations have one outcome; the six that test the state or an operand answer a next state on every branch. -/
theorem everyOperationIsTotal : Obligations.EveryOperationIsTotal := by
  intro i s
  cases i with
  | frameCommand | frameTelem | framePing | framePong => exact ⟨_, rfl⟩
  | tAdv | pcRise | pcPoll | pcActive => exact ⟨_, rfl⟩
  | clRxByte | clPoll | clStats => exact ⟨_, rfl⟩
  | adSetPw | adSetAxis | sysReset => exact ⟨_, rfl⟩
  | pcFall c =>
    cases harmed : isArmed s c with
    | false => exact ⟨_, exec_pcFall_of_not_armed harmed⟩
    | true =>
      cases hw : inWindow s.params (capturedWidth s c) with
      | false => exact ⟨_, exec_pcFall_of_rejected harmed hw⟩
      | true => exact ⟨_, exec_pcFall_of_accepted harmed hw⟩
  | pcRead ch =>
    rcases le_or_gt 2 ch.toNat with hnone | hchan
    · exact ⟨_, exec_pcRead_of_no_channel hnone s⟩
    · obtain ⟨c, -, rfl⟩ := channelOf_some hchan
      exact ⟨_, exec_pcRead_toByte c s⟩
  | clSend u p =>
    by_cases hok : sendStatus s.params s.txFifo.length u p.length = .ok
    · exact ⟨_, exec_clSend_of_ok hok⟩
    · exact ⟨_, exec_clSend_of_ne_ok rfl hok⟩
  | clTxByte =>
    cases hfifo : s.txFifo with
    | nil => exact ⟨_, exec_clTxByte_of_nil hfifo⟩
    | cons b rest => exact ⟨_, exec_clTxByte_of_cons hfifo⟩
  | adInit =>
    cases hon : s.pwmEnabled with
    | false => exact ⟨_, exec_adInit_of_off hon⟩
    | true => exact ⟨_, exec_adInit_of_on hon⟩
  | adNeutral =>
    cases hon : s.pwmEnabled with
    | false => exact ⟨_, exec_adNeutral_of_off hon⟩
    | true => exact ⟨_, exec_adNeutral_of_on hon⟩

end Sys2Proof.Proofs
end

section
/-!
PROOFS. What the outside sees of silent channels and empty buffers, and so of the block right after reset
(spec/70_reset_and_hazards.md rules R292, R296): O50.
-/

namespace Sys2Proof.Machine

/-! ### No signal -/

/-- Rules R126 (d), R127: a channel that is not fresh reads NoSignal. -/
theorem readChannel_of_not_fresh {s : State} {c : Chan} (h : fresh s c = false) : readChannel s c = none :=
  if_neg (Bool.eq_false_iff.mp h)

/-- Rule R127: nothing is fresh before a width has been accepted. -/
theorem fresh_of_not_valid {s : State} {c : Chan} (h : isValid s c = false) : fresh s c = false := by
  rw [isValid] at h
  rw [fresh, h, Bool.false_and]

section
variable {s : State} (hsilent : ∀ c, fresh s c = false)
include hsilent

/-- Rule R126: where no channel is fresh, every byte reads NoSignal, whether it names a channel or not. -/
theorem exec_pcRead_of_silent (ch : Byte) : exec (.pcRead ch) s = .next (s.ret (.axis none)) := by
  rcases le_or_gt 2 ch.toNat with hnone | hchan
  · exact exec_pcRead_of_no_channel hnone s
  · obtain ⟨c, -, rfl⟩ := channelOf_some hchan
    rw [exec_pcRead_toByte, readChannel_of_not_fresh (hsilent c)]

/-- Rule R129: RC is not active where a channel is not fresh. -/
theorem exec_pcActive_of_silent : exec .pcActive s = .next (s.ret (.active false)) := by
  change execPcActive s = _
  rw [execPcActive, hsilent .ch0, Bool.false_and]

/-- Rule R128: a sample needs an axis of the first channel already. -/
theorem exec_pcPoll_of_silent : exec .pcPoll s = .next (s.ret (.sample none)) := by
  change execPcPoll s = _
  rw [execPcPoll, pollSample, readChannel_of_not_fresh (hsilent .ch0)]

end

/-! ### No bytes, no carrier -/

/-- Rule R156: on an empty buffer the first pass waits already. -/
theorem poll_nil (P : Params) (c : Counters) : poll P [] c = ⟨[], c, none⟩ := by
  have hwait : scan P [] = .wait := if_pos Nat.one_pos
  rw [poll_eq, hwait]

/-- Rule R156: CL.POLL on an empty buffer answers None and changes nothing. -/
theorem exec_clPoll_of_nil {s : State} (h : s.rxBuf = []) : exec .clPoll s = .next (s.ret (.frame none)) := by
  have hpoll : poll s.params s.rxBuf s.cnt = ⟨s.rxBuf, s.cnt, none⟩ := by rw [h, poll_nil]
  exact exec_clPoll hpoll

/-- Rule R199: without a carrier a pin is low at every instant. -/
theorem pinHigh_of_off {s : State} (h : s.pwmEnabled = false) (c : Chan) (u : Nat) : pinHigh s c u = false := by
  rw [pinHigh, h, Bool.false_and]

/-- Rules R194, R196: without a carrier a pulse write to a channel that exists changes nothing. -/
theorem writePulse_of_off {s : State} (h : s.pwmEnabled = false) {ch : Byte} (hch : ch.toNat < 2) (us : Nat) :
    writePulse s ch us = s.ret (.status .notInit) := by
  obtain ⟨c, -, rfl⟩ := channelOf_some hch
  exact writePulse_toByte_of_off h c us

/-! ### After reset -/

@[simp] theorem resetRegisters_pwmEnabled (s : State) : (resetRegisters s).pwmEnabled = false := rfl

@[simp] theorem resetRegisters_rxBuf (s : State) : (resetRegisters s).rxBuf = [] := rfl

@[simp] theorem resetRegisters_txFifo (s : State) : (resetRegisters s).txFifo = [] := rfl

@[simp] theorem isValid_resetRegisters (s : State) (c : Chan) : isValid (resetRegisters s) c = false := by
  cases c <;> rfl

/-- Rules R55, R127: after reset no channel is fresh, although the clock and the acceptance times are both 0. -/
theorem fresh_resetRegisters (s : State) (c : Chan) : fresh (resetRegisters s) c = false :=
  fresh_of_not_valid (isValid_resetRegisters s c)

end Sys2Proof.Machine

namespace Sys2Proof.Proofs

open Sys2Proof Sys2Proof.Machine

/-- Settles O50: after reset no channel is fresh, both buffers are empty and the carrier does not run. -/
theorem nothingIsSeenAfterReset : Obligations.NothingIsSeenAfterReset := by
  intro s t h
  obtain rfl := Host.Outcome.next.inj ((exec_sysReset s).symm.trans h)
  have hsilent := fresh_resetRegisters s
  have hoff := resetRegisters_pwmEnabled s
  refine ⟨pinHigh_of_off hoff, exec_pcRead_of_silent hsilent, exec_pcActive_of_silent hsilent,
    exec_pcPoll_of_silent hsilent, exec_clPoll_of_nil (resetRegisters_rxBuf s),
    exec_clTxByte_of_nil (resetRegisters_txFifo s), rfl, fun ch us hch => ?_, fun ch a hch => ?_,
    exec_adNeutral_of_off hoff⟩
  · rw [exec_adSetPw, writePulse_of_off hoff hch]
    rfl
  · rw [exec_adSetAxis, writePulse_of_off hoff hch]
    rfl

end Sys2Proof.Proofs
end
